-- ==== Sys2Proof/Word.lean ====
section
/-! DEFINITION. The widths of what the Base-X Engine moves: command words, character codes, item data
(00_scope.md R8). -/

namespace Sys2Proof

/-- A command word, CMDW = 72 bits (30_encoding.md R80). -/
abbrev CmdWord := BitVec 72

/-- A character code, CW = 21 bits, opaque to the engine (00_scope.md R13). -/
abbrev CharCode := BitVec 21

/-- A 64-bit value: an argument, a register as `RDREG` reads it, the data of an item. -/
abbrev Data := BitVec 64

end Sys2Proof
end

