-- ==== Sys2Proof/Syntax.lean ====
section
/-! DEFINITION. The thirteen commands of 30_encoding.md R88 as syntax: one constructor per row of the opcode table,
each with exactly the fields of its format (R82), at the widths of R86. -/

namespace Sys2Proof

/-- A command of the Base-X Engine, decoded. A field's type is its width in the word; R86's legal ranges are
`Instr.wellFormed`. -/
inductive Instr where
  /-- `BINIT w`: construct the Bit Packer (42_bitpacker.md R150). -/
  | binit (w : BitVec 6)
  /-- `BPUT v, iw`: consume `iw` bits of `v` (R151). -/
  | bput (v : BitVec 32) (iw : BitVec 6)
  /-- `BFLUSH`: emit the padded remainder, or none (R152). -/
  | bflush
  /-- `CLEN n`: set the charset length (40_charset.md R110). -/
  | clen (n : BitVec 9)
  /-- `CSET idx, ch`: write one charset entry (R111). -/
  | cset (idx : BitVec 8) (ch : CharCode)
  /-- `CGET idx`: read one charset entry (R112). -/
  | cget (idx : BitVec 8)
  /-- `CBITS`: check that BASE is a power of two (R113). -/
  | cbits
  /-- `NGEN value`: generate a numeral string (41_numeral.md R131). -/
  | ngen (value : BitVec 64)
  /-- `NBEGIN`: open a numeral-to-integer conversion (R132). -/
  | nbegin
  /-- `NSYM ch`: take the next symbol (R133). -/
  | nsym (ch : CharCode)
  /-- `NEND`: close the conversion, give the integer (R134). -/
  | nend
  /-- `RDREG r`: read a register (44_system.md R170). -/
  | rdreg (r : BitVec 8)
  /-- `CLRF`: leave fault state (R171). -/
  | clrf
deriving DecidableEq, Repr

end Sys2Proof
end

