-- ==== Sys2Proof/Decode.lean ====
section
/-! DEFINITION. Decoding and encoding of the 72-bit command word (30_encoding.md R80 to R92). -/

namespace Sys2Proof

/-- Why a word selects no command (R90). Both kinds make the engine raise IllegalCommand (60_exceptions.md R215). -/
inductive DecodeError where
  /-- The opcode is none of the thirteen of R88. -/
  | undefinedOpcode (op : BitVec 8)
  /-- The opcode is defined and a reserved bit of its format is 1. -/
  | reservedBits (op : BitVec 8)
deriving DecidableEq, Repr

/-- `op = cmd[71:64]` (R80). -/
def opField (c : CmdWord) : BitVec 8 := c.extractLsb' 64 8

/-- `arg = cmd[63:0]` (R80). -/
def argField (c : CmdWord) : Data := c.extractLsb' 0 64

/-- `i`, provided the reserved bits of its format are all zero (R82). -/
def requireZero (reserved : Bool) (c : CmdWord) (i : Instr) : Except DecodeError Instr :=
  if reserved then .ok i else .error (.reservedBits (opField c))

/-- The decoder: total, by opcode and then by reserved bits (R81, R90), every field taken from contiguous bits as R86
says. -/
def decode (c : CmdWord) : Except DecodeError Instr :=
  match opField c with
  | 0x01#8 => requireZero (c.extractLsb' 6 58 == 0#58) c (.binit (c.extractLsb' 0 6))
  | 0x02#8 => requireZero (c.extractLsb' 38 26 == 0#26) c (.bput (c.extractLsb' 0 32) (c.extractLsb' 32 6))
  | 0x03#8 => requireZero (argField c == 0#64) c .bflush
  | 0x10#8 => requireZero (c.extractLsb' 9 55 == 0#55) c (.clen (c.extractLsb' 0 9))
  | 0x11#8 => requireZero (c.extractLsb' 40 24 == 0#24 && c.extractLsb' 21 11 == 0#11) c
      (.cset (c.extractLsb' 32 8) (c.extractLsb' 0 21))
  | 0x12#8 => requireZero (c.extractLsb' 40 24 == 0#24 && c.extractLsb' 0 32 == 0#32) c (.cget (c.extractLsb' 32 8))
  | 0x13#8 => requireZero (argField c == 0#64) c .cbits
  | 0x20#8 => .ok (.ngen (argField c))
  | 0x21#8 => requireZero (argField c == 0#64) c .nbegin
  | 0x22#8 => requireZero (c.extractLsb' 21 43 == 0#43) c (.nsym (c.extractLsb' 0 21))
  | 0x23#8 => requireZero (argField c == 0#64) c .nend
  | 0x30#8 => requireZero (c.extractLsb' 8 56 == 0#56) c (.rdreg (c.extractLsb' 0 8))
  | 0x31#8 => requireZero (argField c == 0#64) c .clrf
  | op => .error (.undefinedOpcode op)

/-- The opcode byte of a command (R88). -/
def opcodeOf : Instr → BitVec 8
  | .binit _ => 0x01
  | .bput _ _ => 0x02
  | .bflush => 0x03
  | .clen _ => 0x10
  | .cset _ _ => 0x11
  | .cget _ => 0x12
  | .cbits => 0x13
  | .ngen _ => 0x20
  | .nbegin => 0x21
  | .nsym _ => 0x22
  | .nend => 0x23
  | .rdreg _ => 0x30
  | .clrf => 0x31

/-- The argument of a command, each format as R83 to R85 write it, most significant part first. -/
def argumentOf : Instr → Data
  | .binit w => 0#58 ++ w
  | .bput v iw => 0#26 ++ iw ++ v
  | .clen n => 0#55 ++ n
  | .cset idx ch => 0#24 ++ idx ++ 0#11 ++ ch
  | .cget idx => 0#24 ++ idx ++ 0#32
  | .ngen value => value
  | .nsym ch => 0#43 ++ ch
  | .rdreg r => 0#56 ++ r
  | .bflush | .cbits | .nbegin | .nend | .clrf => 0#64

/-- The encoder: the opcode byte above the argument (R80). -/
def encode (i : Instr) : CmdWord := opcodeOf i ++ argumentOf i

/-- The instruction this decoder reads from an instruction of `nbits` bits given as the number `w` (bit 0 least
significant). A command word is one 72-bit unit whose bits move in parallel, so there is no byte order to apply
(20_memory.md R73). More than 72 bits are no command (30_encoding.md R92). -/
def decodeTableWord (nbits w : Nat) : Option Instr :=
  if nbits ≤ 72 then (decode (BitVec.ofNat 72 (w % 2 ^ nbits))).toOption else none

end Sys2Proof
end

