-- ==== Sys2Proof/Config.lean ====
section
/-! DEFINITION. What is fixed for this hardware: the constants of 00_scope.md R8, the two hardwired registers
(10_state.md R36, R38), and the one free value of the model. -/

namespace Sys2Proof.Config

/-- Largest output width of the Bit Packer (R8). -/
abbrev wMax : Nat := 32

/-- Largest input width of one `BPUT` (R8). -/
abbrev iwMax : Nat := 32

/-- Entries of the charset table, and the largest BASE (R8). -/
abbrev ctSize : Nat := 256

/-- Width of a numeral value (R8). -/
abbrev nw : Nat := 64

/-- Width of a character code (R8). -/
abbrev cw : Nat := 21

/-- The value of the read-only register `ID`: zeros, 'B', 'X', 'E', version 7 (10_state.md R38). -/
def idValue : Data := 0#32 ++ 0x42#8 ++ 0x58#8 ++ 0x45#8 ++ 0x07#8

/-- The value of the read-only register `CAP`, its fields as 10_state.md R36 lays them out. -/
def capValue : Data :=
  0#16 ++ BitVec.ofNat 16 ctSize ++ BitVec.ofNat 8 iwMax ++ BitVec.ofNat 8 wMax ++ BitVec.ofNat 8 cw ++ BitVec.ofNat 8 nw

/-- FREE VALUE (DESIGN CHOICE, assumption 2): what entry `i` of the charset table holds after power-up while no
`CSET` has written it. 20_memory.md R61: "a model must not assume 0 or any value for it". Nothing can be proved of
it, so a claim holds whatever the table powered up with; it is stable until written (93 U7). -/
opaque powerUpCode : Nat → CharCode

end Sys2Proof.Config
end

