-- ==== Sys2Proof/Machine/State.lean ====
section
/-! DEFINITION. The state of the Base-X Engine: every register of 10_state.md, the charset table and the output queue
of 20_memory.md, and the host's moves still to come. Plain data throughout. -/

namespace Sys2Proof.Machine

/-- The three defined bits of STATUS (10_state.md R31). The other 61 bits read as 0 and no command writes them, so
there is nothing else to keep; `statusWord` is the register as `RDREG 2` reads it. -/
structure Status where
  /-- Bit 0: fault state. -/
  f : Bool
  /-- Bit 1: a numeral-to-integer conversion is open. -/
  nact : Bool
  /-- Bit 2: the weight of the next symbol no longer fits 64 bits (R25). -/
  povf : Bool
deriving DecidableEq, Repr

/-- The tags of output items (20_memory.md R66); the codes 5 to 7 are never pushed and have no constructor. -/
inductive Tag where
  /-- A symbol value of the Bit Packer. -/
  | val
  /-- A character code. -/
  | chr
  /-- An integer. -/
  | num
  /-- A register. -/
  | reg
  /-- "returns none" of the flush. -/
  | none
deriving DecidableEq, Repr

/-- An item of the output queue (R66): 1 + 3 + 64 = 68 bits, laid out by `Item.word`. -/
structure Item where
  /-- Bit 67: the final item of its command. -/
  last : Bool
  /-- Bits 66:64. -/
  tag : Tag
  /-- Bits 63:0. -/
  data : Data
deriving DecidableEq, Repr

/-- One entry of the charset table that has been written: its index and its code. The unit of every access is one
whole 21-bit entry (20_memory.md R63; assumption 1). -/
abbrev Entry := Nat × CharCode

/-- The written entries of the charset table CT, indexes strictly rising (20_memory.md R60, R61). An unlisted index
has not been written since power-up; it holds no value that a rule gives (assumption 2). -/
abbrev Memory := List Entry

/-- An event of the host (10_state.md R45). -/
inductive HostMove where
  /-- Present a command word, which the engine then executes. -/
  | issue (c : CmdWord)
  /-- Remove the head item of OQ. -/
  | pop
  /-- Assert and release `rst`. -/
  | reset
deriving DecidableEq, Repr

/-- The machine. Every field but the last is named by the spec; 10_state.md R20: "Nothing else is state". -/
structure State where
  /-- The pending-bits buffer, 31 bits (R22). -/
  acc : BitVec 31
  /-- The pending-bit count, 5 bits (R23). -/
  cnt : BitVec 5
  /-- The running sum of a numeral, 64 bits (R24). -/
  nacc : Data
  /-- The weight of the next symbol, 64 bits (R25). -/
  npow : Data
  /-- The output width, 0 for "no packer constructed", 6 bits (R27). -/
  w : BitVec 6
  /-- The input width of the latest `BPUT`, 6 bits (R28). -/
  iw : BitVec 6
  /-- The charset length BASE, 9 bits (R29). -/
  base : BitVec 9
  /-- Bits per symbol, 4 bits (R30). -/
  bps : BitVec 4
  /-- STATUS (R31). -/
  status : Status
  /-- CAUSE, 16 bits (R32). -/
  cause : BitVec 16
  /-- TVAL, 64 bits (R33). -/
  tval : Data
  /-- EPC, 32 bits (R34). -/
  epc : BitVec 32
  /-- CMDCNT, 32 bits (R35). -/
  cmdcnt : BitVec 32
  /-- The charset table (R39). -/
  ct : Memory
  /-- The output queue, head first (R40). -/
  oq : List Item
  /-- THE MODEL'S OWN FIELD (DESIGN CHOICE, assumption 3): the host's moves still to come, the next one first. They
  are parameters of a run (R41); a step performs one. -/
  host : List HostMove
deriving DecidableEq, Repr

/-- Why the model stops. A BXE exception is no stop: it is a next state, in fault state (60_exceptions.md R220). -/
inductive Fault where
  /-- Raised by a step whose host move is `pop` while OQ is empty, a move that 10_state.md R45 calls possible "only
  when OQ is not empty". Safe: the run is no run of the hardware (assumption 5). -/
  | popOfEmptyQueue
deriving DecidableEq, Repr

/-- Why the model gives no meaning. -/
inductive Refusal where
  /-- Raised by an arm of `exec` whose instruction has no meaning yet; no arm is left so. Safe. -/
  | notModelled (mnemonic : String)
deriving DecidableEq, Repr

/-- The outcome of one step or one command. -/
abbrev Result := Host.Outcome State Fault Refusal

/-- The machine right after power-up and reset (70_reset_and_hazards.md R250, 10_state.md R47). Reset does not write
the charset table (R251); here nothing has written it yet. The host has no move pending. -/
def State.reset : State where
  acc := 0
  cnt := 0
  nacc := 0
  npow := 1
  w := 0
  iw := 0
  base := 0
  bps := 0
  status := { f := false, nact := false, povf := false }
  cause := 0
  tval := 0
  epc := 0
  cmdcnt := 0
  ct := []
  oq := []
  host := []

end Sys2Proof.Machine
end

