-- ==== Sys2Proof/Machine/Flags.lean ====
section
/-! DEFINITION. STATUS (10_state.md R31): every way a flag is set or cleared, and the register as it reads. F, NACT and
POVF are the only flags; no command sets a carry, zero, sign or overflow condition code. -/

namespace Sys2Proof.Machine

/-- STATUS as `RDREG 2` reads it: F in bit 0, NACT in bit 1, POVF in bit 2, zeros above (R31). -/
def statusWord (st : Status) : Data :=
  0#61 ++ BitVec.ofBool st.povf ++ BitVec.ofBool st.nact ++ BitVec.ofBool st.f

/-- Fault entry sets F and clears NACT (60_exceptions.md R220). -/
def Status.onFault (st : Status) : Status := { st with f := true, nact := false }

/-- `CLRF` clears F (44_system.md R171). -/
def Status.clearFault (st : Status) : Status := { st with f := false }

/-- `NBEGIN` sets NACT and clears POVF (41_numeral.md R132). -/
def Status.openNumeral (st : Status) : Status := { st with nact := true, povf := false }

/-- `NEND` clears NACT; POVF is unchanged (R134). -/
def Status.closeNumeral (st : Status) : Status := { st with nact := false }

/-- `NSYM` sets POVF when the exact new weight does not fit NW bits; once 1 it stays 1 (R133, 10_state.md R25). -/
def Status.noteWeight (st : Status) (p : Nat) : Status := { st with povf := st.povf || decide (2 ^ Config.nw ≤ p) }

end Sys2Proof.Machine
end

