-- ==== Sys2Proof/Machine/Operands.lean ====
section
/-! DEFINITION. The operand forms: bit helpers of 00_scope.md R9 and the legal ranges of 30_encoding.md R86. -/

namespace Sys2Proof.Machine

/-- `mask(n)` is 2^n − 1 (R9). -/
def mask (n : Nat) : Nat := 2 ^ n - 1

/-- `zext_64` (R9). -/
def zext64 {n : Nat} (x : BitVec n) : Data := x.setWidth 64

/-- An output width is legal for 1 .. WMAX (R86, 42_bitpacker.md R150). -/
def legalOutputWidth (w : BitVec 6) : Bool := 1 ≤ w.toNat && w.toNat ≤ Config.wMax

/-- An input width is legal for 1 .. IWMAX (R86, 42_bitpacker.md R151). -/
def legalInputWidth (iw : BitVec 6) : Bool := 1 ≤ iw.toNat && iw.toNat ≤ Config.iwMax

/-- A charset length is legal for 0 .. CTSIZE (R86, 40_charset.md R110). -/
def legalLength (n : BitVec 9) : Bool := n.toNat ≤ Config.ctSize

/-- The value a `BPUT` consumes: the low `iw` bits of `v`; the bits above have no effect (R86, R151). -/
def maskedInput (v : BitVec 32) (iw : BitVec 6) : Nat := v.toNat &&& mask iw.toNat

end Sys2Proof.Machine
end

