-- ==== Sys2Proof/Machine/Ops.lean ====
section
/-! DEFINITION. The named operations over the charset table, the registers and the output queue, taking an exception
and returning from one, and completing a command. -/

namespace Sys2Proof.Machine

/-! ### The charset table (20_memory.md R60 to R64) -/

/-- The written value of entry `i`, `none` when no `CSET` has written it since power-up (R61). -/
def readEntry? : Memory → Nat → Option CharCode
  | [], _ => none
  | (j, v) :: m, i => if j = i then some v else readEntry? m i

/-- `MemRead(i, 1)`: the value of `CT[i]` (00_scope.md R11). An entry never written gives the free value
`Config.powerUpCode i` (R61, R251; assumption 2). -/
def readEntry (m : Memory) (i : Nat) : CharCode := (readEntry? m i).getD (Config.powerUpCode i)

/-- `MemWrite(i, 1, v)`: `CT[i] <- v` (R11), keeping the indexes strictly rising. -/
def writeEntry (i : Nat) (v : CharCode) : Memory → Memory
  | [] => [(i, v)]
  | (j, u) :: m =>
    if i < j then (i, v) :: (j, u) :: m
    else if i = j then (i, v) :: m
    else (j, u) :: writeEntry i v m

/-- The canonical form of the table: indexes strictly rising, all below CTSIZE. -/
def Memory.wf (m : Memory) : Bool :=
  decide (m.Pairwise fun a b => a.1 < b.1) && m.all fun e => decide (e.1 < Config.ctSize)

/-- `lookup(ch)`: the least `i < BASE` with `CT[i] = ch`, or `none` (R64). -/
def lookup (m : Memory) (base : Nat) (ch : CharCode) : Option Nat :=
  (List.range base).find? fun i => readEntry m i == ch

/-! ### Register updates -/

/-- Write the Bit Packer's registers W, IW, ACC, CNT (10_state.md R22, R23, R27, R28). -/
def State.setPacker (s : State) (w iw : BitVec 6) (acc : BitVec 31) (cnt : BitVec 5) : State :=
  { s with w, iw, acc, cnt }

/-- Write BASE and BPS (R29, R30). -/
def State.setCharset (s : State) (base : BitVec 9) (bps : BitVec 4) : State := { s with base, bps }

/-- Write the charset table. -/
def State.setTable (s : State) (ct : Memory) : State := { s with ct }

/-- Write NACC and NPOW (R24, R25). -/
def State.setNumeral (s : State) (nacc npow : Data) : State := { s with nacc, npow }

/-- Write STATUS (R31). -/
def State.setStatus (s : State) (status : Status) : State := { s with status }

/-- Write the output queue. -/
def State.setQueue (s : State) (oq : List Item) : State := { s with oq }

/-- Write the host's pending moves (assumption 3). -/
def State.setHost (s : State) (host : List HostMove) : State := { s with host }

/-! ### The registers as `RDREG` reads them -/

/-- `reg(n)` of 10_state.md R37, zero-extended to 64 bits; the numbers 14 and up are undefined. -/
def readReg (s : State) : Nat → Option Data
  | 0 => some Config.idValue
  | 1 => some Config.capValue
  | 2 => some (statusWord s.status)
  | 3 => some (zext64 s.cause)
  | 4 => some s.tval
  | 5 => some (zext64 s.epc)
  | 6 => some (zext64 s.cmdcnt)
  | 7 => some (zext64 (s.iw ++ 0#2 ++ s.w))
  | 8 => some (zext64 s.cnt)
  | 9 => some (zext64 s.acc)
  | 10 => some (zext64 s.base)
  | 11 => some (zext64 s.bps)
  | 12 => some s.nacc
  | 13 => some s.npow
  | _ => none

/-! ### The output queue (20_memory.md R65 to R67) -/

/-- What a command pushes, in order: a tag and 64 bits of data; `last` is not the command's to say (R66). -/
abbrev Push := Tag × Data

/-- The items of one command: `last` is 1 on the final one and 0 on the earlier ones (R66). -/
def markLast : List Push → List Item
  | [] => []
  | [p] => [{ last := true, tag := p.1, data := p.2 }]
  | p :: q :: ps => { last := false, tag := p.1, data := p.2 } :: markLast (q :: ps)

/-- The code of a tag (R66). -/
def Tag.code : Tag → BitVec 3
  | .val => 0
  | .chr => 1
  | .num => 2
  | .reg => 3
  | .none => 4

/-- An item as the 68 bits of the output port: last, tag, data (R66). -/
def Item.word (i : Item) : BitVec 68 := BitVec.ofBool i.last ++ i.tag.code ++ i.data

/-! ### The ports (10_state.md R44) -/

/-- `cmd_ready`: holds whenever no command is executing, in fault state too; a state stands between commands. -/
def cmdReady (_ : State) : Bool := true

/-- `out_valid`: holds exactly when OQ is not empty. -/
def outValid (s : State) : Bool := !s.oq.isEmpty

/-- `out[67:0]`: the head item of OQ, when there is one. -/
def outPort (s : State) : Option (BitVec 68) := s.oq.head?.map Item.word

/-- `fault` equals STATUS.F at all times (60_exceptions.md R221). -/
def faultOut (s : State) : Bool := s.status.f

/-! ### Exceptions (60_exceptions.md) -/

/-- The seven exceptions of R210, each with the information R212 says TVAL records. -/
inductive Exc where
  /-- BASE < 2, with BASE. -/
  | invalidCharset (base : BitVec 9)
  /-- BASE is not a power of two, with the nearest lengths below and above. -/
  | nonPowerOfTwoCharset (floor ceiling : BitVec 32)
  /-- The character is not in the charset. -/
  | invalidSymbol (ch : CharCode)
  /-- The character's digit does not fit 64 bits. -/
  | numeralRange (ch : CharCode)
  /-- The word selects no command, with its argument. -/
  | illegalCommand (arg : Data)
  /-- An operand outside its legal range, zero-extended. -/
  | illegalOperand (field : Data)
  /-- A command in a state that does not admit it. -/
  | sequenceError
deriving DecidableEq, Repr

/-- The exception code (R210). -/
def Exc.code : Exc → BitVec 8
  | .invalidCharset _ => 1
  | .nonPowerOfTwoCharset _ _ => 2
  | .invalidSymbol _ => 3
  | .numeralRange _ => 4
  | .illegalCommand _ => 5
  | .illegalOperand _ => 6
  | .sequenceError => 7

/-- What TVAL records (R212). -/
def Exc.tval : Exc → Data
  | .invalidCharset base => zext64 base
  | .nonPowerOfTwoCharset floor ceiling => ceiling ++ floor
  | .invalidSymbol ch => zext64 ch
  | .numeralRange ch => zext64 ch
  | .illegalCommand arg => arg
  | .illegalOperand field => field
  | .sequenceError => 0

/-- TAKING AN EXCEPTION (R220): fault entry for a command whose opcode byte is `op`. CAUSE gets the opcode above the
code, TVAL the information, EPC the command counter, which does not advance; F is set, NACT cleared, OQ emptied.
Nothing else changes, and control goes nowhere. -/
def enterFault (op : BitVec 8) (e : Exc) (s : State) : State :=
  { s with
    cause := op ++ e.code
    tval := e.tval
    epc := s.cmdcnt
    status := s.status.onFault
    oq := [] }

/-- THE RETURN (R223): F is cleared and nothing else changes; nothing is resumed. -/
def leaveFault (s : State) : State := s.setStatus s.status.clearFault

/-! ### The shape of a command (10_state.md R46) -/

/-- The end of a command that completes: its pushes are appended to OQ and CMDCNT advances (R46, R35). -/
def complete (s : State) (ps : List Push) : State :=
  { s with oq := s.oq ++ markLast ps, cmdcnt := s.cmdcnt + 1 }

/-- The command completes with the registers of `s` and the pushes `ps`. -/
def finish (s : State) (ps : List Push) : Result := .next (complete s ps)

/-- The command `i` raises `e`: fault entry instead of any effect of it (R220). -/
def raise (i : Instr) (e : Exc) (s : State) : Result := .next (enterFault (opcodeOf i) e s)

/-- In fault state the command is discarded without any change (R222); otherwise it runs. Every command but a legal
`RDREG` and `CLRF` starts with this check, the first of R218. -/
def unlessFaulted (s : State) (run : Result) : Result := if s.status.f then .next s else run

/-- `rst` (70_reset_and_hazards.md R250): every register as after power-up, OQ empty; the charset table holds what it
held (R251). The host's further moves are no state of the engine. -/
def assertReset (s : State) : State := { State.reset with ct := s.ct, host := s.host }

end Sys2Proof.Machine
end

