-- ==== Sys2Proof/Machine/BitPacker.lean ====
section
/-! DEFINITION. The Bit Packer commands BINIT, BPUT, BFLUSH (42_bitpacker.md). -/

namespace Sys2Proof.Machine

/-- What the loop of `BPUT` leaves: the symbol values pushed, the pending bits and their number. -/
structure Packed where
  vals : List Nat
  buf : Nat
  n : Nat
deriving DecidableEq, Repr

/-- The loop of R151: while `n ≥ w` the top `w` of the `n` pending bits leave as one symbol value, most significant
first (20_memory.md R71). The first argument bounds the number of turns. -/
def packLoop : Nat → Nat → Nat → Nat → Packed
  | 0, _, buf, n => { vals := [], buf, n }
  | k + 1, w, buf, n =>
    if n < w then { vals := [], buf, n }
    else
      let rest := packLoop k w (buf &&& mask (n - w)) (n - w)
      { rest with vals := ((buf >>> (n - w)) &&& mask w) :: rest.vals }

/-- More turns than the loop can take: `n ≤ 31 + 32` bits are pending and each turn takes at least one (R151;
assumption 8). -/
def packTurns : Nat := 63

/-- The buffer of R151: the pending bits followed by the consumed ones, at most 63 bits, local to the command. -/
def appendBits (s : State) (v : BitVec 32) (iw : BitVec 6) : Nat := (s.acc.toNat <<< iw.toNat) ||| maskedInput v iw

/-- The effect of a `BPUT` with legal width on a constructed packer (R151). -/
def packed (s : State) (v : BitVec 32) (iw : BitVec 6) : Packed :=
  packLoop packTurns s.w.toNat (appendBits s v iw) (s.cnt.toNat + iw.toNat)

/-- The final symbol of a flush (R152, conflict C2): the pending bits at the top of W bits, zeros below. -/
def flushValue (s : State) : Nat := (s.acc.toNat <<< (s.w.toNat - s.cnt.toNat)) &&& mask s.w.toNat

/-- `BINIT w` (R150). -/
def execBinit (w : BitVec 6) (s : State) : Result :=
  unlessFaulted s
    (if legalOutputWidth w then finish (s.setPacker w 0 0 0) []
     else raise (.binit w) (.illegalOperand (zext64 w)) s)

/-- `BPUT v, iw` (R151). -/
def execBput (v : BitVec 32) (iw : BitVec 6) (s : State) : Result :=
  unlessFaulted s
    (if s.w = 0 then raise (.bput v iw) .sequenceError s
     else if legalInputWidth iw then
       finish (s.setPacker s.w iw (BitVec.ofNat 31 (packed s v iw).buf) (BitVec.ofNat 5 (packed s v iw).n))
         ((packed s v iw).vals.map fun x => (Tag.val, BitVec.ofNat 64 x))
     else raise (.bput v iw) (.illegalOperand (zext64 iw)) s)

/-- `BFLUSH` (R152). -/
def execBflush (s : State) : Result :=
  unlessFaulted s
    (if s.w = 0 then raise .bflush .sequenceError s
     else if s.cnt = 0 then finish s [(Tag.none, 0)]
     else finish (s.setPacker s.w s.iw 0 0) [(Tag.val, BitVec.ofNat 64 (flushValue s))])

end Sys2Proof.Machine
end

