-- ==== Sys2Proof/Machine/Charset.lean ====
section
/-! DEFINITION. The charset commands CLEN, CSET, CGET, CBITS (40_charset.md). -/

namespace Sys2Proof.Machine

/-- The largest power of two not above BASE (R113, `f`). -/
def floorPower (base : Nat) : Nat := 2 ^ base.log2

/-- `CLEN n` (R110). -/
def execClen (n : BitVec 9) (s : State) : Result :=
  unlessFaulted s
    (if s.status.nact then raise (.clen n) .sequenceError s
     else if legalLength n then finish (s.setCharset n 0) []
     else raise (.clen n) (.illegalOperand (zext64 n)) s)

/-- `CSET idx, ch` (R111). -/
def execCset (idx : BitVec 8) (ch : CharCode) (s : State) : Result :=
  unlessFaulted s
    (if s.status.nact then raise (.cset idx ch) .sequenceError s
     else finish (s.setTable (writeEntry idx.toNat ch s.ct)) [])

/-- `CGET idx` (R112). -/
def execCget (idx : BitVec 8) (s : State) : Result :=
  unlessFaulted s (finish s [(Tag.chr, zext64 (readEntry s.ct idx.toNat))])

/-- `CBITS` (R113). -/
def execCbits (s : State) : Result :=
  unlessFaulted s
    (if s.base.toNat < 2 then raise .cbits (.invalidCharset s.base) s
     else if s.base.toNat = floorPower s.base.toNat then
       finish (s.setCharset s.base (BitVec.ofNat 4 s.base.toNat.log2)) [(Tag.num, BitVec.ofNat 64 s.base.toNat.log2)]
     else
       raise .cbits
         (.nonPowerOfTwoCharset (BitVec.ofNat 32 (floorPower s.base.toNat))
           (BitVec.ofNat 32 (2 * floorPower s.base.toNat))) s)

end Sys2Proof.Machine
end

