-- ==== Sys2Proof/Machine/Numeral.lean ====
section
/-! DEFINITION. The Numeral Converter commands NGEN, NBEGIN, NSYM, NEND (41_numeral.md). All arithmetic is exact, on
unbounded integers, and narrowed once (R130, R136). -/

namespace Sys2Proof.Machine

/-- The loop of R131: divide by the base, prepend the remainder, until the quotient is 0; at least one turn. The first
argument bounds the number of turns, the last is the digit buffer, most significant first. -/
def digitLoop : Nat → Nat → Nat → List Nat → List Nat
  | 0, _, _, ds => ds
  | k + 1, base, v, ds =>
    if v / base = 0 then (v % base) :: ds else digitLoop k base (v / base) ((v % base) :: ds)

/-- The loop takes at most 64 turns (R137; assumption 8). -/
def digitTurns : Nat := 64

/-- The digits of `value` in base `base`, most significant first (R131, 20_memory.md R72). -/
def digits (base value : Nat) : List Nat := digitLoop digitTurns base value []

/-- The new NACC after digit `i`, or `none` where R133 raises NumeralRange: a nonzero digit whose weight has
overflowed, or whose exact sum does not fit 64 bits. A zero digit adds nothing and never fails. -/
def addDigit (s : State) (i : Nat) : Option Data :=
  if i = 0 then some s.nacc
  else if s.status.povf then none
  else if 2 ^ Config.nw ≤ s.nacc.toNat + i * s.npow.toNat then none
  else some (BitVec.ofNat 64 (s.nacc.toNat + i * s.npow.toNat))

/-- The exact weight of the symbol after the next (R133, `p`). -/
def nextWeight (s : State) : Nat := s.npow.toNat * s.base.toNat

/-- `NGEN value` (R131). -/
def execNgen (value : BitVec 64) (s : State) : Result :=
  unlessFaulted s
    (if s.base.toNat < 2 then raise (.ngen value) (.invalidCharset s.base) s
     else finish s ((digits s.base.toNat value.toNat).map fun r => (Tag.chr, zext64 (readEntry s.ct r))))

/-- `NBEGIN` (R132). -/
def execNbegin (s : State) : Result :=
  unlessFaulted s
    (if s.base.toNat < 2 then raise .nbegin (.invalidCharset s.base) s
     else finish ((s.setNumeral 0 1).setStatus s.status.openNumeral) [])

/-- `NSYM ch` (R133). -/
def execNsym (ch : CharCode) (s : State) : Result :=
  unlessFaulted s
    (if s.status.nact then
       match lookup s.ct s.base.toNat ch with
       | none => raise (.nsym ch) (.invalidSymbol ch) s
       | some i =>
         match addDigit s i with
         | none => raise (.nsym ch) (.numeralRange ch) s
         | some nacc =>
           finish ((s.setNumeral nacc (BitVec.ofNat 64 (nextWeight s))).setStatus (s.status.noteWeight (nextWeight s))) []
     else raise (.nsym ch) .sequenceError s)

/-- `NEND` (R134). -/
def execNend (s : State) : Result :=
  unlessFaulted s
    (if s.status.nact then finish (s.setStatus s.status.closeNumeral) [(Tag.num, s.nacc)]
     else raise .nend .sequenceError s)

end Sys2Proof.Machine
end

