-- ==== Sys2Proof/Machine/System.lean ====
section
/-! DEFINITION. The system commands RDREG and CLRF (44_system.md), which run in fault state too (60_exceptions.md
R222), and what a word does that selects no command. -/

namespace Sys2Proof.Machine

/-- `RDREG r` (R170): the value before this command is counted. In fault state a number without a register is
discarded like any other word; outside it raises IllegalOperand. -/
def execRdreg (r : BitVec 8) (s : State) : Result :=
  match readReg s r.toNat with
  | some d => finish s [(Tag.reg, d)]
  | none => unlessFaulted s (raise (.rdreg r) (.illegalOperand (zext64 r)) s)

/-- `CLRF` (R171). -/
def execClrf (s : State) : Result := finish (leaveFault s) []

/-- A word that selects no command raises IllegalCommand; nothing of it is executed (60_exceptions.md R215). In fault
state it is discarded (R222). -/
def execIllegal (c : CmdWord) (s : State) : Result :=
  unlessFaulted s (.next (enterFault (opField c) (.illegalCommand (argField c)) s))

end Sys2Proof.Machine
end

