-- ==== Sys2Proof/Machine/Dispatch.lean ====
section
/-! DEFINITION. The meaning of a command: one arm per constructor. -/

namespace Sys2Proof.Machine

def exec (i : Instr) (s : State) : Host.Outcome State Fault Refusal :=
  match i with
  | .binit w => Sys2Proof.Machine.execBinit w s
  | .bput v iw => Sys2Proof.Machine.execBput v iw s
  | .bflush => Sys2Proof.Machine.execBflush s
  | .clen n => Sys2Proof.Machine.execClen n s
  | .cset idx ch => Sys2Proof.Machine.execCset idx ch s
  | .cget idx => Sys2Proof.Machine.execCget idx s
  | .cbits => Sys2Proof.Machine.execCbits s
  | .ngen value => Sys2Proof.Machine.execNgen value s
  | .nbegin => Sys2Proof.Machine.execNbegin s
  | .nsym ch => Sys2Proof.Machine.execNsym ch s
  | .nend => Sys2Proof.Machine.execNend s
  | .rdreg r => Sys2Proof.Machine.execRdreg r s
  | .clrf => Sys2Proof.Machine.execClrf s

end Sys2Proof.Machine
end

