-- ==== Sys2Proof/Machine/Fetch.lean ====
section
/-! DEFINITION. The host's moves (10_state.md R45) and the acceptance of a command word (R46). There is no instruction
fetch from memory (20_memory.md R75): the next word is the one the host presents. -/

namespace Sys2Proof.Machine

/-- *issue(word)*: the word is decoded and the command executed; a word that selects none raises IllegalCommand
(30_encoding.md R81, R90). -/
def accept (c : CmdWord) (s : State) : Result :=
  match decode c with
  | .ok i => exec i s
  | .error _ => execIllegal c s

/-- *pop*: the head item leaves OQ on the output port (`outPort` of the state before), "possible only when OQ is not
empty" (R45; assumption 5). -/
def popItem (s : State) : Result :=
  match s.oq with
  | [] => .fault .popOfEmptyQueue
  | _ :: rest => .next (s.setQueue rest)

/-- One event of the host. -/
def hostMove (m : HostMove) (s : State) : Result :=
  match m with
  | .issue c => accept c s
  | .pop => popItem s
  | .reset => .next (assertReset s)

/-- The host's next move and the state once it has left the list of pending ones. -/
def takeMove (s : State) : Option (HostMove × State) :=
  match s.host with
  | [] => none
  | m :: rest => some (m, s.setHost rest)

/-- One step: the host's next move happens; with none pending the engine idles (70_reset_and_hazards.md R250,
assumption 4). -/
def advance (s : State) : Result :=
  match takeMove s with
  | none => .next s
  | some (m, s') => hostMove m s'

/-- The state in which the host is about to issue the word of `nbits` bits and number `w` (bits above `nbits` zero),
before any other move it has pending. -/
def presentWord (s : State) (nbits w : Nat) : State :=
  s.setHost (.issue (BitVec.ofNat 72 (w % 2 ^ nbits)) :: s.host)

end Sys2Proof.Machine
end

