-- ==== Sys2Proof/Machine/Assembler.lean ====
section
/-! DEFINITION. The assembler syntax of 30_encoding.md R93: one command per line, the mnemonic in capitals, operands
separated by commas; numbers decimal, `0x` or `0b`; a character operand may be quoted; a register operand may be a
name; `;` starts a comment. Text is a list of characters. Assumption 14. -/

namespace Sys2Proof.Machine

/-- Why a line is no command. -/
inductive AsmError where
  /-- No mnemonic of R88. -/
  | unknownMnemonic
  /-- Too few or too many operands. -/
  | operandCount
  /-- Neither a number, a quoted character nor a register name. -/
  | badOperand
  /-- The number does not fit its field. -/
  | fieldOverflow
deriving DecidableEq, Repr

/-- A blank between the parts of a line. -/
def isBlank (c : Char) : Bool := c == ' ' || c == '\t'

/-- Without blanks at either end. -/
def trimBlanks (cs : List Char) : List Char := ((cs.dropWhile isBlank).reverse.dropWhile isBlank).reverse

/-- The operands of a line: split at commas, up to the comment; a quoted comma or semicolon is a character. `cur` is
the operand being read, backwards. -/
def splitOperands : List Char → List Char → List (List Char)
  | [], cur => [trimBlanks cur.reverse]
  | '\'' :: c :: '\'' :: rest, cur => splitOperands rest ('\'' :: c :: '\'' :: cur)
  | c :: rest, cur =>
    if c = ';' then [trimBlanks cur.reverse]
    else if c = ',' then trimBlanks cur.reverse :: splitOperands rest []
    else splitOperands rest (c :: cur)

/-- The value of a digit in a base up to 16. -/
def digitValue? (base : Nat) (c : Char) : Option Nat :=
  let n := c.toNat
  let v :=
    if 0x30 ≤ n && n ≤ 0x39 then n - 0x30
    else if 0x41 ≤ n && n ≤ 0x46 then n - 0x37
    else if 0x61 ≤ n && n ≤ 0x66 then n - 0x57
    else base
  if v < base then some v else none

/-- The value of a digit string, most significant first. -/
def digitsValue? (base : Nat) : List Char → Nat → Option Nat
  | [], acc => some acc
  | c :: cs, acc => (digitValue? base c).bind fun d => digitsValue? base cs (acc * base + d)

/-- A number: decimal, `0x` hexadecimal or `0b` binary. -/
def number? : List Char → Option Nat
  | [] => none
  | ['0', 'x'] | ['0', 'b'] => none
  | '0' :: 'x' :: ds => digitsValue? 16 ds 0
  | '0' :: 'b' :: ds => digitsValue? 2 ds 0
  | ds => digitsValue? 10 ds 0

/-- The register names of 10_state.md R37, in the order of their numbers. -/
def registerNames : List (List Char) :=
  [['I', 'D'], ['C', 'A', 'P'], ['S', 'T', 'A', 'T', 'U', 'S'], ['C', 'A', 'U', 'S', 'E'], ['T', 'V', 'A', 'L'],
    ['E', 'P', 'C'], ['C', 'M', 'D', 'C', 'N', 'T'], ['B', 'P', 'C', 'F', 'G'], ['B', 'P', 'C', 'N', 'T'],
    ['B', 'P', 'A', 'C', 'C'], ['B', 'A', 'S', 'E'], ['B', 'P', 'S'], ['N', 'A', 'C', 'C'], ['N', 'P', 'O', 'W']]

/-- A number, as a field of `w` bits. -/
def numberField (w : Nat) (v : Option Nat) : Except AsmError (BitVec w) :=
  match v with
  | none => .error .badOperand
  | some n => if n < 2 ^ w then .ok (BitVec.ofNat w n) else .error .fieldOverflow

/-- A numeric operand. -/
def numericOperand (w : Nat) (t : List Char) : Except AsmError (BitVec w) := numberField w (number? t)

/-- A character operand: a quoted character means its code, a number is the code itself. -/
def characterOperand (t : List Char) : Except AsmError CharCode :=
  match t with
  | ['\'', c, '\''] => numberField 21 (some c.toNat)
  | t => numericOperand 21 t

/-- The operand of `RDREG`: a name of R37 or a number. -/
def registerOperand (t : List Char) : Except AsmError (BitVec 8) :=
  match registerNames.idxOf? t with
  | some n => numberField 8 (some n)
  | none => numericOperand 8 t

/-- The mnemonic of a command (R88). -/
def mnemonicOf : Instr → List Char
  | .binit _ => ['B', 'I', 'N', 'I', 'T']
  | .bput _ _ => ['B', 'P', 'U', 'T']
  | .bflush => ['B', 'F', 'L', 'U', 'S', 'H']
  | .clen _ => ['C', 'L', 'E', 'N']
  | .cset _ _ => ['C', 'S', 'E', 'T']
  | .cget _ => ['C', 'G', 'E', 'T']
  | .cbits => ['C', 'B', 'I', 'T', 'S']
  | .ngen _ => ['N', 'G', 'E', 'N']
  | .nbegin => ['N', 'B', 'E', 'G', 'I', 'N']
  | .nsym _ => ['N', 'S', 'Y', 'M']
  | .nend => ['N', 'E', 'N', 'D']
  | .rdreg _ => ['R', 'D', 'R', 'E', 'G']
  | .clrf => ['C', 'L', 'R', 'F']

/-- One command for each mnemonic, with its operands still to be filled in. -/
def templates : List Instr :=
  [.binit 0, .bput 0 0, .bflush, .clen 0, .cset 0 0, .cget 0, .cbits, .ngen 0, .nbegin, .nsym 0, .nend, .rdreg 0, .clrf]

/-- `i`, provided no operand is given. -/
def noOperands (ops : List (List Char)) (i : Instr) : Except AsmError Instr :=
  if ops = [] then .ok i else .error .operandCount

/-- The command of a template with its operands in the order of R88's table. -/
def withOperands (t : Instr) (ops : List (List Char)) : Except AsmError Instr :=
  match t, ops with
  | .binit _, [w] => (numericOperand 6 w).map Instr.binit
  | .bput _ _, [v, iw] => do return .bput (← numericOperand 32 v) (← numericOperand 6 iw)
  | .clen _, [n] => (numericOperand 9 n).map Instr.clen
  | .cset _ _, [idx, ch] => do return .cset (← numericOperand 8 idx) (← characterOperand ch)
  | .cget _, [idx] => (numericOperand 8 idx).map Instr.cget
  | .ngen _, [value] => (numericOperand 64 value).map Instr.ngen
  | .nsym _, [ch] => (characterOperand ch).map Instr.nsym
  | .rdreg _, [r] => (registerOperand r).map Instr.rdreg
  | .bflush, ops => noOperands ops .bflush
  | .cbits, ops => noOperands ops .cbits
  | .nbegin, ops => noOperands ops .nbegin
  | .nend, ops => noOperands ops .nend
  | .clrf, ops => noOperands ops .clrf
  | .binit _, _ | .bput _ _, _ | .clen _, _ | .cset _ _, _ | .cget _, _ | .ngen _, _ | .nsym _, _ | .rdreg _, _ =>
    .error .operandCount

/-- One line of assembler text: `none` for an empty line or a comment. -/
def assembleLine (line : List Char) : Except AsmError (Option Instr) :=
  let body := line.dropWhile isBlank
  let name := body.takeWhile fun c => !(isBlank c || c == ';')
  let ops := match splitOperands (body.drop name.length) [] with
    | [[]] => []
    | ops => ops
  match name, templates.find? (fun t => mnemonicOf t = name) with
  | [], _ => .ok none
  | _ :: _, none => .error .unknownMnemonic
  | _ :: _, some t => (withOperands t ops).map some

/-- A text's lines. `cur` is the line being read, backwards. -/
def splitLines : List Char → List Char → List (List Char)
  | [], cur => [cur.reverse]
  | c :: rest, cur => if c = '\n' then cur.reverse :: splitLines rest [] else splitLines rest (c :: cur)

/-- The command words of assembled lines, in order. -/
def assembleLines : List (List Char) → Except AsmError (List CmdWord)
  | [] => .ok []
  | l :: ls => do
    match ← assembleLine l with
    | none => assembleLines ls
    | some i => return encode i :: (← assembleLines ls)

/-- A whole assembler text as the command words the host issues. -/
def assemble (text : List Char) : Except AsmError (List CmdWord) := assembleLines (splitLines text [])

end Sys2Proof.Machine
end

