-- ==== Sys2Proof/Machine/Procedures.lean ====
section
/-! DEFINITION. The host procedures of 43_codec_procedures.md (the pseudo-instructions of 30_encoding.md R94): the
numeral functions, the BaseX Data Codec with its padding and grouping policy, and the named wrappers. They are the
host's software: the engine sees only the moves they make (`issue`, `pop`). Assumption 13. -/

namespace Sys2Proof.Machine

/-- How a procedure fails; it then returns no result at all (R183). -/
inductive HostFailure where
  /-- `InvalidCharsetError` (code 1). -/
  | invalidCharset (payload : Data)
  /-- `NonPowerOfTwoCharsetError` (code 2) with the two nearest lengths, TVAL[31:0] and TVAL[63:32]. -/
  | nonPowerOfTwoCharset (floor ceiling : BitVec 32)
  /-- `InvalidSymbolError` (code 3). -/
  | invalidSymbol (payload : Data)
  /-- Code 4, the precision ceiling; it has no source name. -/
  | numeralRange (payload : Data)
  /-- Codes 5 to 7, which a procedure within its preconditions never meets. -/
  | commandFault (code : BitVec 8) (payload : Data)
  /-- The host itself refuses the arguments (R180, R181, R186 with 93 U8): no command is issued. -/
  | precondition
  /-- `pop()` would wait for ever, or an item is not what the procedure waits for. -/
  | protocol
deriving DecidableEq, Repr

/-- A host procedure: it drives the engine and ends with a result or a failure. -/
abbrev HostProc := ExceptT HostFailure (StateM State)

/-- One move of the host (10_state.md R45). -/
def makeMove (m : HostMove) : HostProc Unit := do
  match hostMove m (← get) with
  | .next s => set s
  | .fault _ => throw .protocol
  | .refused _ => throw .protocol

/-- `issue(X)`: present command X. -/
def issue (i : Instr) : HostProc Unit := makeMove (.issue (encode i))

/-- `pop()`: remove and return the head item. -/
def pop : HostProc Item := do
  match (← get).oq with
  | [] => throw .protocol
  | item :: _ => do
    makeMove .pop
    return item

/-- `pop()` repeated `k` times. -/
def popTimes : Nat → HostProc (List Item)
  | 0 => return []
  | k + 1 => do
    let item ← pop
    return item :: (← popTimes k)

/-- At most `k` pops, until an item with `last` = 1 has been popped. -/
def popUntilLast : Nat → HostProc (List Item)
  | 0 => throw .protocol
  | k + 1 => do
    let item ← pop
    if item.last then return [item] else return item :: (← popUntilLast k)

/-- `pop_cmd()`: the items up to and with the next one whose `last` bit is 1. -/
def popCmd : HostProc (List Item) := do popUntilLast (← get).oq.length

/-- `[x] := pop_cmd()`. -/
def popSingle : HostProc Item := do
  match ← popCmd with
  | [x] => return x
  | _ => throw .protocol

/-- The source error named by a code, with its payload (R183). -/
def namedFailure (code : BitVec 8) (t : Data) : HostFailure :=
  match code with
  | 1#8 => .invalidCharset t
  | 2#8 => .nonPowerOfTwoCharset (t.extractLsb' 0 32) (t.extractLsb' 32 32)
  | 3#8 => .invalidSymbol t
  | 4#8 => .numeralRange t
  | c => .commandFault c t

/-- `if faulted() then fail` (R183): read CAUSE and TVAL, leave fault state, fail with the error named. -/
def failIfFaulted : HostProc Unit := do
  if faultOut (← get) then
    issue (.rdreg 3)
    let c ← pop
    issue (.rdreg 4)
    let t ← pop
    issue .clrf
    throw (namedFailure (c.data.extractLsb' 0 8) t.data)

/-- The `CSET`s of `LOADCS`, from index `i` on. -/
def loadEntries : Nat → List CharCode → HostProc Unit
  | _, [] => return ()
  | i, ch :: chs => do
    issue (.cset (BitVec.ofNat 8 i) ch)
    loadEntries (i + 1) chs

/-- `LOADCS charset` (R180). -/
def loadCharset (charset : List CharCode) : HostProc Unit := do
  if Config.ctSize < charset.length then throw .precondition
  issue (.clen (BitVec.ofNat 9 charset.length))
  loadEntries 0 charset

/-- `char_of(d)`: symbol value to character (R184). -/
def charOf (d : Data) : HostProc CharCode := do
  issue (.ngen d)
  let c ← popSingle
  return c.data.setWidth 21

/-- `char_of` of each item in turn. -/
def charsOf : List Item → HostProc (List CharCode)
  | [] => return []
  | x :: xs => do
    let c ← charOf x.data
    return c :: (← charsOf xs)

/-- `index_of(ch)`: character to symbol value (R185). -/
def indexOf (ch : CharCode) : HostProc Data := do
  issue .nbegin
  issue (.nsym ch)
  issue .nend
  failIfFaulted
  let x ← popSingle
  return x.data

/-- `FROMBASE10 value, charset` (R181); a value without an `NGEN` encoding is refused by the host. -/
def fromBase10 (value : Nat) (charset : List CharCode) : HostProc (List CharCode) := do
  if 2 ^ Config.nw ≤ value then throw .precondition
  loadCharset charset
  issue (.ngen (BitVec.ofNat 64 value))
  failIfFaulted
  let items ← popCmd
  return items.map fun x => x.data.setWidth 21

/-- The `NSYM`s of `TOBASE10`, in the order given. -/
def takeSymbols : List CharCode → HostProc Unit
  | [] => return ()
  | ch :: chs => do
    issue (.nsym ch)
    failIfFaulted
    takeSymbols chs

/-- `TOBASE10 numeral, charset` (R182): rightmost symbol first. -/
def toBase10 (numeral charset : List CharCode) : HostProc Data := do
  loadCharset charset
  issue .nbegin
  failIfFaulted
  takeSymbols numeral.reverse
  issue .nend
  let x ← popSingle
  return x.data

/-- Step 1 of `encode` and `decode`: the charset is loaded and checked; the result is the bits per symbol (R186). -/
def checkedBits (charset : List CharCode) : HostProc Nat := do
  loadCharset charset
  issue .cbits
  failIfFaulted
  let b ← popSingle
  return b.data.toNat

/-- Step 3 of `encode`; `c` is the host's copy of the pending count. All VAL items of a BPUT are popped before the
first NGEN is issued (R186, conflict C6). -/
def encodeLoop (w : Nat) : List (BitVec 8) → Nat → HostProc (List CharCode)
  | [], _ => return []
  | b :: bs, c => do
    issue (.bput (b.setWidth 32) 8)
    let xs ← popTimes ((c + 8) / w)
    let cs ← charsOf xs
    return cs ++ (← encodeLoop w bs ((c + 8) % w))

/-- How many padding characters step 5 of `encode` appends (R186, R188). -/
def padCount (group len : Nat) : Nat := (group - len % group) % group

/-- Step 5 of `encode`: padding only where both `pad` and `group` are supplied (R188). -/
def padded (pad : Option CharCode) (group : Option Nat) (out : List CharCode) : List CharCode :=
  match pad, group with
  | some p, some g => out ++ List.replicate (padCount g out.length) p
  | _, _ => out

/-- `ENCODE data, charset [, pad, group]` (R186). A group of 0 is refused by the host (93 U8). -/
def encodeBaseX (data : List (BitVec 8)) (charset : List CharCode) (pad : Option CharCode := none)
    (group : Option Nat := none) : HostProc (List CharCode) := do
  if group = some 0 then throw .precondition
  let w ← checkedBits charset
  issue (.binit (BitVec.ofNat 6 w))
  let out ← encodeLoop w data 0
  issue .bflush
  let x ← popSingle
  if x.tag = Tag.val then
    let c ← charOf x.data
    return padded pad group (out ++ [c])
  else
    return padded pad group out

/-- Steps 3 and 4 of `decode`; `c` is the host's copy of the pending count (R187). -/
def decodeLoop (pad : Option CharCode) (w : Nat) : List CharCode → Nat → HostProc (List (BitVec 8))
  | [], _ => return []
  | ch :: chs, c => do
    if pad = some ch then
      return []
    else
      let i ← indexOf ch
      issue (.bput (i.setWidth 32) (BitVec.ofNat 6 w))
      let xs ← popTimes ((c + w) / 8)
      return (xs.map fun x => x.data.setWidth 8) ++ (← decodeLoop pad w chs ((c + w) % 8))

/-- `DECODE text, charset [, pad]` (R187): no BFLUSH; the remainder is dropped. -/
def decodeBaseX (text charset : List CharCode) (pad : Option CharCode := none) : HostProc (List (BitVec 8)) := do
  let w ← checkedBits charset
  issue (.binit 8)
  decodeLoop pad w text 0

/-! ### The named charsets (20_memory.md R62) and wrappers (R189, R190) -/

/-- `n` consecutive codes from `first` on. -/
def codeRange (first n : Nat) : List CharCode := (List.range n).map fun i => BitVec.ofNat 21 (first + i)

/-- `A–Z2–7`. -/
def base32Charset : List CharCode := codeRange 0x41 26 ++ codeRange 0x32 6

/-- `A–Za–z0–9`, the common part of base64 and base64url. -/
def alphanumerics : List CharCode := codeRange 0x41 26 ++ codeRange 0x61 26 ++ codeRange 0x30 10

/-- `A–Za–z0–9+/`. -/
def base64Charset : List CharCode := alphanumerics ++ [0x2B, 0x2F]

/-- `A–Za–z0–9-_`. -/
def base64UrlCharset : List CharCode := alphanumerics ++ [0x2D, 0x5F]

/-- The wrappers' padding character `=`. -/
def padChar : CharCode := 0x3D

/-- `ENCODE` with a wrapper's charset and group; padding is on unless switched off (R189). -/
def encodeNamed (charset : List CharCode) (group : Nat) (data : List (BitVec 8)) (padding : Bool) :
    HostProc (List CharCode) :=
  if padding then encodeBaseX data charset (some padChar) (some group) else encodeBaseX data charset

/-- `ENCODE32 data [, padding]`. -/
def encode32 (data : List (BitVec 8)) (padding : Bool := true) : HostProc (List CharCode) :=
  encodeNamed base32Charset 8 data padding

/-- `ENCODE64 data [, padding]`. -/
def encode64 (data : List (BitVec 8)) (padding : Bool := true) : HostProc (List CharCode) :=
  encodeNamed base64Charset 4 data padding

/-- `ENCODE64URL data [, padding]`. -/
def encode64Url (data : List (BitVec 8)) (padding : Bool := true) : HostProc (List CharCode) :=
  encodeNamed base64UrlCharset 4 data padding

/-- `DECODE32 text`: pad `=` always (R190). -/
def decode32 (text : List CharCode) : HostProc (List (BitVec 8)) := decodeBaseX text base32Charset (some padChar)

/-- `DECODE64 text`. -/
def decode64 (text : List CharCode) : HostProc (List (BitVec 8)) := decodeBaseX text base64Charset (some padChar)

/-- `DECODE64URL text`. -/
def decode64Url (text : List CharCode) : HostProc (List (BitVec 8)) := decodeBaseX text base64UrlCharset (some padChar)

end Sys2Proof.Machine
end

