-- ==== Sys2Proof/Safety.lean ====
section
/-! DEFINITION. What counts as a sound state and a clean run, and the spec's own terms in which the claims are put:
the opcode rows, the state after a fault, the bit stream, the numeral sum. None of these is defined through the
machine's meanings, but for the runs, which are made of `exec`. -/

namespace Sys2Proof.Safety

open Sys2Proof.Machine

/-! ### Sound states -/

/-- An item is one a command can push (20_memory.md R66): a VAL is a symbol value of at most 32 bits, a CHR a 21-bit
code, a NONE carries 0 and ends its command. -/
def itemOk (it : Item) : Prop :=
  match it.tag with
  | .val => it.data.toNat < 2 ^ 32
  | .chr => it.data.toNat < 2 ^ 21
  | .none => it.data = 0 ∧ it.last = true
  | .num => True
  | .reg => True

/-- What holds after reset and after every step: 10_state.md R26 (a), (b), (d), (e), (f), R25's account of the weight,
R28's range of IW, the canonical form of the table, what the output queue may hold, and what fault state implies. -/
structure Sound (s : State) : Prop where
  /-- R26 (a), R28: no packer has been constructed, or its widths are legal and fewer than W bits are pending. -/
  packer : (s.w = 0 ∧ s.cnt = 0 ∧ s.acc = 0 ∧ s.iw = 0) ∨
    (1 ≤ s.w.toNat ∧ s.w.toNat ≤ 32 ∧ s.cnt.toNat < s.w.toNat ∧ s.iw.toNat ≤ 32)
  /-- R26 (b): the bits above the pending ones are 0. -/
  pending : s.acc.toNat < 2 ^ s.cnt.toNat
  /-- R26 (d). -/
  numeral : s.status.nact = true → 2 ≤ s.base.toNat
  /-- R26 (e). -/
  charset : s.base.toNat ≤ 256
  /-- R26 (f). -/
  bits : s.bps ≠ 0 → s.base.toNat = 2 ^ s.bps.toNat
  /-- R25: while the weight fits, NPOW is exactly a power of BASE. -/
  weight : s.status.nact = true → s.status.povf = false → ∃ k < 64, s.npow.toNat = s.base.toNat ^ k
  /-- The table is in its canonical form. -/
  table : Memory.wf s.ct = true
  /-- R66: the items. -/
  items : ∀ it ∈ s.oq, itemOk it
  /-- R66: the newest item ends its command. -/
  ended : ∀ it, s.oq.getLast? = some it → it.last = true
  /-- R220: fault state records a code of R210, and no conversion is open in it. -/
  fault : s.status.f = true →
    s.status.nact = false ∧ 1 ≤ (s.cause.extractLsb' 0 8).toNat ∧ (s.cause.extractLsb' 0 8).toNat ≤ 7

/-- The host may begin a call: no fault, no open conversion, nothing left to pop (70_reset_and_hazards.md R253,
R257). -/
def Ready (s : State) : Prop := s.status.f = false ∧ s.status.nact = false ∧ s.oq = []

/-! ### Entries read before they are written (20_memory.md R61) -/

/-- The entries whose contents a command's outcome depends on, in a state where it runs. -/
def entriesRead (s : State) : Instr → List Nat
  | .cget idx => [idx.toNat]
  | .ngen value => if s.base.toNat < 2 then [] else digits s.base.toNat value.toNat
  | .nsym ch =>
    if s.status.nact then List.range (match lookup s.ct s.base.toNat ch with | some i => i + 1 | none => s.base.toNat)
    else []
  | .binit _ | .bput _ _ | .bflush | .clen _ | .cset _ _ | .cbits | .nbegin | .nend | .rdreg _ | .clrf => []

/-- R61 and R251: the discipline a program should keep, that no command reads an entry that was never written. In the
model such a read gives a free value (assumption 2); this says when none happens. -/
def readsOnlyWritten (i : Instr) (s : State) : Bool :=
  s.status.f || (entriesRead s i).all fun k => (readEntry? s.ct k).isSome

/-! ### Runs -/

/-- The commands in order, each completing; `none` as soon as one faults. -/
def runClean : List Instr → State → Option State
  | [], s => some s
  | i :: is, s =>
    match exec i s with
    | .next t => if t.status.f then none else runClean is t
    | .fault _ => none
    | .refused _ => none

/-- A host procedure run from a state: its result or failure, and the state it leaves. -/
def runProc {α : Type} (p : HostProc α) (s : State) : Except HostFailure α × State := StateT.run (ExceptT.run p) s

/-! ### The spec's own terms -/

/-- One row of 30_encoding.md R89. -/
structure OpcodeRow where
  op : BitVec 8
  matchBits : CmdWord
  maskBits : CmdWord
deriving DecidableEq, Repr

/-- The table of R89. -/
def opcodeRows : List OpcodeRow :=
  [ { op := 0x01, matchBits := 0x010000000000000000, maskBits := 0xFFFFFFFFFFFFFFFFC0 },
    { op := 0x02, matchBits := 0x020000000000000000, maskBits := 0xFFFFFFFFC000000000 },
    { op := 0x03, matchBits := 0x030000000000000000, maskBits := 0xFFFFFFFFFFFFFFFFFF },
    { op := 0x10, matchBits := 0x100000000000000000, maskBits := 0xFFFFFFFFFFFFFFFE00 },
    { op := 0x11, matchBits := 0x110000000000000000, maskBits := 0xFFFFFFFF00FFE00000 },
    { op := 0x12, matchBits := 0x120000000000000000, maskBits := 0xFFFFFFFF00FFFFFFFF },
    { op := 0x13, matchBits := 0x130000000000000000, maskBits := 0xFFFFFFFFFFFFFFFFFF },
    { op := 0x20, matchBits := 0x200000000000000000, maskBits := 0xFF0000000000000000 },
    { op := 0x21, matchBits := 0x210000000000000000, maskBits := 0xFFFFFFFFFFFFFFFFFF },
    { op := 0x22, matchBits := 0x220000000000000000, maskBits := 0xFFFFFFFFFFFFE00000 },
    { op := 0x23, matchBits := 0x230000000000000000, maskBits := 0xFFFFFFFFFFFFFFFFFF },
    { op := 0x30, matchBits := 0x300000000000000000, maskBits := 0xFFFFFFFFFFFFFFFF00 },
    { op := 0x31, matchBits := 0x310000000000000000, maskBits := 0xFFFFFFFFFFFFFFFFFF } ]

/-- The state R220 describes after a command of opcode `op` has raised the exception of code `code` with information
`tval`: these six writes and nothing else. -/
def afterFault (s : State) (op code : BitVec 8) (tval : Data) : State :=
  { s with
    cause := op ++ code
    tval := tval
    epc := s.cmdcnt
    status := { f := true, nact := false, povf := s.status.povf }
    oq := [] }

/-- The 14 registers of 10_state.md R37 in the order of their numbers, zero-extended to 64 bits. -/
def registerFile (s : State) : List Data :=
  [ 0x0000000042584507, 0x0000010020201540,
    BitVec.ofNat 64 (s.status.f.toNat + 2 * s.status.nact.toNat + 4 * s.status.povf.toNat),
    s.cause.setWidth 64, s.tval, s.epc.setWidth 64, s.cmdcnt.setWidth 64,
    BitVec.ofNat 64 (s.w.toNat + 256 * s.iw.toNat),
    s.cnt.setWidth 64, s.acc.setWidth 64, s.base.setWidth 64, s.bps.setWidth 64, s.nacc, s.npow ]

/-- The low `n` bits of `v`, most significant first (20_memory.md R71). -/
def bitsOf (n v : Nat) : List Bool := (List.range n).map fun j => v.testBit (n - 1 - j)

/-- Bits read most significant first as an unsigned integer. -/
def valueOf (bs : List Bool) : Nat := bs.foldl (fun a b => 2 * a + b.toNat) 0

/-- The bits a command feeds into the Bit Packer: those of a `BPUT`'s masked value (42_bitpacker.md R153). -/
def inputBits : Instr → List Bool
  | .bput v iw => bitsOf iw.toNat v.toNat
  | .binit _ | .bflush | .clen _ | .cset _ _ | .cget _ | .cbits | .ngen _ | .nbegin | .nsym _ | .nend | .rdreg _
  | .clrf => []

/-- The bit string of a sequence of commands (R153, `B`). -/
def streamBits (is : List Instr) : List Bool := is.flatMap inputBits

/-- The consecutive whole `w`-bit slices of a bit string, each as an integer (R153 (a)). -/
def sliceValues (w : Nat) (bs : List Bool) : List Nat :=
  (List.range (bs.length / w)).map fun j => valueOf ((bs.drop (j * w)).take w)

/-- The data of the VAL items among some items, in order. -/
def valData (items : List Item) : List Nat := (items.filter fun it => it.tag = Tag.val).map fun it => it.data.toNat

/-- A command that neither constructs nor flushes the Bit Packer. -/
def leavesPackerStream : Instr → Bool
  | .binit _ | .bflush => false
  | .bput _ _ | .clen _ | .cset _ _ | .cget _ | .cbits | .ngen _ | .nbegin | .nsym _ | .nend | .rdreg _ | .clrf => true

/-- The value of digits given least significant first: the sum of digit × base^position (41_numeral.md R139). -/
def digitSum (base : Nat) : List Nat → Nat
  | [] => 0
  | d :: ds => d + base * digitSum base ds

/-- `i` is the least index below BASE that holds `ch` (20_memory.md R64). -/
def LeastIndex (s : State) (ch : CharCode) (i : Nat) : Prop :=
  i < s.base.toNat ∧ readEntry s.ct i = ch ∧ ∀ j < i, readEntry s.ct j ≠ ch

/-- The codes in entries 0 .. BASE − 1 are pairwise different (70_reset_and_hazards.md R254). -/
def DistinctSymbols (s : State) : Prop :=
  ∀ i < s.base.toNat, ∀ j < s.base.toNat, readEntry s.ct i = readEntry s.ct j → i = j

/-- A command that runs in fault state too: a well-formed `RDREG r` with r ≤ 13, or `CLRF` (60_exceptions.md R222). -/
def runsInFaultState : Instr → Bool
  | .rdreg r => r.toNat ≤ 13
  | .clrf => true
  | .binit _ | .bput _ _ | .bflush | .clen _ | .cset _ _ | .cget _ | .cbits | .ngen _ | .nbegin | .nsym _ | .nend => false

end Sys2Proof.Safety
end

