-- ==== Sys2Proof/WellFormed.lean ====
section
/-! DEFINITION. The legal ranges of the operand fields (30_encoding.md R86). An operand outside its range is no
illegal encoding (R91): the command decodes and, when it runs, raises IllegalOperand. So no rule of decoding asks for
well-formedness; it says which terms are commands with legal operands. The meanings make the same checks through
Machine/Operands.lean; `wellFormed_iff_no_illegal_operand` in Laws/Ops.lean says that the two agree. -/

namespace Sys2Proof

/-- Every operand is in the range R86 calls legal: `w`, `iw` 1 .. 32, `n` 0 .. 256, `r` 0 .. 13, all else any. -/
def Instr.wellFormed : Instr → Bool
  | .binit w => 1 ≤ w.toNat && w.toNat ≤ Config.wMax
  | .bput _ iw => 1 ≤ iw.toNat && iw.toNat ≤ Config.iwMax
  | .clen n => n.toNat ≤ Config.ctSize
  | .rdreg r => r.toNat ≤ 13
  | .bflush | .cset _ _ | .cget _ | .cbits | .ngen _ | .nbegin | .nsym _ | .nend | .clrf => true

end Sys2Proof
end

