-- ==== Sys2Proof/Certificates/Slice0/Obligations.lean ====
section
/-! DEFINITION. The statements for the provers, in the order of OBLIGATIONS.json. Each docstring names the rules of spec/
it formalises. "Fault state" is STATUS.F = 1; a BXE exception is a next state. -/

open Sys2Proof Sys2Proof.Machine Sys2Proof.Safety

/-! ### Encoding -/

/-- Decoding an encoded command gives it back, every operand at every value of its field (30_encoding.md R80 to R86). -/
def Obligations.DecodeInvertsEncode : Prop := ∀ i : Instr, decode (encode i) = .ok i

/-- A word that decodes is the encoding of what it decodes to: no word but one selects a command with given operands
(R81, R82). -/
def Obligations.EncodeInvertsDecode : Prop := ∀ (c : CmdWord) (i : Instr), decode c = .ok i → encode i = c

/-- R89: a word selects the command of a row exactly when its masked bits are the row's match. -/
def Obligations.MaskSelectsCommand : Prop :=
  ∀ row ∈ opcodeRows, ∀ c : CmdWord,
    (∃ i, decode c = .ok i ∧ opcodeOf i = row.op) ↔ c &&& row.maskBits = row.matchBits

/-- One word of each family, written out from R83 to R85, decodes to its command; two illegal words (R90) do not. -/
def Obligations.SampleWordsDecode : Prop :=
  decode 0x02000000080000004D = .ok (.bput 0x4D 8) ∧
  decode 0x110000003E0000002B = .ok (.cset 62 0x2B) ∧
  decode 0x220000000000000066 = .ok (.nsym 0x66) ∧
  decode 0x30000000000000000D = .ok (.rdreg 13) ∧
  decode 0x000000000000000000 = .error (.undefinedOpcode 0x00) ∧
  decode 0x100000000000000200 = .error (.reservedBits 0x10)

/-! ### The step, the ports, reset -/

/-- A step whose move is to issue a word that decodes to a command runs that command on the state without the move
(R45, R46). -/
def Obligations.StepRunsDecodedCommand : Prop :=
  ∀ (s : State) (c : CmdWord) (rest : List HostMove) (i : Instr),
    s.host = .issue c :: rest → decode c = .ok i → step s = exec i { s with host := rest }

/-- R90, R215: a step that issues a word no row of R89 selects raises IllegalCommand with TVAL = arg, outside fault
state; nothing of the word is executed. -/
def Obligations.IllegalWordRaises : Prop :=
  ∀ (s : State) (c : CmdWord) (rest : List HostMove),
    s.host = .issue c :: rest → s.status.f = false →
    (∀ row ∈ opcodeRows, c &&& row.maskBits ≠ row.matchBits) →
    step s = .next (afterFault { s with host := rest } (c.extractLsb' 64 8) 5 (c.extractLsb' 0 64))

/-- R45 and the model's choices of assumptions 4 and 5: a pop takes the head item and nothing else; with OQ empty it
stops the model; with no move pending the engine idles. -/
def Obligations.PopTakesHeadItem : Prop :=
  (∀ (s : State) (rest : List HostMove) (item : Item) (q : List Item),
    s.host = .pop :: rest → s.oq = item :: q → step s = .next { s with host := rest, oq := q }) ∧
  (∀ (s : State) (rest : List HostMove), s.host = .pop :: rest → s.oq = [] → step s = .fault .popOfEmptyQueue) ∧
  (∀ s : State, s.host = [] → step s = .next s)

/-- R44, R66, R221: the ports show the state, an item's 68 bits are last, tag, data, and the tags have the codes of R66. -/
def Obligations.PortsShowState : Prop :=
  ∀ s : State,
    cmdReady s = true ∧ faultOut s = s.status.f ∧ (outValid s = true ↔ s.oq ≠ []) ∧
    (∀ (it : Item) (q : List Item), s.oq = it :: q → outPort s = some it.word) ∧ (s.oq = [] → outPort s = none) ∧
    ∀ it : Item, it.word.extractLsb' 0 64 = it.data ∧ it.word.extractLsb' 64 3 = it.tag.code ∧
      it.word.getLsbD 67 = it.last ∧
      Tag.val.code = 0 ∧ Tag.chr.code = 1 ∧ Tag.num.code = 2 ∧ Tag.reg.code = 3 ∧ Tag.none.code = 4

/-- R47: the reset value of every register, OQ empty. Two clauses are in the model's own terms: that no entry of the
charset table has a value, where R47 says only "unspecified" (assumptions 2, 17), and that a step then changes nothing, the
list of host moves being empty at reset and an empty list idling (assumptions 3, 4). -/
def Obligations.ResetValues : Prop :=
  registerFile State.reset = [0x0000000042584507, 0x0000010020201540, 0, 0, 0, 0, 0, 0, 0, 0, 0, 0, 0, 1] ∧
  State.reset.w = 0 ∧ State.reset.iw = 0 ∧ State.reset.acc = 0 ∧ State.reset.cnt = 0 ∧ State.reset.base = 0 ∧
  State.reset.bps = 0 ∧ State.reset.nacc = 0 ∧ State.reset.npow = 1 ∧
  State.reset.status = { f := false, nact := false, povf := false } ∧ State.reset.cause = 0 ∧ State.reset.tval = 0 ∧
  State.reset.epc = 0 ∧ State.reset.cmdcnt = 0 ∧ State.reset.oq = [] ∧
  (∀ i, readEntry? State.reset.ct i = none) ∧ step State.reset = .next State.reset

/-- R250, R251: asserting reset in any state, in the middle of a call and in fault state too, puts every register at its
reset value and keeps every entry of the charset table, written or not. -/
def Obligations.ResetMoveKeepsOnlyTable : Prop :=
  ∀ (s : State) (rest : List HostMove), s.host = .reset :: rest →
    ∃ t, step s = .next t ∧ registerFile t = registerFile State.reset ∧ t.oq = [] ∧ t.host = rest ∧
      (∀ i, readEntry t.ct i = readEntry s.ct i ∧ readEntry? t.ct i = readEntry? s.ct i) ∧
      faultOut t = false ∧ cmdReady t = true ∧ outValid t = false

/-! ### The invariant -/

/-- R252: the reset state satisfies the invariants of R26. -/
def Obligations.ResetSatisfiesInvariant : Prop := Sound State.reset

/-- R26 (a), (b), (d), (e), (f), R25 and R66: every step, of any host move, keeps the invariants, from every state that
has them. -/
def Obligations.StepKeepsInvariant : Prop := ∀ s t : State, Sound s → step s = .next t → Sound t

/-! ### The Bit Packer -/

/-- R150. -/
def Obligations.BinitRule : Prop :=
  (∀ w : BitVec 6, decode (0x01#8 ++ (0#58 ++ w)) = .ok (.binit w)) ∧
  ∀ (w : BitVec 6) (s : State), s.status.f = false →
    (1 ≤ w.toNat → w.toNat ≤ 32 →
      exec (.binit w) s = .next { s with w := w, iw := 0, acc := 0, cnt := 0, cmdcnt := s.cmdcnt + 1 }) ∧
    (w = 0 ∨ 32 < w.toNat → exec (.binit w) s = .next (afterFault s 0x01 6 (w.setWidth 64)))

/-- R151: of the CNT + iw bits then pending, the successive W-bit values leave from the most significant end, the rest
stays pending. (R26's invariant is a premise of the completing case: ACC holds CNT bits and W is legal.) -/
def Obligations.BputRule : Prop :=
  (∀ (v : BitVec 32) (iw : BitVec 6), decode (0x02#8 ++ (0#26 ++ iw ++ v)) = .ok (.bput v iw)) ∧
  ∀ (v : BitVec 32) (iw : BitVec 6) (s : State), s.status.f = false →
    (s.w = 0 → exec (.bput v iw) s = .next (afterFault s 0x02 7 0)) ∧
    (s.w ≠ 0 → iw = 0 ∨ 32 < iw.toNat → exec (.bput v iw) s = .next (afterFault s 0x02 6 (iw.setWidth 64))) ∧
    (Sound s → s.w ≠ 0 → 1 ≤ iw.toNat → iw.toNat ≤ 32 →
      let n := s.cnt.toNat + iw.toNat
      let buf := s.acc.toNat * 2 ^ iw.toNat + v.toNat % 2 ^ iw.toNat
      exec (.bput v iw) s = .next { s with
        iw := iw
        acc := BitVec.ofNat 31 (buf % 2 ^ (n % s.w.toNat))
        cnt := BitVec.ofNat 5 (n % s.w.toNat)
        cmdcnt := s.cmdcnt + 1
        oq := s.oq ++ (List.range (n / s.w.toNat)).map fun j =>
          { last := decide (j + 1 = n / s.w.toNat)
            tag := Tag.val
            data := BitVec.ofNat 64 (buf / 2 ^ (n - (j + 1) * s.w.toNat) % 2 ^ s.w.toNat) } })

/-- R152 (conflict C2): the pending bits at the top of W bits, zero bits below, or NONE; a second flush gives NONE. -/
def Obligations.BflushRule : Prop :=
  decode 0x030000000000000000 = .ok .bflush ∧
  ∀ s : State, s.status.f = false →
    (s.w = 0 → exec .bflush s = .next (afterFault s 0x03 7 0)) ∧
    (s.w ≠ 0 → s.cnt = 0 →
      exec .bflush s = .next { s with cmdcnt := s.cmdcnt + 1, oq := s.oq ++ [{ last := true, tag := .none, data := 0 }] }) ∧
    (Sound s → s.w ≠ 0 → s.cnt ≠ 0 →
      exec .bflush s = .next { s with
        acc := 0
        cnt := 0
        cmdcnt := s.cmdcnt + 1
        oq := s.oq ++ [{ last := true, tag := .val,
                         data := BitVec.ofNat 64 (s.acc.toNat * 2 ^ (s.w.toNat - s.cnt.toNat)) }] }) ∧
    (s.w ≠ 0 → ∀ t u, exec .bflush s = .next t → exec .bflush t = .next u →
      u.oq = t.oq ++ [{ last := true, tag := .none, data := 0 }] ∧ u.w = s.w)

/-- R153, the stream law: after `BINIT w`, the VAL items of a sequence of commands without BINIT, BFLUSH or a fault are
the consecutive `w`-bit slices of the concatenated input bits, the rest is pending, and a following BFLUSH gives NONE or
the rest padded with zeros on the right. -/
def Obligations.BitStreamLaw : Prop :=
  ∀ (w : BitVec 6) (is : List Instr) (s t : State), s.status.f = false →
    (∀ i ∈ is, leavesPackerStream i = true) → runClean (.binit w :: is) s = some t →
    let bs := streamBits is
    let pending := bs.drop (bs.length / w.toNat * w.toNat)
    s.oq <+: t.oq ∧ valData (t.oq.drop s.oq.length) = sliceValues w.toNat bs ∧
    t.cnt.toNat = bs.length % w.toNat ∧ bitsOf t.cnt.toNat t.acc.toNat = pending ∧
    ∃ u, exec .bflush t = .next u ∧ u.oq = t.oq ++
      [if bs.length % w.toNat = 0 then { last := true, tag := .none, data := 0 }
       else { last := true, tag := .val,
              data := BitVec.ofNat 64 (valueOf (pending ++ List.replicate (w.toNat - bs.length % w.toNat) false)) }]

/-- R155 for whole bytes and w ≤ 8: regrouping bytes into `w`-bit symbols, flushed, and the symbols back into bytes
gives exactly the bytes; the bits left pending are fewer than 8 and all zero. -/
def Obligations.PackerIsLossless : Prop :=
  ∀ (w : BitVec 6) (data : List (BitVec 8)) (s s' : State), s.status.f = false → s'.status.f = false →
    1 ≤ w.toNat → w.toNat ≤ 8 →
    ∃ t u, runClean (.binit w :: data.map (fun b => .bput (b.setWidth 32) 8) ++ [.bflush]) s = some t ∧
      runClean (.binit 8 :: (valData (t.oq.drop s.oq.length)).map (fun x => .bput (BitVec.ofNat 32 x) w)) s' = some u ∧
      valData (u.oq.drop s'.oq.length) = data.map (fun b => b.toNat) ∧ u.cnt.toNat < 8 ∧ u.acc = 0

/-! ### The charset -/

/-- R110. -/
def Obligations.ClenRule : Prop :=
  (∀ n : BitVec 9, decode (0x10#8 ++ (0#55 ++ n)) = .ok (.clen n)) ∧
  ∀ (n : BitVec 9) (s : State), s.status.f = false →
    (s.status.nact = true → exec (.clen n) s = .next (afterFault s 0x10 7 0)) ∧
    (s.status.nact = false → n.toNat ≤ 256 →
      exec (.clen n) s = .next { s with base := n, bps := 0, cmdcnt := s.cmdcnt + 1 }) ∧
    (s.status.nact = false → 256 < n.toNat → exec (.clen n) s = .next (afterFault s 0x10 6 (n.setWidth 64)))

/-- R111: the entry at `idx` reads `ch` afterwards, every other entry reads as before, nothing else changes. That an entry
is written or not (`readEntry?`) and that the table keeps its canonical form are clauses about the model's own form of the
table (assumptions 1, 2), of which R111 says nothing. -/
def Obligations.CsetRule : Prop :=
  (∀ (idx : BitVec 8) (ch : CharCode), decode (0x11#8 ++ (0#24 ++ idx ++ 0#11 ++ ch)) = .ok (.cset idx ch)) ∧
  ∀ (idx : BitVec 8) (ch : CharCode) (s : State), s.status.f = false →
    (s.status.nact = true → exec (.cset idx ch) s = .next (afterFault s 0x11 7 0)) ∧
    (s.status.nact = false →
      ∃ m : Memory, exec (.cset idx ch) s = .next { s with ct := m, cmdcnt := s.cmdcnt + 1 } ∧
        readEntry m idx.toNat = ch ∧ readEntry? m idx.toNat = some ch ∧
        (∀ k, k ≠ idx.toNat → readEntry m k = readEntry s.ct k ∧ readEntry? m k = readEntry? s.ct k) ∧
        (Memory.wf s.ct = true → Memory.wf m = true))

/-- R112; "an entry never written gives an unspecified value", which `readEntry` leaves free (assumption 2). -/
def Obligations.CgetRule : Prop :=
  (∀ idx : BitVec 8, decode (0x12#8 ++ (0#24 ++ idx ++ 0#32)) = .ok (.cget idx)) ∧
  ∀ (idx : BitVec 8) (s : State), s.status.f = false →
    exec (.cget idx) s = .next { s with
      cmdcnt := s.cmdcnt + 1
      oq := s.oq ++ [{ last := true, tag := .chr, data := (readEntry s.ct idx.toNat).setWidth 64 }] }

/-- R113: the bits per symbol of a power of two; InvalidCharset below 2; the nearest lengths otherwise. -/
def Obligations.CbitsRule : Prop :=
  decode 0x130000000000000000 = .ok .cbits ∧
  ∀ s : State, s.status.f = false →
    (s.base.toNat < 2 → exec .cbits s = .next (afterFault s 0x13 1 (s.base.setWidth 64))) ∧
    (∀ k, 1 ≤ k → s.base.toNat = 2 ^ k →
      exec .cbits s = .next { s with
        bps := BitVec.ofNat 4 k
        cmdcnt := s.cmdcnt + 1
        oq := s.oq ++ [{ last := true, tag := .num, data := BitVec.ofNat 64 k }] }) ∧
    (∀ k, 1 ≤ k → 2 ^ k < s.base.toNat → s.base.toNat < 2 ^ (k + 1) →
      exec .cbits s =
        .next (afterFault s 0x13 2 (BitVec.ofNat 32 (2 ^ (k + 1)) ++ BitVec.ofNat 32 (2 ^ k))))

/-- The table as data (assumption 1): two tables in canonical form that read the same everywhere are the same. -/
def Obligations.EqualTablesReadEqual : Prop :=
  ∀ m m' : Memory, Memory.wf m = true → Memory.wf m' = true → (∀ i, readEntry? m i = readEntry? m' i) → m = m'

/-- R61: "CT is not written by reset and by no command but CSET": no other step changes an entry. -/
def Obligations.OnlyCsetWritesTable : Prop :=
  ∀ s t : State, step s = .next t →
    (∀ c rest, s.host = .issue c :: rest → c.extractLsb' 64 8 ≠ 0x11#8) →
    ∀ i, readEntry t.ct i = readEntry s.ct i ∧ readEntry? t.ct i = readEntry? s.ct i

/-- R61, R251 and 93 U7 (`any value`): a command that reads only entries some CSET has written does the same whatever the
other entries hold. -/
def Obligations.WrittenEntriesDecideOutcome : Prop :=
  ∀ (i : Instr) (s t : State) (m : Memory), readsOnlyWritten i s = true → (∀ idx ch, i ≠ .cset idx ch) →
    (∀ k ch, readEntry? s.ct k = some ch → readEntry? m k = some ch) →
    exec i s = .next t → exec i { s with ct := m } = .next { t with ct := m }

/-- R62: entries at BASE and above are kept but ignored by NGEN and NSYM. -/
def Obligations.EntriesAboveBaseIgnored : Prop :=
  ∀ (s t : State) (m : Memory) (i : Instr),
    (∃ value, i = .ngen value) ∨ (∃ ch, i = .nsym ch) →
    (∀ k < s.base.toNat, readEntry s.ct k = readEntry m k) →
    exec i s = .next t → exec i { s with ct := m } = .next { t with ct := m }

/-! ### The Numeral Converter -/

/-- R131: the base-BASE digits of the value, most significant first, as characters; at least one. -/
def Obligations.NgenRule : Prop :=
  (∀ value : BitVec 64, decode (0x20#8 ++ value) = .ok (.ngen value)) ∧
  ∀ (value : BitVec 64) (s : State), s.status.f = false →
    (s.base.toNat < 2 → exec (.ngen value) s = .next (afterFault s 0x20 1 (s.base.setWidth 64))) ∧
    (2 ≤ s.base.toNat →
      ∃ d, 1 ≤ d ∧ d ≤ 64 ∧ value.toNat < s.base.toNat ^ d ∧ (d = 1 ∨ s.base.toNat ^ (d - 1) ≤ value.toNat) ∧
        exec (.ngen value) s = .next { s with
          cmdcnt := s.cmdcnt + 1
          oq := s.oq ++ (List.range d).map fun j =>
            { last := decide (j + 1 = d)
              tag := Tag.chr
              data := (readEntry s.ct (value.toNat / s.base.toNat ^ (d - 1 - j) % s.base.toNat)).setWidth 64 } })

/-- R137: how many characters NGEN pushes, and that the first is not the zero symbol unless the value is 0 (for a table
of different codes, R254). -/
def Obligations.NumeralLength : Prop :=
  ∀ (value : BitVec 64) (s t : State), s.status.f = false → 2 ≤ s.base.toNat → exec (.ngen value) s = .next t →
    let d := t.oq.length - s.oq.length
    1 ≤ d ∧ d ≤ 64 ∧ (value = 0 → d = 1) ∧
    (value ≠ 0 → value.toNat < s.base.toNat ^ d ∧ ∀ e, value.toNat < s.base.toNat ^ e → d ≤ e) ∧
    (s.base = 2 → 2 ^ 63 ≤ value.toNat → d = 64) ∧
    (value ≠ 0 → DistinctSymbols s →
      ∀ it, (t.oq.drop s.oq.length).head? = some it → it.data ≠ (readEntry s.ct 0).setWidth 64)

/-- R132. -/
def Obligations.NbeginRule : Prop :=
  decode 0x210000000000000000 = .ok .nbegin ∧
  ∀ s : State, s.status.f = false →
    (s.base.toNat < 2 → exec .nbegin s = .next (afterFault s 0x21 1 (s.base.setWidth 64))) ∧
    (2 ≤ s.base.toNat →
      exec .nbegin s = .next { s with
        nacc := 0
        npow := 1
        status := { f := false, nact := true, povf := false }
        cmdcnt := s.cmdcnt + 1 })

/-- R133: in the order of the checks; a zero digit never faults; the sum is exact. -/
def Obligations.NsymRule : Prop :=
  (∀ ch : CharCode, decode (0x22#8 ++ (0#43 ++ ch)) = .ok (.nsym ch)) ∧
  ∀ (ch : CharCode) (s : State), s.status.f = false →
    (s.status.nact = false → exec (.nsym ch) s = .next (afterFault s 0x22 7 0)) ∧
    (s.status.nact = true → (∀ j < s.base.toNat, readEntry s.ct j ≠ ch) →
      exec (.nsym ch) s = .next (afterFault s 0x22 3 (ch.setWidth 64))) ∧
    (∀ i, s.status.nact = true → LeastIndex s ch i → i ≠ 0 →
      s.status.povf = true ∨ 2 ^ 64 ≤ s.nacc.toNat + i * s.npow.toNat →
      exec (.nsym ch) s = .next (afterFault s 0x22 4 (ch.setWidth 64))) ∧
    (∀ i, s.status.nact = true → LeastIndex s ch i →
      i = 0 ∨ (s.status.povf = false ∧ s.nacc.toNat + i * s.npow.toNat < 2 ^ 64) →
      exec (.nsym ch) s = .next { s with
        nacc := BitVec.ofNat 64 (s.nacc.toNat + i * s.npow.toNat)
        npow := BitVec.ofNat 64 (s.npow.toNat * s.base.toNat)
        status := { s.status with povf := s.status.povf || decide (2 ^ 64 ≤ s.npow.toNat * s.base.toNat) }
        cmdcnt := s.cmdcnt + 1 })

/-- R134. -/
def Obligations.NendRule : Prop :=
  decode 0x230000000000000000 = .ok .nend ∧
  ∀ s : State, s.status.f = false →
    (s.status.nact = false → exec .nend s = .next (afterFault s 0x23 7 0)) ∧
    (s.status.nact = true →
      exec .nend s = .next { s with
        status := { s.status with nact := false }
        cmdcnt := s.cmdcnt + 1
        oq := s.oq ++ [{ last := true, tag := .num, data := s.nacc }] })

/-- R138, the round trip: the characters of `NGEN n` taken in reverse order between NBEGIN and NEND give NUM(n), and
nothing faults, for every n and every table of pairwise different codes. -/
def Obligations.NumeralRoundTrip : Prop :=
  ∀ (n : BitVec 64) (s : State), s.status.f = false → 2 ≤ s.base.toNat → s.base.toNat ≤ 256 → DistinctSymbols s →
    ∃ t u, exec (.ngen n) s = .next t ∧
      runClean (.nbegin :: ((t.oq.drop s.oq.length).reverse.map fun it => .nsym (it.data.setWidth 21)) ++ [.nend]) t =
        some u ∧
      u.oq = t.oq ++ [{ last := true, tag := .num, data := n }]

/-- R139, the value delivered: the exact sum of digit × base^position, the same as the left-to-right recurrence gives;
or, exactly when the sum is 2^64 or more, NumeralRange at the first symbol whose partial sum reaches 2^64. -/
def Obligations.NumeralValueDelivered : Prop :=
  ∀ (s : State) (cs : List CharCode) (ds : List Nat), s.status.f = false → 2 ≤ s.base.toNat →
    List.Forall₂ (LeastIndex s) cs ds →
    let base := s.base.toNat
    (digitSum base ds < 2 ^ 64 →
      ∃ t, runClean (.nbegin :: cs.map .nsym ++ [.nend]) s = some t ∧
        t.oq = s.oq ++ [{ last := true, tag := .num, data := BitVec.ofNat 64 (digitSum base ds) }] ∧
        digitSum base ds = ds.reverse.foldl (fun a d => a * base + d) 0) ∧
    (2 ^ 64 ≤ digitSum base ds →
      ∃ k ch t u, cs[k]? = some ch ∧ digitSum base (ds.take k) < 2 ^ 64 ∧ 2 ^ 64 ≤ digitSum base (ds.take (k + 1)) ∧
        runClean (.nbegin :: (cs.take k).map .nsym) s = some t ∧ exec (.nsym ch) t = .next u ∧
        u = afterFault t 0x22 4 (ch.setWidth 64))

/-! ### The system commands and the fault state -/

/-- R170, R37: the register as it was before the command, in every state; numbers above 13 raise IllegalOperand. -/
def Obligations.RdregRule : Prop :=
  (∀ r : BitVec 8, decode (0x30#8 ++ (0#56 ++ r)) = .ok (.rdreg r)) ∧
  ∀ (r : BitVec 8) (s : State),
    (∀ d, (registerFile s)[r.toNat]? = some d →
      exec (.rdreg r) s = .next { s with
        cmdcnt := s.cmdcnt + 1
        oq := s.oq ++ [{ last := true, tag := .reg, data := d }] }) ∧
    (13 < r.toNat → s.status.f = false → exec (.rdreg r) s = .next (afterFault s 0x30 6 (r.setWidth 64))) ∧
    (registerFile s).length = 14

/-- R171, R223: CLRF clears F and nothing else, in every state. -/
def Obligations.ClrfRule : Prop :=
  decode 0x310000000000000000 = .ok .clrf ∧
  ∀ s : State, exec .clrf s = .next { s with status := { s.status with f := false }, cmdcnt := s.cmdcnt + 1 }

/-- R222: in fault state a legal RDREG and CLRF execute; every other word, legal or not, changes nothing at all. -/
def Obligations.FaultStateDiscards : Prop :=
  ∀ (c : CmdWord) (s : State), s.status.f = true →
    (∀ r d, decode c = .ok (.rdreg r) → (registerFile s)[r.toNat]? = some d →
      accept c s = .next { s with
        cmdcnt := s.cmdcnt + 1
        oq := s.oq ++ [{ last := true, tag := .reg, data := d }] }) ∧
    (decode c = .ok .clrf →
      accept c s = .next { s with status := { s.status with f := false }, cmdcnt := s.cmdcnt + 1 }) ∧
    ((∀ i, decode c = .ok i → runsInFaultState i = false) → accept c s = .next s)

/-- R46, R219, R220: every word completes, faults or is discarded. Completing advances CMDCNT, keeps the fault record and
only appends to OQ; faulting is fault entry and nothing else; discarding changes nothing and happens in fault state. -/
def Obligations.WordCompletesFaultsOrIsDiscarded : Prop :=
  ∀ (c : CmdWord) (s : State), ∃ t, accept c s = .next t ∧
    ((t.cmdcnt = s.cmdcnt + 1 ∧ s.oq <+: t.oq ∧ t.cause = s.cause ∧ t.tval = s.tval ∧ t.epc = s.epc ∧
        (t.status.f = true → s.status.f = true)) ∨
     (s.status.f = false ∧ ∃ code tval, 1 ≤ code.toNat ∧ code.toNat ≤ 7 ∧
        t = afterFault s (c.extractLsb' 64 8) code tval) ∨
     (s.status.f = true ∧ t = s))

/-- R210: which commands raise which exception, and when; there is no other cause. -/
def Obligations.FaultCauses : Prop :=
  ∀ (c : CmdWord) (s t : State), s.status.f = false → accept c s = .next t → t.status.f = true →
    let code := t.cause.extractLsb' 0 8
    (code = 5 ∧ ∃ e, decode c = .error e) ∨
    ∃ i, decode c = .ok i ∧
      ((code = 1 ∧ s.base.toNat < 2 ∧ (i = .nbegin ∨ i = .cbits ∨ ∃ v, i = .ngen v)) ∨
       (code = 2 ∧ i = .cbits ∧ 2 ≤ s.base.toNat ∧ ∀ k, s.base.toNat ≠ 2 ^ k) ∨
       (code = 3 ∧ ∃ ch, i = .nsym ch ∧ ∀ j < s.base.toNat, readEntry s.ct j ≠ ch) ∨
       (code = 4 ∧ ∃ ch d, i = .nsym ch ∧ LeastIndex s ch d ∧ d ≠ 0 ∧
          (s.status.povf = true ∨ 2 ^ 64 ≤ s.nacc.toNat + d * s.npow.toNat)) ∨
       (code = 6 ∧ i.wellFormed = false) ∨
       (code = 7 ∧
          ((s.w = 0 ∧ (i = .bflush ∨ ∃ v iw, i = .bput v iw)) ∨
           (s.status.nact = false ∧ (i = .nend ∨ ∃ ch, i = .nsym ch)) ∨
           (s.status.nact = true ∧ ((∃ n, i = .clen n) ∨ ∃ idx ch, i = .cset idx ch)))))

/-- R216: the illegal operands and what TVAL records of them (R212), where the state admits the command (R218). -/
def Obligations.IllegalOperandRaises : Prop :=
  ∀ (i : Instr) (s : State), s.status.f = false → i.wellFormed = false →
    (∀ v iw, i = .bput v iw → s.w ≠ 0) → (∀ n, i = .clen n → s.status.nact = false) →
    ∃ field : Data, exec i s = .next (afterFault s (opcodeOf i) 6 field) ∧
      ((∃ w, i = .binit w ∧ field.toNat = w.toNat) ∨ (∃ v iw, i = .bput v iw ∧ field.toNat = iw.toNat) ∨
       (∃ n, i = .clen n ∧ field.toNat = n.toNat) ∨ (∃ r, i = .rdreg r ∧ field.toNat = r.toNat))

/-- R217 with R218: SequenceError, whatever the operands are. -/
def Obligations.SequenceErrorRaises : Prop :=
  ∀ (i : Instr) (s : State), s.status.f = false →
    (s.w = 0 ∧ (i = .bflush ∨ ∃ v iw, i = .bput v iw)) ∨
    (s.status.nact = false ∧ (i = .nend ∨ ∃ ch, i = .nsym ch)) ∨
    (s.status.nact = true ∧ ((∃ n, i = .clen n) ∨ ∃ idx ch, i = .cset idx ch)) →
    exec i s = .next (afterFault s (opcodeOf i) 7 0)

/-! ### Frames and whole-machine rules -/

/-- R37's column "written by", and STATUS of R31: the frame of every command. A register that differs afterwards names the
command that wrote it; the host's moves are never touched. -/
def Obligations.RegisterWriters : Prop :=
  ∀ (i : Instr) (s t : State), exec i s = .next t →
    (t.w ≠ s.w → ∃ w, i = .binit w) ∧
    (t.iw ≠ s.iw → (∃ w, i = .binit w) ∨ ∃ v iw, i = .bput v iw) ∧
    (t.acc ≠ s.acc ∨ t.cnt ≠ s.cnt → (∃ w, i = .binit w) ∨ (∃ v iw, i = .bput v iw) ∨ i = .bflush) ∧
    (t.base ≠ s.base → ∃ n, i = .clen n) ∧
    (t.bps ≠ s.bps → (∃ n, i = .clen n) ∨ i = .cbits) ∧
    (t.nacc ≠ s.nacc ∨ t.npow ≠ s.npow → i = .nbegin ∨ ∃ ch, i = .nsym ch) ∧
    (t.cause ≠ s.cause ∨ t.tval ≠ s.tval ∨ t.epc ≠ s.epc → s.status.f = false ∧ t.status.f = true) ∧
    (t.status.f ≠ s.status.f → t.status.f = true ∨ i = .clrf) ∧
    (t.status.nact ≠ s.status.nact → i = .nbegin ∨ i = .nend ∨ t.status.f = true) ∧
    (t.status.povf ≠ s.status.povf → i = .nbegin ∨ ∃ ch, i = .nsym ch) ∧
    (∀ k, readEntry? t.ct k ≠ readEntry? s.ct k → ∃ idx ch, i = .cset idx ch ∧ k = idx.toNat) ∧
    t.host = s.host

/-- R259, R157: the Bit Packer commands neither read nor write the charset and the numeral registers, and the numeral
commands neither read nor write the packer's registers. -/
def Obligations.PackerAndConverterIndependent : Prop :=
  (∀ (i : Instr) (s t : State) (base : BitVec 9) (bps : BitVec 4) (ct : Memory) (nacc npow : Data),
    (∃ w, i = .binit w) ∨ (∃ v iw, i = .bput v iw) ∨ i = .bflush → exec i s = .next t →
    t.base = s.base ∧ t.bps = s.bps ∧ t.ct = s.ct ∧ t.nacc = s.nacc ∧ t.npow = s.npow ∧
    exec i { s with base := base, bps := bps, ct := ct, nacc := nacc, npow := npow } =
      .next { t with base := base, bps := bps, ct := ct, nacc := nacc, npow := npow }) ∧
  (∀ (i : Instr) (s t : State) (w iw : BitVec 6) (acc : BitVec 31) (cnt : BitVec 5),
    (∃ v, i = .ngen v) ∨ i = .nbegin ∨ (∃ ch, i = .nsym ch) ∨ i = .nend → exec i s = .next t →
    t.w = s.w ∧ t.iw = s.iw ∧ t.acc = s.acc ∧ t.cnt = s.cnt ∧
    exec i { s with w := w, iw := iw, acc := acc, cnt := cnt } =
      .next { t with w := w, iw := iw, acc := acc, cnt := cnt })

/-- R66, R257, R258: what a completing command pushes: only its final item has `last` = 1, and how many there are. -/
def Obligations.PushesOfCompletingCommand : Prop :=
  ∀ (i : Instr) (s t : State), Sound s → exec i s = .next t → t.cmdcnt ≠ s.cmdcnt →
    ∃ items, t.oq = s.oq ++ items ∧
      (∀ j it, items[j]? = some it → (it.last = true ↔ j + 1 = items.length)) ∧
      items.length ≤ 64 ∧
      match i with
      | .bput _ iw => items.length = (s.cnt.toNat + iw.toNat) / s.w.toNat ∧ items.length ≤ 32 ∧
          ∀ it ∈ items, it.tag = .val
      | .bflush => items.length = 1 ∧ ∀ it ∈ items, it.tag = .val ∨ it.tag = .none
      | .cget _ => items.length = 1 ∧ ∀ it ∈ items, it.tag = .chr
      | .cbits | .nend => items.length = 1 ∧ ∀ it ∈ items, it.tag = .num
      | .rdreg _ => items.length = 1 ∧ ∀ it ∈ items, it.tag = .reg
      | .ngen _ => 1 ≤ items.length ∧ ∀ it ∈ items, it.tag = .chr
      | .binit _ | .clen _ | .cset _ _ | .nbegin | .nsym _ | .clrf => items = []

/-! ### The host procedures (43_codec_procedures.md) -/

/-- R180: LOADCS makes the charset the engine's: BASE is its length, entry i is its i-th code and is written, nothing else
is touched but BPS and CMDCNT. -/
def Obligations.LoadCharsetLoads : Prop :=
  ∀ (charset : List CharCode) (s : State), charset.length ≤ 256 → s.status.f = false → s.status.nact = false →
    ∃ m : Memory,
      runProc (loadCharset charset) s =
        (.ok (), { s with
          base := BitVec.ofNat 9 charset.length
          bps := 0
          ct := m
          cmdcnt := s.cmdcnt + BitVec.ofNat 32 (charset.length + 1) }) ∧
      (∀ i ch, charset[i]? = some ch → readEntry? m i = some ch) ∧
      ∀ i, charset.length ≤ i → readEntry? m i = readEntry? s.ct i

/-- R253 (2), R61: after LOADCS of at least two characters the converting commands read only written entries, and so does
CGET of an index below the length. -/
def Obligations.LoadedCharsetIsWritten : Prop :=
  ∀ (charset : List CharCode) (s t : State), 2 ≤ charset.length → charset.length ≤ 256 → s.status.f = false →
    s.status.nact = false → runProc (loadCharset charset) s = (.ok (), t) →
    (∀ value, readsOnlyWritten (.ngen value) t = true) ∧
    (∀ ch u, exec .nbegin t = .next u → readsOnlyWritten (.nsym ch) u = true) ∧
    ∀ idx : BitVec 8, idx.toNat < charset.length → readsOnlyWritten (.cget idx) t = true

/-- R184, R185: with different codes loaded, symbol value to character and back is the identity on 0 .. BASE − 1, and
neither touches the Bit Packer. -/
def Obligations.CharacterAndIndexInverse : Prop :=
  ∀ (s : State) (d : Data), Ready s → 2 ≤ s.base.toNat → s.base.toNat ≤ 256 → DistinctSymbols s →
    d.toNat < s.base.toNat →
    ∃ t u, runProc (charOf d) s = (.ok (readEntry s.ct d.toNat), t) ∧
      runProc (indexOf (readEntry s.ct d.toNat)) t = (.ok d, u) ∧ Ready u ∧
      u.ct = s.ct ∧ u.base = s.base ∧ u.w = s.w ∧ u.iw = s.iw ∧ u.acc = s.acc ∧ u.cnt = s.cnt

/-- R191 (1): TOBASE10 of FROMBASE10 of n is n, for every n below 2^64 and every charset of 2 to 256 different
characters. -/
def Obligations.HostNumeralRoundTrip : Prop :=
  ∀ (n : Nat) (charset : List CharCode) (s : State), Ready s → n < 2 ^ 64 → 2 ≤ charset.length →
    charset.length ≤ 256 → charset.Nodup →
    ∃ numeral t u, runProc (fromBase10 n charset) s = (.ok numeral, t) ∧ numeral ≠ [] ∧
      runProc (toBase10 numeral charset) t = (.ok (BitVec.ofNat 64 n), u) ∧ Ready u

/-- R191 (4): FROMBASE10 of 0 is exactly the charset's first character. -/
def Obligations.ZeroIsFirstSymbol : Prop :=
  ∀ (charset : List CharCode) (first : CharCode) (s : State), Ready s → 2 ≤ charset.length → charset.length ≤ 256 →
    charset[0]? = some first → ∃ t, runProc (fromBase10 0 charset) s = (.ok [first], t) ∧ Ready t

/-- R191 (2): DECODE of ENCODE of data is data, for every charset of 2, 4, .. 256 different characters, with or without
padding, the padding character being outside the charset (U10) and the group at least 1 (U8). -/
def Obligations.CodecRoundTrip : Prop :=
  ∀ (data : List (BitVec 8)) (charset : List CharCode) (pad : Option CharCode) (group : Option Nat) (k : Nat) (s : State),
    Ready s → 1 ≤ k → k ≤ 8 → charset.length = 2 ^ k → charset.Nodup → (∀ p, pad = some p → p ∉ charset) →
    group ≠ some 0 →
    ∃ text t u, runProc (encodeBaseX data charset pad group) s = (.ok text, t) ∧
      runProc (decodeBaseX text charset pad) t = (.ok data, u)

/-- R191 (5), R186 step 6: no data gives the empty text, whatever the padding, and the empty text no data. -/
def Obligations.EmptyInputEmptyOutput : Prop :=
  ∀ (charset : List CharCode) (pad : Option CharCode) (group : Option Nat) (k : Nat) (s : State),
    Ready s → 1 ≤ k → k ≤ 8 → charset.length = 2 ^ k → group ≠ some 0 →
    (∃ t, runProc (encodeBaseX [] charset pad group) s = (.ok [], t)) ∧
    (∃ t, runProc (decodeBaseX [] charset pad) s = (.ok [], t))

/-- R191 (6), step 1 of R186 and of R187, R183: ENCODE and DECODE reject a charset whose length is no power of two, with
the two nearest lengths, before any data or text is looked at; the engine is left out of fault state. -/
def Obligations.NonPowerOfTwoRejected : Prop :=
  ∀ (charset : List CharCode) (k : Nat) (s : State),
    Ready s → charset.length ≤ 256 → 1 ≤ k → 2 ^ k < charset.length → charset.length < 2 ^ (k + 1) →
    (∀ (data : List (BitVec 8)) (pad : Option CharCode) (group : Option Nat), group ≠ some 0 →
      ∃ t, runProc (encodeBaseX data charset pad group) s =
          (.error (.nonPowerOfTwoCharset (BitVec.ofNat 32 (2 ^ k)) (BitVec.ofNat 32 (2 ^ (k + 1)))), t) ∧ Ready t) ∧
    (∀ (text : List CharCode) (pad : Option CharCode),
      ∃ t, runProc (decodeBaseX text charset pad) s =
          (.error (.nonPowerOfTwoCharset (BitVec.ofNat 32 (2 ^ k)) (BitVec.ofNat 32 (2 ^ (k + 1)))), t) ∧ Ready t)

/-- R188: padding is appended only where both are supplied, fewer than `group` characters of it, and it makes the length a
multiple of the group. -/
def Obligations.PaddingFillsGroup : Prop :=
  ∀ (p : CharCode) (g : Nat) (out : List CharCode), 1 ≤ g →
    ∃ n < g, padded (some p) (some g) out = out ++ List.replicate n p ∧ g ∣ (padded (some p) (some g) out).length ∧
      (out = [] → n = 0) ∧ padded (some p) none out = out ∧ padded none (some g) out = out ∧ padded none none out = out

/-! ### The assembler -/

/-- R93: the mnemonic in capitals, operands in the table's order; decimal, hexadecimal and binary numbers, a quoted
character, a register name, a comment. Four clauses are the model's choice where R93 leaves the point open (assumption 14):
a quoted semicolon starts no comment, a line with nothing but a comment gives no command, and the two errors. -/
def Obligations.AssemblerReadsExamples : Prop :=
  assembleLine "BINIT 6".toList = .ok (some (.binit 6)) ∧
  assembleLine "BPUT 0x4D, 8".toList = .ok (some (.bput 0x4D 8)) ∧
  assembleLine "CLEN 0b1000000 ; base64".toList = .ok (some (.clen 64)) ∧
  assembleLine "CSET 0, 'A'".toList = .ok (some (.cset 0 0x41)) ∧
  assembleLine "NSYM ';'".toList = .ok (some (.nsym 0x3B)) ∧
  assembleLine "RDREG CAUSE".toList = .ok (some (.rdreg 3)) ∧
  assembleLine "; CLRF".toList = .ok none ∧
  assembleLine "CLEN 512".toList = .error .fieldOverflow ∧
  assembleLine "NEND 1".toList = .error .operandCount
end

