-- ==== Sys2Proof/Laws/Decode.lean ====
section
/-! SUPPORT. The fields of an encoded word: what the decoder's extractions give on what the encoder builds. -/

namespace Sys2Proof

theorem opField_encode (i : Instr) : opField (encode i) = opcodeOf i :=
  BitVec.extractLsb'_append_eq_left

theorem argField_encode (i : Instr) : argField (encode i) = argumentOf i :=
  BitVec.extractLsb'_append_eq_right

/-- A field of the argument may be taken from the argument instead of from the word (bit k of arg is bit k of cmd,
30_encoding.md R82). -/
theorem extract_of_argField (c : CmdWord) (start len : Nat) (h : start + len ≤ 64) :
    c.extractLsb' start len = (argField c).extractLsb' start len := by
  ext k hk
  simp [argField]
  omega

/-- A word is its opcode above its argument (R80). -/
theorem word_eq_fields (c : CmdWord) : (opField c ++ argField c : BitVec (8 + 64)) = c := by
  refine BitVec.eq_of_getLsbD_eq fun k hk => ?_
  rw [BitVec.getLsbD_append]
  by_cases h : k < 64
  · simp [h, argField]
  · have h₁ : k - 64 < 8 := by omega
    have h₂ : 64 + (k - 64) = k := by omega
    simp [h, opField, h₁, h₂]

end Sys2Proof
end

