-- ==== Sys2Proof/Laws/State.lean ====
section
/-! SUPPORT. One lemma per field per update of State: what each named update writes and what it leaves alone. -/

namespace Sys2Proof.Machine

/-! ### `setPacker` -/

@[simp] theorem setPacker_acc (s : State) (w iw : BitVec 6) (acc : BitVec 31) (cnt : BitVec 5) : (s.setPacker w iw acc cnt).acc = acc := rfl
@[simp] theorem setPacker_cnt (s : State) (w iw : BitVec 6) (acc : BitVec 31) (cnt : BitVec 5) : (s.setPacker w iw acc cnt).cnt = cnt := rfl
@[simp] theorem setPacker_nacc (s : State) (w iw : BitVec 6) (acc : BitVec 31) (cnt : BitVec 5) : (s.setPacker w iw acc cnt).nacc = s.nacc := rfl
@[simp] theorem setPacker_npow (s : State) (w iw : BitVec 6) (acc : BitVec 31) (cnt : BitVec 5) : (s.setPacker w iw acc cnt).npow = s.npow := rfl
@[simp] theorem setPacker_w (s : State) (w iw : BitVec 6) (acc : BitVec 31) (cnt : BitVec 5) : (s.setPacker w iw acc cnt).w = w := rfl
@[simp] theorem setPacker_iw (s : State) (w iw : BitVec 6) (acc : BitVec 31) (cnt : BitVec 5) : (s.setPacker w iw acc cnt).iw = iw := rfl
@[simp] theorem setPacker_base (s : State) (w iw : BitVec 6) (acc : BitVec 31) (cnt : BitVec 5) : (s.setPacker w iw acc cnt).base = s.base := rfl
@[simp] theorem setPacker_bps (s : State) (w iw : BitVec 6) (acc : BitVec 31) (cnt : BitVec 5) : (s.setPacker w iw acc cnt).bps = s.bps := rfl
@[simp] theorem setPacker_status (s : State) (w iw : BitVec 6) (acc : BitVec 31) (cnt : BitVec 5) : (s.setPacker w iw acc cnt).status = s.status := rfl
@[simp] theorem setPacker_cause (s : State) (w iw : BitVec 6) (acc : BitVec 31) (cnt : BitVec 5) : (s.setPacker w iw acc cnt).cause = s.cause := rfl
@[simp] theorem setPacker_tval (s : State) (w iw : BitVec 6) (acc : BitVec 31) (cnt : BitVec 5) : (s.setPacker w iw acc cnt).tval = s.tval := rfl
@[simp] theorem setPacker_epc (s : State) (w iw : BitVec 6) (acc : BitVec 31) (cnt : BitVec 5) : (s.setPacker w iw acc cnt).epc = s.epc := rfl
@[simp] theorem setPacker_cmdcnt (s : State) (w iw : BitVec 6) (acc : BitVec 31) (cnt : BitVec 5) : (s.setPacker w iw acc cnt).cmdcnt = s.cmdcnt := rfl
@[simp] theorem setPacker_ct (s : State) (w iw : BitVec 6) (acc : BitVec 31) (cnt : BitVec 5) : (s.setPacker w iw acc cnt).ct = s.ct := rfl
@[simp] theorem setPacker_oq (s : State) (w iw : BitVec 6) (acc : BitVec 31) (cnt : BitVec 5) : (s.setPacker w iw acc cnt).oq = s.oq := rfl
@[simp] theorem setPacker_host (s : State) (w iw : BitVec 6) (acc : BitVec 31) (cnt : BitVec 5) : (s.setPacker w iw acc cnt).host = s.host := rfl

/-! ### `setCharset` -/

@[simp] theorem setCharset_acc (s : State) (base : BitVec 9) (bps : BitVec 4) : (s.setCharset base bps).acc = s.acc := rfl
@[simp] theorem setCharset_cnt (s : State) (base : BitVec 9) (bps : BitVec 4) : (s.setCharset base bps).cnt = s.cnt := rfl
@[simp] theorem setCharset_nacc (s : State) (base : BitVec 9) (bps : BitVec 4) : (s.setCharset base bps).nacc = s.nacc := rfl
@[simp] theorem setCharset_npow (s : State) (base : BitVec 9) (bps : BitVec 4) : (s.setCharset base bps).npow = s.npow := rfl
@[simp] theorem setCharset_w (s : State) (base : BitVec 9) (bps : BitVec 4) : (s.setCharset base bps).w = s.w := rfl
@[simp] theorem setCharset_iw (s : State) (base : BitVec 9) (bps : BitVec 4) : (s.setCharset base bps).iw = s.iw := rfl
@[simp] theorem setCharset_base (s : State) (base : BitVec 9) (bps : BitVec 4) : (s.setCharset base bps).base = base := rfl
@[simp] theorem setCharset_bps (s : State) (base : BitVec 9) (bps : BitVec 4) : (s.setCharset base bps).bps = bps := rfl
@[simp] theorem setCharset_status (s : State) (base : BitVec 9) (bps : BitVec 4) : (s.setCharset base bps).status = s.status := rfl
@[simp] theorem setCharset_cause (s : State) (base : BitVec 9) (bps : BitVec 4) : (s.setCharset base bps).cause = s.cause := rfl
@[simp] theorem setCharset_tval (s : State) (base : BitVec 9) (bps : BitVec 4) : (s.setCharset base bps).tval = s.tval := rfl
@[simp] theorem setCharset_epc (s : State) (base : BitVec 9) (bps : BitVec 4) : (s.setCharset base bps).epc = s.epc := rfl
@[simp] theorem setCharset_cmdcnt (s : State) (base : BitVec 9) (bps : BitVec 4) : (s.setCharset base bps).cmdcnt = s.cmdcnt := rfl
@[simp] theorem setCharset_ct (s : State) (base : BitVec 9) (bps : BitVec 4) : (s.setCharset base bps).ct = s.ct := rfl
@[simp] theorem setCharset_oq (s : State) (base : BitVec 9) (bps : BitVec 4) : (s.setCharset base bps).oq = s.oq := rfl
@[simp] theorem setCharset_host (s : State) (base : BitVec 9) (bps : BitVec 4) : (s.setCharset base bps).host = s.host := rfl

/-! ### `setTable` -/

@[simp] theorem setTable_acc (s : State) (m : Memory) : (s.setTable m).acc = s.acc := rfl
@[simp] theorem setTable_cnt (s : State) (m : Memory) : (s.setTable m).cnt = s.cnt := rfl
@[simp] theorem setTable_nacc (s : State) (m : Memory) : (s.setTable m).nacc = s.nacc := rfl
@[simp] theorem setTable_npow (s : State) (m : Memory) : (s.setTable m).npow = s.npow := rfl
@[simp] theorem setTable_w (s : State) (m : Memory) : (s.setTable m).w = s.w := rfl
@[simp] theorem setTable_iw (s : State) (m : Memory) : (s.setTable m).iw = s.iw := rfl
@[simp] theorem setTable_base (s : State) (m : Memory) : (s.setTable m).base = s.base := rfl
@[simp] theorem setTable_bps (s : State) (m : Memory) : (s.setTable m).bps = s.bps := rfl
@[simp] theorem setTable_status (s : State) (m : Memory) : (s.setTable m).status = s.status := rfl
@[simp] theorem setTable_cause (s : State) (m : Memory) : (s.setTable m).cause = s.cause := rfl
@[simp] theorem setTable_tval (s : State) (m : Memory) : (s.setTable m).tval = s.tval := rfl
@[simp] theorem setTable_epc (s : State) (m : Memory) : (s.setTable m).epc = s.epc := rfl
@[simp] theorem setTable_cmdcnt (s : State) (m : Memory) : (s.setTable m).cmdcnt = s.cmdcnt := rfl
@[simp] theorem setTable_ct (s : State) (m : Memory) : (s.setTable m).ct = m := rfl
@[simp] theorem setTable_oq (s : State) (m : Memory) : (s.setTable m).oq = s.oq := rfl
@[simp] theorem setTable_host (s : State) (m : Memory) : (s.setTable m).host = s.host := rfl

/-! ### `setNumeral` -/

@[simp] theorem setNumeral_acc (s : State) (nacc npow : Data) : (s.setNumeral nacc npow).acc = s.acc := rfl
@[simp] theorem setNumeral_cnt (s : State) (nacc npow : Data) : (s.setNumeral nacc npow).cnt = s.cnt := rfl
@[simp] theorem setNumeral_nacc (s : State) (nacc npow : Data) : (s.setNumeral nacc npow).nacc = nacc := rfl
@[simp] theorem setNumeral_npow (s : State) (nacc npow : Data) : (s.setNumeral nacc npow).npow = npow := rfl
@[simp] theorem setNumeral_w (s : State) (nacc npow : Data) : (s.setNumeral nacc npow).w = s.w := rfl
@[simp] theorem setNumeral_iw (s : State) (nacc npow : Data) : (s.setNumeral nacc npow).iw = s.iw := rfl
@[simp] theorem setNumeral_base (s : State) (nacc npow : Data) : (s.setNumeral nacc npow).base = s.base := rfl
@[simp] theorem setNumeral_bps (s : State) (nacc npow : Data) : (s.setNumeral nacc npow).bps = s.bps := rfl
@[simp] theorem setNumeral_status (s : State) (nacc npow : Data) : (s.setNumeral nacc npow).status = s.status := rfl
@[simp] theorem setNumeral_cause (s : State) (nacc npow : Data) : (s.setNumeral nacc npow).cause = s.cause := rfl
@[simp] theorem setNumeral_tval (s : State) (nacc npow : Data) : (s.setNumeral nacc npow).tval = s.tval := rfl
@[simp] theorem setNumeral_epc (s : State) (nacc npow : Data) : (s.setNumeral nacc npow).epc = s.epc := rfl
@[simp] theorem setNumeral_cmdcnt (s : State) (nacc npow : Data) : (s.setNumeral nacc npow).cmdcnt = s.cmdcnt := rfl
@[simp] theorem setNumeral_ct (s : State) (nacc npow : Data) : (s.setNumeral nacc npow).ct = s.ct := rfl
@[simp] theorem setNumeral_oq (s : State) (nacc npow : Data) : (s.setNumeral nacc npow).oq = s.oq := rfl
@[simp] theorem setNumeral_host (s : State) (nacc npow : Data) : (s.setNumeral nacc npow).host = s.host := rfl

/-! ### `setStatus` -/

@[simp] theorem setStatus_acc (s : State) (st : Status) : (s.setStatus st).acc = s.acc := rfl
@[simp] theorem setStatus_cnt (s : State) (st : Status) : (s.setStatus st).cnt = s.cnt := rfl
@[simp] theorem setStatus_nacc (s : State) (st : Status) : (s.setStatus st).nacc = s.nacc := rfl
@[simp] theorem setStatus_npow (s : State) (st : Status) : (s.setStatus st).npow = s.npow := rfl
@[simp] theorem setStatus_w (s : State) (st : Status) : (s.setStatus st).w = s.w := rfl
@[simp] theorem setStatus_iw (s : State) (st : Status) : (s.setStatus st).iw = s.iw := rfl
@[simp] theorem setStatus_base (s : State) (st : Status) : (s.setStatus st).base = s.base := rfl
@[simp] theorem setStatus_bps (s : State) (st : Status) : (s.setStatus st).bps = s.bps := rfl
@[simp] theorem setStatus_status (s : State) (st : Status) : (s.setStatus st).status = st := rfl
@[simp] theorem setStatus_cause (s : State) (st : Status) : (s.setStatus st).cause = s.cause := rfl
@[simp] theorem setStatus_tval (s : State) (st : Status) : (s.setStatus st).tval = s.tval := rfl
@[simp] theorem setStatus_epc (s : State) (st : Status) : (s.setStatus st).epc = s.epc := rfl
@[simp] theorem setStatus_cmdcnt (s : State) (st : Status) : (s.setStatus st).cmdcnt = s.cmdcnt := rfl
@[simp] theorem setStatus_ct (s : State) (st : Status) : (s.setStatus st).ct = s.ct := rfl
@[simp] theorem setStatus_oq (s : State) (st : Status) : (s.setStatus st).oq = s.oq := rfl
@[simp] theorem setStatus_host (s : State) (st : Status) : (s.setStatus st).host = s.host := rfl

/-! ### `setQueue` -/

@[simp] theorem setQueue_acc (s : State) (q : List Item) : (s.setQueue q).acc = s.acc := rfl
@[simp] theorem setQueue_cnt (s : State) (q : List Item) : (s.setQueue q).cnt = s.cnt := rfl
@[simp] theorem setQueue_nacc (s : State) (q : List Item) : (s.setQueue q).nacc = s.nacc := rfl
@[simp] theorem setQueue_npow (s : State) (q : List Item) : (s.setQueue q).npow = s.npow := rfl
@[simp] theorem setQueue_w (s : State) (q : List Item) : (s.setQueue q).w = s.w := rfl
@[simp] theorem setQueue_iw (s : State) (q : List Item) : (s.setQueue q).iw = s.iw := rfl
@[simp] theorem setQueue_base (s : State) (q : List Item) : (s.setQueue q).base = s.base := rfl
@[simp] theorem setQueue_bps (s : State) (q : List Item) : (s.setQueue q).bps = s.bps := rfl
@[simp] theorem setQueue_status (s : State) (q : List Item) : (s.setQueue q).status = s.status := rfl
@[simp] theorem setQueue_cause (s : State) (q : List Item) : (s.setQueue q).cause = s.cause := rfl
@[simp] theorem setQueue_tval (s : State) (q : List Item) : (s.setQueue q).tval = s.tval := rfl
@[simp] theorem setQueue_epc (s : State) (q : List Item) : (s.setQueue q).epc = s.epc := rfl
@[simp] theorem setQueue_cmdcnt (s : State) (q : List Item) : (s.setQueue q).cmdcnt = s.cmdcnt := rfl
@[simp] theorem setQueue_ct (s : State) (q : List Item) : (s.setQueue q).ct = s.ct := rfl
@[simp] theorem setQueue_oq (s : State) (q : List Item) : (s.setQueue q).oq = q := rfl
@[simp] theorem setQueue_host (s : State) (q : List Item) : (s.setQueue q).host = s.host := rfl

/-! ### `setHost` -/

@[simp] theorem setHost_acc (s : State) (ms : List HostMove) : (s.setHost ms).acc = s.acc := rfl
@[simp] theorem setHost_cnt (s : State) (ms : List HostMove) : (s.setHost ms).cnt = s.cnt := rfl
@[simp] theorem setHost_nacc (s : State) (ms : List HostMove) : (s.setHost ms).nacc = s.nacc := rfl
@[simp] theorem setHost_npow (s : State) (ms : List HostMove) : (s.setHost ms).npow = s.npow := rfl
@[simp] theorem setHost_w (s : State) (ms : List HostMove) : (s.setHost ms).w = s.w := rfl
@[simp] theorem setHost_iw (s : State) (ms : List HostMove) : (s.setHost ms).iw = s.iw := rfl
@[simp] theorem setHost_base (s : State) (ms : List HostMove) : (s.setHost ms).base = s.base := rfl
@[simp] theorem setHost_bps (s : State) (ms : List HostMove) : (s.setHost ms).bps = s.bps := rfl
@[simp] theorem setHost_status (s : State) (ms : List HostMove) : (s.setHost ms).status = s.status := rfl
@[simp] theorem setHost_cause (s : State) (ms : List HostMove) : (s.setHost ms).cause = s.cause := rfl
@[simp] theorem setHost_tval (s : State) (ms : List HostMove) : (s.setHost ms).tval = s.tval := rfl
@[simp] theorem setHost_epc (s : State) (ms : List HostMove) : (s.setHost ms).epc = s.epc := rfl
@[simp] theorem setHost_cmdcnt (s : State) (ms : List HostMove) : (s.setHost ms).cmdcnt = s.cmdcnt := rfl
@[simp] theorem setHost_ct (s : State) (ms : List HostMove) : (s.setHost ms).ct = s.ct := rfl
@[simp] theorem setHost_oq (s : State) (ms : List HostMove) : (s.setHost ms).oq = s.oq := rfl
@[simp] theorem setHost_host (s : State) (ms : List HostMove) : (s.setHost ms).host = ms := rfl

/-! ### `complete` -/

@[simp] theorem complete_acc (s : State) (ps : List Push) : (complete s ps).acc = s.acc := rfl
@[simp] theorem complete_cnt (s : State) (ps : List Push) : (complete s ps).cnt = s.cnt := rfl
@[simp] theorem complete_nacc (s : State) (ps : List Push) : (complete s ps).nacc = s.nacc := rfl
@[simp] theorem complete_npow (s : State) (ps : List Push) : (complete s ps).npow = s.npow := rfl
@[simp] theorem complete_w (s : State) (ps : List Push) : (complete s ps).w = s.w := rfl
@[simp] theorem complete_iw (s : State) (ps : List Push) : (complete s ps).iw = s.iw := rfl
@[simp] theorem complete_base (s : State) (ps : List Push) : (complete s ps).base = s.base := rfl
@[simp] theorem complete_bps (s : State) (ps : List Push) : (complete s ps).bps = s.bps := rfl
@[simp] theorem complete_status (s : State) (ps : List Push) : (complete s ps).status = s.status := rfl
@[simp] theorem complete_cause (s : State) (ps : List Push) : (complete s ps).cause = s.cause := rfl
@[simp] theorem complete_tval (s : State) (ps : List Push) : (complete s ps).tval = s.tval := rfl
@[simp] theorem complete_epc (s : State) (ps : List Push) : (complete s ps).epc = s.epc := rfl
@[simp] theorem complete_cmdcnt (s : State) (ps : List Push) : (complete s ps).cmdcnt = s.cmdcnt + 1 := rfl
@[simp] theorem complete_ct (s : State) (ps : List Push) : (complete s ps).ct = s.ct := rfl
@[simp] theorem complete_oq (s : State) (ps : List Push) : (complete s ps).oq = s.oq ++ markLast ps := rfl
@[simp] theorem complete_host (s : State) (ps : List Push) : (complete s ps).host = s.host := rfl

/-! ### `enterFault` -/

@[simp] theorem enterFault_acc (op : BitVec 8) (e : Exc) (s : State) : (enterFault op e s).acc = s.acc := rfl
@[simp] theorem enterFault_cnt (op : BitVec 8) (e : Exc) (s : State) : (enterFault op e s).cnt = s.cnt := rfl
@[simp] theorem enterFault_nacc (op : BitVec 8) (e : Exc) (s : State) : (enterFault op e s).nacc = s.nacc := rfl
@[simp] theorem enterFault_npow (op : BitVec 8) (e : Exc) (s : State) : (enterFault op e s).npow = s.npow := rfl
@[simp] theorem enterFault_w (op : BitVec 8) (e : Exc) (s : State) : (enterFault op e s).w = s.w := rfl
@[simp] theorem enterFault_iw (op : BitVec 8) (e : Exc) (s : State) : (enterFault op e s).iw = s.iw := rfl
@[simp] theorem enterFault_base (op : BitVec 8) (e : Exc) (s : State) : (enterFault op e s).base = s.base := rfl
@[simp] theorem enterFault_bps (op : BitVec 8) (e : Exc) (s : State) : (enterFault op e s).bps = s.bps := rfl
@[simp] theorem enterFault_status (op : BitVec 8) (e : Exc) (s : State) : (enterFault op e s).status = s.status.onFault := rfl
@[simp] theorem enterFault_cause (op : BitVec 8) (e : Exc) (s : State) : (enterFault op e s).cause = op ++ e.code := rfl
@[simp] theorem enterFault_tval (op : BitVec 8) (e : Exc) (s : State) : (enterFault op e s).tval = e.tval := rfl
@[simp] theorem enterFault_epc (op : BitVec 8) (e : Exc) (s : State) : (enterFault op e s).epc = s.cmdcnt := rfl
@[simp] theorem enterFault_cmdcnt (op : BitVec 8) (e : Exc) (s : State) : (enterFault op e s).cmdcnt = s.cmdcnt := rfl
@[simp] theorem enterFault_ct (op : BitVec 8) (e : Exc) (s : State) : (enterFault op e s).ct = s.ct := rfl
@[simp] theorem enterFault_oq (op : BitVec 8) (e : Exc) (s : State) : (enterFault op e s).oq = [] := rfl
@[simp] theorem enterFault_host (op : BitVec 8) (e : Exc) (s : State) : (enterFault op e s).host = s.host := rfl

/-! ### `leaveFault` -/

@[simp] theorem leaveFault_acc (s : State) : (leaveFault s).acc = s.acc := rfl
@[simp] theorem leaveFault_cnt (s : State) : (leaveFault s).cnt = s.cnt := rfl
@[simp] theorem leaveFault_nacc (s : State) : (leaveFault s).nacc = s.nacc := rfl
@[simp] theorem leaveFault_npow (s : State) : (leaveFault s).npow = s.npow := rfl
@[simp] theorem leaveFault_w (s : State) : (leaveFault s).w = s.w := rfl
@[simp] theorem leaveFault_iw (s : State) : (leaveFault s).iw = s.iw := rfl
@[simp] theorem leaveFault_base (s : State) : (leaveFault s).base = s.base := rfl
@[simp] theorem leaveFault_bps (s : State) : (leaveFault s).bps = s.bps := rfl
@[simp] theorem leaveFault_status (s : State) : (leaveFault s).status = s.status.clearFault := rfl
@[simp] theorem leaveFault_cause (s : State) : (leaveFault s).cause = s.cause := rfl
@[simp] theorem leaveFault_tval (s : State) : (leaveFault s).tval = s.tval := rfl
@[simp] theorem leaveFault_epc (s : State) : (leaveFault s).epc = s.epc := rfl
@[simp] theorem leaveFault_cmdcnt (s : State) : (leaveFault s).cmdcnt = s.cmdcnt := rfl
@[simp] theorem leaveFault_ct (s : State) : (leaveFault s).ct = s.ct := rfl
@[simp] theorem leaveFault_oq (s : State) : (leaveFault s).oq = s.oq := rfl
@[simp] theorem leaveFault_host (s : State) : (leaveFault s).host = s.host := rfl

/-! ### `assertReset` -/

@[simp] theorem assertReset_acc (s : State) : (assertReset s).acc = 0 := rfl
@[simp] theorem assertReset_cnt (s : State) : (assertReset s).cnt = 0 := rfl
@[simp] theorem assertReset_nacc (s : State) : (assertReset s).nacc = 0 := rfl
@[simp] theorem assertReset_npow (s : State) : (assertReset s).npow = 1 := rfl
@[simp] theorem assertReset_w (s : State) : (assertReset s).w = 0 := rfl
@[simp] theorem assertReset_iw (s : State) : (assertReset s).iw = 0 := rfl
@[simp] theorem assertReset_base (s : State) : (assertReset s).base = 0 := rfl
@[simp] theorem assertReset_bps (s : State) : (assertReset s).bps = 0 := rfl
@[simp] theorem assertReset_status (s : State) : (assertReset s).status = { f := false, nact := false, povf := false } := rfl
@[simp] theorem assertReset_cause (s : State) : (assertReset s).cause = 0 := rfl
@[simp] theorem assertReset_tval (s : State) : (assertReset s).tval = 0 := rfl
@[simp] theorem assertReset_epc (s : State) : (assertReset s).epc = 0 := rfl
@[simp] theorem assertReset_cmdcnt (s : State) : (assertReset s).cmdcnt = 0 := rfl
@[simp] theorem assertReset_ct (s : State) : (assertReset s).ct = s.ct := rfl
@[simp] theorem assertReset_oq (s : State) : (assertReset s).oq = [] := rfl
@[simp] theorem assertReset_host (s : State) : (assertReset s).host = s.host := rfl

/-! ### STATUS -/

@[simp] theorem onFault_f (st : Status) : (st.onFault).f = true := rfl
@[simp] theorem onFault_nact (st : Status) : (st.onFault).nact = false := rfl
@[simp] theorem onFault_povf (st : Status) : (st.onFault).povf = st.povf := rfl
@[simp] theorem clearFault_f (st : Status) : (st.clearFault).f = false := rfl
@[simp] theorem clearFault_nact (st : Status) : (st.clearFault).nact = st.nact := rfl
@[simp] theorem clearFault_povf (st : Status) : (st.clearFault).povf = st.povf := rfl
@[simp] theorem openNumeral_f (st : Status) : (st.openNumeral).f = st.f := rfl
@[simp] theorem openNumeral_nact (st : Status) : (st.openNumeral).nact = true := rfl
@[simp] theorem openNumeral_povf (st : Status) : (st.openNumeral).povf = false := rfl
@[simp] theorem closeNumeral_f (st : Status) : (st.closeNumeral).f = st.f := rfl
@[simp] theorem closeNumeral_nact (st : Status) : (st.closeNumeral).nact = false := rfl
@[simp] theorem closeNumeral_povf (st : Status) : (st.closeNumeral).povf = st.povf := rfl
@[simp] theorem noteWeight_f (st : Status) (p : Nat) : (st.noteWeight p).f = st.f := rfl
@[simp] theorem noteWeight_nact (st : Status) (p : Nat) : (st.noteWeight p).nact = st.nact := rfl
@[simp] theorem noteWeight_povf (st : Status) (p : Nat) : (st.noteWeight p).povf = (st.povf || decide (2 ^ Config.nw ≤ p)) := rfl

end Sys2Proof.Machine
end

