-- ==== Sys2Proof/Laws/Ops.lean ====
section
/-! SUPPORT. For each shared operation, what it can do, said once: the charset table, the lookup, the registers, the
output queue, the shape of a command. -/

namespace Sys2Proof.Machine

/-! ### Bits -/

theorem and_mask (x n : Nat) : x &&& mask n = x % 2 ^ n := by
  simp [mask, Nat.and_two_pow_sub_one_eq_mod]

theorem mask_lt (n : Nat) : mask n < 2 ^ n := by
  have := Nat.two_pow_pos n
  simp only [mask]
  omega

theorem maskedInput_eq (v : BitVec 32) (iw : BitVec 6) : maskedInput v iw = v.toNat % 2 ^ iw.toNat := and_mask _ _

@[simp] theorem zext64_toNat {n : Nat} (x : BitVec n) (h : n ≤ 64) : (zext64 x).toNat = x.toNat := by
  have : x.toNat < 2 ^ 64 := Nat.lt_of_lt_of_le x.isLt (Nat.pow_le_pow_right (by decide) h)
  simp only [zext64, BitVec.toNat_setWidth]
  exact Nat.mod_eq_of_lt this

theorem legalOutputWidth_iff (w : BitVec 6) : legalOutputWidth w = true ↔ 1 ≤ w.toNat ∧ w.toNat ≤ 32 := by
  simp [legalOutputWidth, Config.wMax]

theorem legalInputWidth_iff (w : BitVec 6) : legalInputWidth w = true ↔ 1 ≤ w.toNat ∧ w.toNat ≤ 32 := by
  simp [legalInputWidth, Config.iwMax]

theorem legalLength_iff (n : BitVec 9) : legalLength n = true ↔ n.toNat ≤ 256 := by
  simp [legalLength, Config.ctSize]

/-! ### The charset table -/

/-- An entry just written reads as written, and is known to be written. -/
theorem readEntry?_writeEntry_same (i : Nat) (v : CharCode) (m : Memory) : readEntry? (writeEntry i v m) i = some v := by
  induction m with
  | nil => simp [writeEntry, readEntry?]
  | cons e m ih =>
    obtain ⟨j, u⟩ := e
    by_cases h₁ : i < j
    · simp [writeEntry, readEntry?, h₁]
    · by_cases h₂ : i = j
      · simp [writeEntry, readEntry?, h₂]
      · have h₃ : ¬ j = i := fun h => h₂ h.symm
        simp [writeEntry, readEntry?, h₁, h₂, h₃, ih]

/-- A write leaves every other entry alone. -/
theorem readEntry?_writeEntry_other (i k : Nat) (v : CharCode) (m : Memory) (h : k ≠ i) :
    readEntry? (writeEntry i v m) k = readEntry? m k := by
  induction m with
  | nil => simp [writeEntry, readEntry?, h.symm]
  | cons e m ih =>
    obtain ⟨j, u⟩ := e
    by_cases h₁ : i < j
    · simp [writeEntry, readEntry?, h₁, h.symm]
    · by_cases h₂ : i = j
      · subst h₂
        simp [writeEntry, readEntry?, h.symm]
      · simp [writeEntry, readEntry?, h₁, h₂, ih]

theorem readEntry_writeEntry_same (i : Nat) (v : CharCode) (m : Memory) : readEntry (writeEntry i v m) i = v := by
  simp [readEntry, readEntry?_writeEntry_same]

theorem readEntry_writeEntry_other (i k : Nat) (v : CharCode) (m : Memory) (h : k ≠ i) :
    readEntry (writeEntry i v m) k = readEntry m k := by
  simp [readEntry, readEntry?_writeEntry_other i k v m h]

theorem wf_iff (m : Memory) :
    Memory.wf m = true ↔ m.Pairwise (fun a b => a.1 < b.1) ∧ ∀ e ∈ m, e.1 < 256 := by
  simp [Memory.wf, Config.ctSize]

theorem mem_writeEntry {i : Nat} {v : CharCode} {m : Memory} {e : Entry} (h : e ∈ writeEntry i v m) :
    e = (i, v) ∨ e ∈ m := by
  induction m with
  | nil => simpa [writeEntry] using h
  | cons d m ih =>
    obtain ⟨j, u⟩ := d
    by_cases h₁ : i < j
    · simpa [writeEntry, h₁] using h
    · by_cases h₂ : i = j
      · subst h₂
        simp only [writeEntry, Nat.lt_irrefl, if_false, if_true, List.mem_cons] at h
        exact h.imp_right (List.mem_cons_of_mem _)
      · simp only [writeEntry, h₁, h₂, if_false, List.mem_cons] at h
        rcases h with h | h
        · exact .inr (by simp [h])
        · exact (ih h).imp_right (List.mem_cons_of_mem _)

/-- The one memory operation that writes keeps the canonical form. -/
theorem wf_writeEntry (i : Nat) (v : CharCode) (m : Memory) (hi : i < 256) (hm : Memory.wf m = true) :
    Memory.wf (writeEntry i v m) = true := by
  rw [wf_iff] at hm ⊢
  obtain ⟨hp, hb⟩ := hm
  refine ⟨?_, fun e he => ?_⟩
  · induction m with
    | nil => simp [writeEntry]
    | cons d m ih =>
      obtain ⟨j, u⟩ := d
      have hp' := List.pairwise_cons.1 hp
      by_cases h₁ : i < j
      · simp only [writeEntry, h₁, if_true]
        refine List.pairwise_cons.2 ⟨fun e he => ?_, hp⟩
        rcases List.mem_cons.1 he with rfl | he
        · exact h₁
        · exact Nat.lt_trans h₁ (hp'.1 e he)
      · by_cases h₂ : i = j
        · subst h₂
          simp only [writeEntry, Nat.lt_irrefl, if_false, if_true]
          exact List.pairwise_cons.2 ⟨fun e he => hp'.1 e he, hp'.2⟩
        · simp only [writeEntry, h₁, h₂, if_false]
          refine List.pairwise_cons.2 ⟨fun e he => ?_, ih hp'.2 fun e he => hb e (List.mem_cons_of_mem _ he)⟩
          rcases mem_writeEntry he with rfl | he
          · show j < i
            omega
          · exact hp'.1 e he
  · rcases mem_writeEntry he with rfl | he
    · exact hi
    · exact hb e he

theorem wf_reset : Memory.wf State.reset.ct = true := by decide

/-- `lookup` gives the least index below the base that holds the code (20_memory.md R64). -/
theorem lookup_eq_some {m : Memory} {base i : Nat} {ch : CharCode} :
    lookup m base ch = some i ↔ i < base ∧ readEntry m i = ch ∧ ∀ j < i, readEntry m j ≠ ch := by
  simp [lookup, List.find?_range_eq_some, and_left_comm]

/-- `lookup` gives none exactly when no entry below the base holds the code. -/
theorem lookup_eq_none {m : Memory} {base : Nat} {ch : CharCode} :
    lookup m base ch = none ↔ ∀ i < base, readEntry m i ≠ ch := by
  simp [lookup]

/-! ### The output queue -/

theorem markLast_length (ps : List Push) : (markLast ps).length = ps.length := by
  induction ps using markLast.induct with
  | case1 => rfl
  | case2 => rfl
  | case3 p q ps ih => simp [markLast] at ih ⊢; exact ih

/-- What a command's items are: the tags and data it pushed, in order, with `last` on the final one alone. -/
theorem markLast_getElem? (ps : List Push) (j : Nat) :
    (markLast ps)[j]? = (ps[j]?).map fun p => { last := decide (j + 1 = ps.length), tag := p.1, data := p.2 } := by
  induction ps using markLast.induct generalizing j with
  | case1 => simp [markLast]
  | case2 p => cases j <;> simp [markLast]
  | case3 p q ps ih =>
    cases j with
    | zero => simp [markLast]
    | succ j => simpa [markLast] using ih j

/-- Every item of a command carries one of its pushes. -/
theorem mem_markLast {ps : List Push} {it : Item} (h : it ∈ markLast ps) :
    ∃ p ∈ ps, it.tag = p.1 ∧ it.data = p.2 := by
  obtain ⟨j, hj⟩ := List.mem_iff_getElem?.1 h
  rw [markLast_getElem?, Option.map_eq_some_iff] at hj
  obtain ⟨p, hp, rfl⟩ := hj
  exact ⟨p, List.mem_of_getElem? hp, rfl, rfl⟩

/-! ### The registers -/

theorem readReg_isSome_iff (s : State) (n : Nat) : (readReg s n).isSome = true ↔ n ≤ 13 := by
  constructor
  · intro h
    by_contra hn
    have : readReg s n = none := by
      unfold readReg
      split <;> first | omega | rfl
    simp [this] at h
  · intro h
    interval_cases n <;> rfl

/-! ### The shape of a command -/

theorem unlessFaulted_run {s : State} (h : s.status.f = false) (run : Result) : unlessFaulted s run = run := by
  simp [unlessFaulted, h]

theorem unlessFaulted_discard {s : State} (h : s.status.f = true) (run : Result) : unlessFaulted s run = .next s := by
  simp [unlessFaulted, h]

/-- A command guarded by the fault state either is discarded or runs. -/
theorem unlessFaulted_next {s t : State} {run : Result} (h : unlessFaulted s run = .next t) :
    (s.status.f = true ∧ t = s) ∨ (s.status.f = false ∧ run = .next t) := by
  cases hf : s.status.f with
  | true => rw [unlessFaulted_discard hf] at h; injection h with h; exact .inl ⟨rfl, h.symm⟩
  | false => rw [unlessFaulted_run hf] at h; exact .inr ⟨rfl, h⟩

@[simp] theorem finish_next (s t : State) (ps : List Push) : finish s ps = .next t ↔ complete s ps = t := by
  simp [finish]

@[simp] theorem raise_next (i : Instr) (e : Exc) (s t : State) :
    raise i e s = .next t ↔ enterFault (opcodeOf i) e s = t := by
  simp [raise]

/-- The exception codes are 1 to 7 (60_exceptions.md R210). -/
theorem code_range (e : Exc) : 1 ≤ e.code.toNat ∧ e.code.toNat ≤ 7 := by
  cases e <;> simp [Exc.code]

/-- The operands the meanings call illegal are those that are not well-formed (30_encoding.md R86). -/
theorem wellFormed_iff_no_illegal_operand (i : Instr) :
    i.wellFormed = (match i with
      | .binit w => legalOutputWidth w
      | .bput _ iw => legalInputWidth iw
      | .clen n => legalLength n
      | .rdreg r => (readReg State.reset r.toNat).isSome
      | _ => true) := by
  cases i with
  | rdreg r =>
    rw [Bool.eq_iff_iff]
    simp [Instr.wellFormed, readReg_isSome_iff]
  | _ => rfl

end Sys2Proof.Machine
end

