-- ==== Sys2Proof/Laws/Exec.lean ====
section
/-! SUPPORT. What each command and each step can do, said once: if it answers a next state, then one of these cases
holds. Later proofs cite these and do not unfold the meanings. -/

namespace Sys2Proof.Machine

theorem execBinit_cases {w : BitVec 6} {s t : State} (h : execBinit w s = .next t) :
    (s.status.f = true ∧ t = s) ∨
    (s.status.f = false ∧ legalOutputWidth w = true ∧ t = complete (s.setPacker w 0 0 0) []) ∨
    (s.status.f = false ∧ legalOutputWidth w = false ∧ t = enterFault 0x01 (.illegalOperand (zext64 w)) s) := by
  obtain h | ⟨hf, h⟩ := unlessFaulted_next h
  · exact .inl h
  · refine .inr ?_
    split at h <;> rename_i hw
    · exact .inl ⟨hf, hw, ((finish_next _ _ _).1 h).symm⟩
    · exact .inr ⟨hf, by simpa using hw, ((raise_next _ _ _ _).1 h).symm⟩

theorem execBput_cases {v : BitVec 32} {iw : BitVec 6} {s t : State} (h : execBput v iw s = .next t) :
    (s.status.f = true ∧ t = s) ∨
    (s.status.f = false ∧ s.w = 0 ∧ t = enterFault 0x02 .sequenceError s) ∨
    (s.status.f = false ∧ s.w ≠ 0 ∧ legalInputWidth iw = true ∧
      t = complete (s.setPacker s.w iw (BitVec.ofNat 31 (packed s v iw).buf) (BitVec.ofNat 5 (packed s v iw).n))
        ((packed s v iw).vals.map fun x => (Tag.val, BitVec.ofNat 64 x))) ∨
    (s.status.f = false ∧ s.w ≠ 0 ∧ legalInputWidth iw = false ∧
      t = enterFault 0x02 (.illegalOperand (zext64 iw)) s) := by
  obtain h | ⟨hf, h⟩ := unlessFaulted_next h
  · exact .inl h
  · refine .inr ?_
    split at h <;> rename_i hw
    · exact .inl ⟨hf, hw, ((raise_next _ _ _ _).1 h).symm⟩
    · refine .inr ?_
      split at h <;> rename_i hi
      · exact .inl ⟨hf, hw, hi, ((finish_next _ _ _).1 h).symm⟩
      · exact .inr ⟨hf, hw, by simpa using hi, ((raise_next _ _ _ _).1 h).symm⟩

theorem execBflush_cases {s t : State} (h : execBflush s = .next t) :
    (s.status.f = true ∧ t = s) ∨
    (s.status.f = false ∧ s.w = 0 ∧ t = enterFault 0x03 .sequenceError s) ∨
    (s.status.f = false ∧ s.w ≠ 0 ∧ s.cnt = 0 ∧ t = complete s [(Tag.none, 0)]) ∨
    (s.status.f = false ∧ s.w ≠ 0 ∧ s.cnt ≠ 0 ∧
      t = complete (s.setPacker s.w s.iw 0 0) [(Tag.val, BitVec.ofNat 64 (flushValue s))]) := by
  obtain h | ⟨hf, h⟩ := unlessFaulted_next h
  · exact .inl h
  · refine .inr ?_
    split at h <;> rename_i hw
    · exact .inl ⟨hf, hw, ((raise_next _ _ _ _).1 h).symm⟩
    · refine .inr ?_
      split at h <;> rename_i hc
      · exact .inl ⟨hf, hw, hc, ((finish_next _ _ _).1 h).symm⟩
      · exact .inr ⟨hf, hw, hc, ((finish_next _ _ _).1 h).symm⟩

theorem execClen_cases {n : BitVec 9} {s t : State} (h : execClen n s = .next t) :
    (s.status.f = true ∧ t = s) ∨
    (s.status.f = false ∧ s.status.nact = true ∧ t = enterFault 0x10 .sequenceError s) ∨
    (s.status.f = false ∧ s.status.nact = false ∧ legalLength n = true ∧ t = complete (s.setCharset n 0) []) ∨
    (s.status.f = false ∧ s.status.nact = false ∧ legalLength n = false ∧
      t = enterFault 0x10 (.illegalOperand (zext64 n)) s) := by
  obtain h | ⟨hf, h⟩ := unlessFaulted_next h
  · exact .inl h
  · refine .inr ?_
    split at h <;> rename_i hn
    · exact .inl ⟨hf, hn, ((raise_next _ _ _ _).1 h).symm⟩
    · refine .inr ?_
      split at h <;> rename_i hl
      · exact .inl ⟨hf, by simpa using hn, hl, ((finish_next _ _ _).1 h).symm⟩
      · exact .inr ⟨hf, by simpa using hn, by simpa using hl, ((raise_next _ _ _ _).1 h).symm⟩

theorem execCset_cases {idx : BitVec 8} {ch : CharCode} {s t : State} (h : execCset idx ch s = .next t) :
    (s.status.f = true ∧ t = s) ∨
    (s.status.f = false ∧ s.status.nact = true ∧ t = enterFault 0x11 .sequenceError s) ∨
    (s.status.f = false ∧ s.status.nact = false ∧ t = complete (s.setTable (writeEntry idx.toNat ch s.ct)) []) := by
  obtain h | ⟨hf, h⟩ := unlessFaulted_next h
  · exact .inl h
  · refine .inr ?_
    split at h <;> rename_i hn
    · exact .inl ⟨hf, hn, ((raise_next _ _ _ _).1 h).symm⟩
    · exact .inr ⟨hf, by simpa using hn, ((finish_next _ _ _).1 h).symm⟩

theorem execCget_cases {idx : BitVec 8} {s t : State} (h : execCget idx s = .next t) :
    (s.status.f = true ∧ t = s) ∨
    (s.status.f = false ∧ t = complete s [(Tag.chr, zext64 (readEntry s.ct idx.toNat))]) := by
  obtain h | ⟨hf, h⟩ := unlessFaulted_next h
  · exact .inl h
  · exact .inr ⟨hf, ((finish_next _ _ _).1 h).symm⟩

theorem execCbits_cases {s t : State} (h : execCbits s = .next t) :
    (s.status.f = true ∧ t = s) ∨
    (s.status.f = false ∧ s.base.toNat < 2 ∧ t = enterFault 0x13 (.invalidCharset s.base) s) ∨
    (s.status.f = false ∧ 2 ≤ s.base.toNat ∧ s.base.toNat = floorPower s.base.toNat ∧
      t = complete (s.setCharset s.base (BitVec.ofNat 4 s.base.toNat.log2))
        [(Tag.num, BitVec.ofNat 64 s.base.toNat.log2)]) ∨
    (s.status.f = false ∧ 2 ≤ s.base.toNat ∧ s.base.toNat ≠ floorPower s.base.toNat ∧
      t = enterFault 0x13 (.nonPowerOfTwoCharset (BitVec.ofNat 32 (floorPower s.base.toNat))
        (BitVec.ofNat 32 (2 * floorPower s.base.toNat))) s) := by
  obtain h | ⟨hf, h⟩ := unlessFaulted_next h
  · exact .inl h
  · refine .inr ?_
    split at h <;> rename_i hb
    · exact .inl ⟨hf, hb, ((raise_next _ _ _ _).1 h).symm⟩
    · refine .inr ?_
      split at h <;> rename_i hp
      · exact .inl ⟨hf, by omega, hp, ((finish_next _ _ _).1 h).symm⟩
      · exact .inr ⟨hf, by omega, hp, ((raise_next _ _ _ _).1 h).symm⟩

theorem execNgen_cases {value : BitVec 64} {s t : State} (h : execNgen value s = .next t) :
    (s.status.f = true ∧ t = s) ∨
    (s.status.f = false ∧ s.base.toNat < 2 ∧ t = enterFault 0x20 (.invalidCharset s.base) s) ∨
    (s.status.f = false ∧ 2 ≤ s.base.toNat ∧
      t = complete s ((digits s.base.toNat value.toNat).map fun r => (Tag.chr, zext64 (readEntry s.ct r)))) := by
  obtain h | ⟨hf, h⟩ := unlessFaulted_next h
  · exact .inl h
  · refine .inr ?_
    split at h <;> rename_i hb
    · exact .inl ⟨hf, hb, ((raise_next _ _ _ _).1 h).symm⟩
    · exact .inr ⟨hf, by omega, ((finish_next _ _ _).1 h).symm⟩

theorem execNbegin_cases {s t : State} (h : execNbegin s = .next t) :
    (s.status.f = true ∧ t = s) ∨
    (s.status.f = false ∧ s.base.toNat < 2 ∧ t = enterFault 0x21 (.invalidCharset s.base) s) ∨
    (s.status.f = false ∧ 2 ≤ s.base.toNat ∧
      t = complete ((s.setNumeral 0 1).setStatus s.status.openNumeral) []) := by
  obtain h | ⟨hf, h⟩ := unlessFaulted_next h
  · exact .inl h
  · refine .inr ?_
    split at h <;> rename_i hb
    · exact .inl ⟨hf, hb, ((raise_next _ _ _ _).1 h).symm⟩
    · exact .inr ⟨hf, by omega, ((finish_next _ _ _).1 h).symm⟩

theorem execNsym_cases {ch : CharCode} {s t : State} (h : execNsym ch s = .next t) :
    (s.status.f = true ∧ t = s) ∨
    (s.status.f = false ∧ s.status.nact = false ∧ t = enterFault 0x22 .sequenceError s) ∨
    (s.status.f = false ∧ s.status.nact = true ∧ lookup s.ct s.base.toNat ch = none ∧
      t = enterFault 0x22 (.invalidSymbol ch) s) ∨
    (∃ i, s.status.f = false ∧ s.status.nact = true ∧ lookup s.ct s.base.toNat ch = some i ∧ addDigit s i = none ∧
      t = enterFault 0x22 (.numeralRange ch) s) ∨
    (∃ i nacc, s.status.f = false ∧ s.status.nact = true ∧ lookup s.ct s.base.toNat ch = some i ∧
      addDigit s i = some nacc ∧
      t = complete ((s.setNumeral nacc (BitVec.ofNat 64 (nextWeight s))).setStatus
        (s.status.noteWeight (nextWeight s))) []) := by
  obtain h | ⟨hf, h⟩ := unlessFaulted_next h
  · exact .inl h
  · refine .inr ?_
    split at h <;> rename_i hn
    · refine .inr ?_
      split at h
      · next hl => exact .inl ⟨hf, hn, hl, ((raise_next _ _ _ _).1 h).symm⟩
      · next i hl =>
        refine .inr ?_
        split at h
        · next ha => exact .inl ⟨i, hf, hn, hl, ha, ((raise_next _ _ _ _).1 h).symm⟩
        · next nacc ha => exact .inr ⟨i, nacc, hf, hn, hl, ha, ((finish_next _ _ _).1 h).symm⟩
    · exact .inl ⟨hf, by simpa using hn, ((raise_next _ _ _ _).1 h).symm⟩

theorem execNend_cases {s t : State} (h : execNend s = .next t) :
    (s.status.f = true ∧ t = s) ∨
    (s.status.f = false ∧ s.status.nact = false ∧ t = enterFault 0x23 .sequenceError s) ∨
    (s.status.f = false ∧ s.status.nact = true ∧
      t = complete (s.setStatus s.status.closeNumeral) [(Tag.num, s.nacc)]) := by
  obtain h | ⟨hf, h⟩ := unlessFaulted_next h
  · exact .inl h
  · refine .inr ?_
    split at h <;> rename_i hn
    · exact .inr ⟨hf, hn, ((finish_next _ _ _).1 h).symm⟩
    · exact .inl ⟨hf, by simpa using hn, ((raise_next _ _ _ _).1 h).symm⟩

theorem execRdreg_cases {r : BitVec 8} {s t : State} (h : execRdreg r s = .next t) :
    (∃ d, readReg s r.toNat = some d ∧ t = complete s [(Tag.reg, d)]) ∨
    (readReg s r.toNat = none ∧ s.status.f = true ∧ t = s) ∨
    (readReg s r.toNat = none ∧ s.status.f = false ∧ t = enterFault 0x30 (.illegalOperand (zext64 r)) s) := by
  unfold execRdreg at h
  split at h
  · next d hd => exact .inl ⟨d, hd, ((finish_next _ _ _).1 h).symm⟩
  · next hd =>
    obtain ⟨hf, ht⟩ | ⟨hf, h⟩ := unlessFaulted_next h
    · exact .inr (.inl ⟨hd, hf, ht⟩)
    · exact .inr (.inr ⟨hd, hf, ((raise_next _ _ _ _).1 h).symm⟩)

theorem execClrf_cases {s t : State} (h : execClrf s = .next t) : t = complete (leaveFault s) [] :=
  ((finish_next _ _ _).1 h).symm

theorem execIllegal_cases {c : CmdWord} {s t : State} (h : execIllegal c s = .next t) :
    (s.status.f = true ∧ t = s) ∨
    (s.status.f = false ∧ t = enterFault (opField c) (.illegalCommand (argField c)) s) := by
  obtain h | ⟨hf, h⟩ := unlessFaulted_next h
  · exact .inl h
  · injection h with h
    exact .inr ⟨hf, h.symm⟩

/-- Accepting a word runs the command it selects, or raises IllegalCommand. -/
theorem accept_cases {c : CmdWord} {s t : State} (h : accept c s = .next t) :
    (∃ i, decode c = .ok i ∧ exec i s = .next t) ∨ (∃ e, decode c = .error e ∧ execIllegal c s = .next t) := by
  unfold accept at h
  split at h
  · next i hi => exact .inl ⟨i, hi, h⟩
  · next e he => exact .inr ⟨e, he, h⟩

theorem popItem_cases {s t : State} (h : popItem s = .next t) : ∃ item rest, s.oq = item :: rest ∧ t = s.setQueue rest := by
  unfold popItem at h
  split at h
  · cases h
  · next item rest hq =>
    injection h with h
    exact ⟨item, rest, hq, h.symm⟩

/-- Everything a step can do: idle, or one of the host's three moves (10_state.md R45). -/
theorem step_cases {s t : State} (h : step s = .next t) :
    (s.host = [] ∧ t = s) ∨
    (∃ c rest, s.host = .issue c :: rest ∧ accept c (s.setHost rest) = .next t) ∨
    (∃ item q rest, s.host = .pop :: rest ∧ s.oq = item :: q ∧ t = (s.setHost rest).setQueue q) ∨
    (∃ rest, s.host = .reset :: rest ∧ t = assertReset (s.setHost rest)) := by
  unfold step advance takeMove at h
  cases hh : s.host with
  | nil =>
    simp only [hh] at h
    injection h with h
    exact .inl ⟨rfl, h.symm⟩
  | cons m rest =>
    simp only [hh] at h
    cases m with
    | issue c => exact .inr (.inl ⟨c, rest, rfl, h⟩)
    | pop =>
      obtain ⟨item, q, hq, ht⟩ := popItem_cases h
      exact .inr (.inr (.inl ⟨item, q, rest, rfl, hq, ht⟩))
    | reset =>
      simp only [hostMove] at h
      injection h with h
      exact .inr (.inr (.inr ⟨rest, rfl, h.symm⟩))

end Sys2Proof.Machine
end

