-- ==== Sys2Proof/Laws/Loops.lean ====
section
/-! SUPPORT. What the two loops compute: the symbol values of `BPUT` (42_bitpacker.md R151) and the digits of `NGEN`
(41_numeral.md R131). -/

namespace Sys2Proof.Machine

/-- The loop of `BPUT`, said once: from `n` pending bits `buf`, the successive `w`-bit values from the most significant
end, and the last `n % w` bits left pending. -/
theorem packLoop_eq (k w buf n : Nat) (hw : 1 ≤ w) (hk : n ≤ k) (hb : buf < 2 ^ n) :
    packLoop k w buf n =
      { vals := (List.range (n / w)).map fun j => buf / 2 ^ (n - (j + 1) * w) % 2 ^ w
        buf := buf % 2 ^ (n % w)
        n := n % w } := by
  induction k generalizing buf n with
  | zero =>
    obtain rfl : n = 0 := by omega
    simp at hb
    simp [packLoop, hb]
  | succ k ih =>
    by_cases hn : n < w
    · have h₁ : n / w = 0 := Nat.div_eq_of_lt hn
      simp [packLoop, hn, h₁, Nat.mod_eq_of_lt hn, Nat.mod_eq_of_lt hb]
    · have hle : w ≤ n := by omega
      have hdiv : n / w = (n - w) / w + 1 := by
        rw [Nat.div_eq_sub_div (by omega) hle]
      have hmod : n % w = (n - w) % w := by
        rw [Nat.mod_eq_sub_mod hle]
      have hm : (n - w) % w ≤ n - w := Nat.mod_le _ _
      have hlt : buf % 2 ^ (n - w) < 2 ^ (n - w) := Nat.mod_lt _ (Nat.two_pow_pos _)
      simp only [packLoop, hn, if_false, and_mask]
      rw [ih _ _ (by omega) hlt, hdiv, hmod, List.range_succ_eq_map]
      simp only [List.map_cons, List.map_map, Nat.shiftRight_eq_div_pow, Packed.mk.injEq, and_true, List.cons.injEq]
      refine ⟨⟨by simp, List.map_congr_left fun j hj => ?_⟩, ?_⟩
      · have hj' : j + 1 ≤ (n - w) / w := by simpa using hj
        have hjw : (j + 1) * w ≤ n - w := Nat.le_trans (Nat.mul_le_mul_right w hj') (Nat.div_mul_le_self _ _)
        have e₁ : n - (j + 1 + 1) * w = n - w - (j + 1) * w := by
          rw [Nat.add_mul (j + 1) 1 w]; omega
        have e₂ : 2 ^ (n - w) = 2 ^ (n - w - (j + 1) * w) * 2 ^ ((j + 1) * w) := by
          rw [← Nat.pow_add]; congr 1; omega
        have e₃ : 2 ^ w ∣ 2 ^ ((j + 1) * w) := Nat.pow_dvd_pow 2 (Nat.le_mul_of_pos_left w (by omega))
        simp only [Function.comp_apply, Nat.succ_eq_add_one, e₁]
        rw [e₂, Nat.mod_mul_right_div_self, Nat.mod_mod_of_dvd _ e₃]
      · exact Nat.mod_mod_of_dvd _ (Nat.pow_dvd_pow 2 hm)

/-- The buffer of `BPUT`: the pending bits above the masked input (R151). -/
theorem appendBits_eq (s : State) (v : BitVec 32) (iw : BitVec 6) :
    appendBits s v iw = s.acc.toNat * 2 ^ iw.toNat + v.toNat % 2 ^ iw.toNat := by
  have hm : v.toNat % 2 ^ iw.toNat < 2 ^ iw.toNat := Nat.mod_lt _ (Nat.two_pow_pos _)
  rw [appendBits, maskedInput_eq, ← Nat.shiftLeft_add_eq_or_of_lt hm, Nat.shiftLeft_eq]

theorem appendBits_lt {s : State} (v : BitVec 32) (iw : BitVec 6) (ha : s.acc.toNat < 2 ^ s.cnt.toNat) :
    appendBits s v iw < 2 ^ (s.cnt.toNat + iw.toNat) := by
  have hm : v.toNat % 2 ^ iw.toNat < 2 ^ iw.toNat := Nat.mod_lt _ (Nat.two_pow_pos _)
  have h := Nat.mul_le_mul_right (2 ^ iw.toNat) (Nat.succ_le_of_lt ha)
  rw [appendBits_eq, Nat.pow_add]
  rw [Nat.succ_mul] at h
  omega

/-- What a `BPUT` of legal width computes on a constructed packer whose ACC holds CNT bits. -/
theorem packed_eq {s : State} (v : BitVec 32) (iw : BitVec 6) (hw : 1 ≤ s.w.toNat) (hi : iw.toNat ≤ 32)
    (ha : s.acc.toNat < 2 ^ s.cnt.toNat) :
    packed s v iw =
      { vals := (List.range ((s.cnt.toNat + iw.toNat) / s.w.toNat)).map fun j =>
          appendBits s v iw / 2 ^ (s.cnt.toNat + iw.toNat - (j + 1) * s.w.toNat) % 2 ^ s.w.toNat
        buf := appendBits s v iw % 2 ^ ((s.cnt.toNat + iw.toNat) % s.w.toNat)
        n := (s.cnt.toNat + iw.toNat) % s.w.toNat } :=
  packLoop_eq _ _ _ _ hw (by have := s.cnt.isLt; simp only [packTurns]; omega) (appendBits_lt v iw ha)

theorem digitLoop_eq (k base v : Nat) (ds : List Nat) (hb : 2 ≤ base) (hv : v ≠ 0) (hk : v < base ^ k) :
    digitLoop k base v ds = (Nat.digits base v).reverse ++ ds := by
  induction k generalizing v ds with
  | zero => simp at hk; omega
  | succ k ih =>
    have hd : Nat.digits base v = v % base :: Nat.digits base (v / base) :=
      Nat.digits_def' (by omega) (by omega)
    by_cases hq : v / base = 0
    · simp [digitLoop, hq, hd]
    · have : v / base < base ^ k := by
        rw [Nat.div_lt_iff_lt_mul (by omega)]
        simpa [Nat.pow_succ] using hk
      simp [digitLoop, hq, hd, ih _ _ hq this]

/-- The digits of `NGEN`: the single digit 0 for the value 0, else the base's digits, most significant first and
without a leading zero. -/
theorem digits_eq (base value : Nat) (hb : 2 ≤ base) (hv : value < 2 ^ 64) :
    digits base value = if value = 0 then [0] else (Nat.digits base value).reverse := by
  split
  · next h =>
    subst h
    simp [digits, digitTurns, digitLoop]
  · next h =>
    have : value < base ^ 64 := Nat.lt_of_lt_of_le hv (Nat.pow_le_pow_left hb 64)
    simp [digits, digitTurns, digitLoop_eq _ _ _ _ hb h this]

/-- Every digit indexes an entry of the charset: entries at BASE and above are never read (R131). -/
theorem digits_lt (base value : Nat) (hb : 2 ≤ base) (hv : value < 2 ^ 64) : ∀ r ∈ digits base value, r < base := by
  intro r hr
  rw [digits_eq base value hb hv] at hr
  split at hr
  · simp at hr; omega
  · exact Nat.digits_lt_base (by omega) (List.mem_reverse.1 hr)

/-- At least one digit is generated (R131). -/
theorem digits_ne_nil (base value : Nat) (hb : 2 ≤ base) (hv : value < 2 ^ 64) : digits base value ≠ [] := by
  rw [digits_eq base value hb hv]
  split
  · simp
  · next h => simpa [Nat.digits_ne_nil_iff_ne_zero] using h

end Sys2Proof.Machine
end

