-- ==== Sys2Proof/Laws/PerInstr.lean ====
section
/-! SUPPORT. Statements about every instruction as syntax, one lemma per constructor. -/

namespace Sys2Proof.Laws.SelectedByMask

/-- The match and mask of an instruction's row (30_encoding.md R89). -/
def row : Instr → CmdWord × CmdWord
  | .binit _ => (0x010000000000000000, 0xFFFFFFFFFFFFFFFFC0)
  | .bput _ _ => (0x020000000000000000, 0xFFFFFFFFC000000000)
  | .bflush => (0x030000000000000000, 0xFFFFFFFFFFFFFFFFFF)
  | .clen _ => (0x100000000000000000, 0xFFFFFFFFFFFFFFFE00)
  | .cset _ _ => (0x110000000000000000, 0xFFFFFFFF00FFE00000)
  | .cget _ => (0x120000000000000000, 0xFFFFFFFF00FFFFFFFF)
  | .cbits => (0x130000000000000000, 0xFFFFFFFFFFFFFFFFFF)
  | .ngen _ => (0x200000000000000000, 0xFF0000000000000000)
  | .nbegin => (0x210000000000000000, 0xFFFFFFFFFFFFFFFFFF)
  | .nsym _ => (0x220000000000000000, 0xFFFFFFFFFFFFE00000)
  | .nend => (0x230000000000000000, 0xFFFFFFFFFFFFFFFFFF)
  | .rdreg _ => (0x300000000000000000, 0xFFFFFFFFFFFFFFFF00)
  | .clrf => (0x310000000000000000, 0xFFFFFFFFFFFFFFFFFF)

/-- The encoded instruction has its row's match under its row's mask: opcode right, reserved bits zero (R82, R89). -/
def Statement (i : Instr) : Prop := encode i &&& (row i).2 = (row i).1

theorem binit (w : BitVec 6) : Statement (.binit w) := by
  show (0x01#8 ++ (0#58 ++ w)) &&& (0xFF#8 ++ (BitVec.allOnes 58 ++ 0#6)) = 0x01#8 ++ (0#58 ++ 0#6)
  simp only [BitVec.and_append, BitVec.zero_and, BitVec.and_zero]
  rfl

theorem bput (v : BitVec 32) (iw : BitVec 6) : Statement (.bput v iw) := by
  show (0x02#8 ++ (0#26 ++ iw ++ v)) &&& (0xFF#8 ++ (BitVec.allOnes 26 ++ 0#6 ++ 0#32)) = 0x02#8 ++ (0#26 ++ 0#6 ++ 0#32)
  simp only [BitVec.and_append, BitVec.zero_and, BitVec.and_zero]
  rfl

theorem bflush : Statement .bflush := rfl

theorem clen (n : BitVec 9) : Statement (.clen n) := by
  show (0x10#8 ++ (0#55 ++ n)) &&& (0xFF#8 ++ (BitVec.allOnes 55 ++ 0#9)) = 0x10#8 ++ (0#55 ++ 0#9)
  simp only [BitVec.and_append, BitVec.zero_and, BitVec.and_zero]
  rfl

theorem cset (idx : BitVec 8) (ch : CharCode) : Statement (.cset idx ch) := by
  show (0x11#8 ++ (0#24 ++ idx ++ 0#11 ++ ch)) &&& (0xFF#8 ++ (BitVec.allOnes 24 ++ 0#8 ++ BitVec.allOnes 11 ++ 0#21)) = 0x11#8 ++ (0#24 ++ 0#8 ++ 0#11 ++ 0#21)
  simp only [BitVec.and_append, BitVec.zero_and, BitVec.and_zero]
  rfl

theorem cget (idx : BitVec 8) : Statement (.cget idx) := by
  show (0x12#8 ++ (0#24 ++ idx ++ 0#32)) &&& (0xFF#8 ++ (BitVec.allOnes 24 ++ 0#8 ++ BitVec.allOnes 32)) = 0x12#8 ++ (0#24 ++ 0#8 ++ 0#32)
  simp only [BitVec.and_append, BitVec.zero_and, BitVec.and_zero]
  rfl

theorem cbits : Statement .cbits := rfl

theorem ngen (value : BitVec 64) : Statement (.ngen value) := by
  show (0x20#8 ++ value) &&& (0xFF#8 ++ 0#64) = 0x20#8 ++ 0#64
  simp only [BitVec.and_append, BitVec.and_zero]
  rfl

theorem nbegin : Statement .nbegin := rfl

theorem nsym (ch : CharCode) : Statement (.nsym ch) := by
  show (0x22#8 ++ (0#43 ++ ch)) &&& (0xFF#8 ++ (BitVec.allOnes 43 ++ 0#21)) = 0x22#8 ++ (0#43 ++ 0#21)
  simp only [BitVec.and_append, BitVec.zero_and, BitVec.and_zero]
  rfl

theorem nend : Statement .nend := rfl

theorem rdreg (r : BitVec 8) : Statement (.rdreg r) := by
  show (0x30#8 ++ (0#56 ++ r)) &&& (0xFF#8 ++ (BitVec.allOnes 56 ++ 0#8)) = 0x30#8 ++ (0#56 ++ 0#8)
  simp only [BitVec.and_append, BitVec.zero_and, BitVec.and_zero]
  rfl

theorem clrf : Statement .clrf := rfl

end Sys2Proof.Laws.SelectedByMask
end

