-- ==== Sys2Proof/Tests/Slice0.lean ====
section
/-! SUPPORT. The author's tests. Expected values come from spec/: the words and examples of 30_encoding.md, 40_charset.md,
41_numeral.md, 42_bitpacker.md, 44_system.md, the vectors of 95_test_vectors.md, or a calculation by hand from a rule named.
The theorems `witness_<statement>_...` show concrete states and operands that meet a statement's hypotheses. -/

namespace Sys2Proof.Tests

open Sys2Proof.Machine Sys2Proof.Safety

/-! ### States and helpers -/

/-- The one step of a command, seen by a test. -/
def after (i : Instr) (s : State) (p : State → Bool) : Bool :=
  match exec i s with
  | .next t => p t
  | .fault _ => false
  | .refused _ => false

/-- The outcome is a next state that passes the test. -/
def nextIs (r : Result) (p : State → Bool) : Bool :=
  match r with
  | .next t => p t
  | .fault _ => false
  | .refused _ => false

/-- The exception code in a state that has just faulted. -/
def faultCode (t : State) : Option (BitVec 8) := if t.status.f then some (t.cause.extractLsb' 0 8) else none

/-- A table from a list of codes, from index 0 on. -/
def tableOf (cs : List CharCode) : Memory := (List.range cs.length).zip cs

/-- "0123456789abcdef". -/
def hexDigits : List CharCode := codeRange 0x30 10 ++ codeRange 0x61 6

/-- The state with BASE = 16 and its table, no conversion open. -/
def hex : State := { State.reset with base := 16, ct := tableOf hexDigits }

/-- A conversion is open over `hex`. -/
def hexOpen : State := { hex with status := { f := false, nact := true, povf := false } }

/-- Two symbols "01". -/
def binary : State := { State.reset with base := 2, ct := tableOf [0x30, 0x31] }

/-- A conversion is open over `binary`. -/
def binaryOpen : State := { binary with status := { f := false, nact := true, povf := false } }

/-- 256 different codes. -/
def bytes : List CharCode := (List.range 256).map (BitVec.ofNat 21)

/-- The largest BASE, its table full. -/
def full : State := { State.reset with base := 256, ct := tableOf bytes }

/-- The Bit Packer constructed with width 6, nothing pending. -/
def six : State := { State.reset with w := 6 }

/-- The Bit Packer with the largest width and as many bits pending as it can hold. -/
def brim : State := { State.reset with w := 32, iw := 32, acc := 0x7FFFFFFF, cnt := 31 }

/-- The Bit Packer with the smallest width. -/
def one : State := { State.reset with w := 1 }

/-- Fault state, with items that were pushed later. -/
def faulted : State :=
  { State.reset with
    status := { f := true, nact := false, povf := false }, cause := 0x0207,
    oq := [{ last := true, tag := .reg, data := 0x0207 }] }

/-! ### Well-formed operands (R86) -/

theorem test_wf_refuses_binit_0 : (Instr.binit 0).wellFormed = false := by decide
theorem test_wf_refuses_binit_33 : (Instr.binit 33).wellFormed = false := by decide
theorem test_wf_refuses_bput_0 : (Instr.bput 1 0).wellFormed = false := by decide
theorem test_wf_refuses_bput_33 : (Instr.bput 1 33).wellFormed = false := by decide
theorem test_wf_refuses_clen_257 : (Instr.clen 257).wellFormed = false := by decide
theorem test_wf_refuses_rdreg_14 : (Instr.rdreg 14).wellFormed = false := by decide
theorem test_wf_accepts_the_bounds :
    (Instr.binit 1).wellFormed = true ∧ (Instr.binit 32).wellFormed = true ∧ (Instr.bput 0 1).wellFormed = true ∧
    (Instr.bput 0 32).wellFormed = true ∧ (Instr.clen 0).wellFormed = true ∧ (Instr.clen 256).wellFormed = true ∧
    (Instr.rdreg 13).wellFormed = true := by decide

/-! ### Words written out by the spec (the examples of R110 to R113, R131 to R134, R150 to R152, R170, R171) -/

theorem test_decode_packer :
    decode 0x010000000000000006 = .ok (.binit 6) ∧ decode 0x02000000080000004D = .ok (.bput 0x4D 8) ∧
    decode 0x030000000000000000 = .ok .bflush := by decide
theorem test_decode_charset :
    decode 0x100000000000000040 = .ok (.clen 64) ∧ decode 0x110000003E0000002B = .ok (.cset 62 0x2B) ∧
    decode 0x120000001A00000000 = .ok (.cget 26) ∧ decode 0x130000000000000000 = .ok .cbits := by decide
theorem test_decode_numeral :
    decode 0x2000000000000000FF = .ok (.ngen 255) ∧ decode 0x210000000000000000 = .ok .nbegin ∧
    decode 0x220000000000000066 = .ok (.nsym 0x66) ∧ decode 0x230000000000000000 = .ok .nend := by decide
theorem test_decode_system :
    decode 0x30000000000000000D = .ok (.rdreg 13) ∧ decode 0x310000000000000000 = .ok .clrf := by decide
/-- R90: the all-zero and the all-one word, and a reserved bit of each of the formats W, T (both gaps), Z. -/
theorem test_decode_illegal :
    decode 0x000000000000000000 = .error (.undefinedOpcode 0) ∧
    decode 0xFFFFFFFFFFFFFFFFFF = .error (.undefinedOpcode 0xFF) ∧
    decode 0x010000000000000046 = .error (.reservedBits 0x01) ∧
    decode 0x110000013E0000002B = .error (.reservedBits 0x11) ∧
    decode 0x110000003E0020002B = .error (.reservedBits 0x11) ∧
    decode 0x318000000000000000 = .error (.reservedBits 0x31) := by
  refine ⟨?_, ?_, ?_, ?_, ?_, ?_⟩ <;> decide
theorem test_encode_fields :
    encode (.bput 0x4D 8) = 0x02000000080000004D ∧ encode (.cset 62 0x2B) = 0x110000003E0000002B := by decide
theorem test_decodeTableWord :
    decodeTableWord 72 0x30000000000000000D = some (.rdreg 13) ∧ decodeTableWord 72 0 = none ∧
    decodeTableWord 80 0x30000000000000000D = none := by decide

/-! ### One step each -/

/-- R150's example, and that pending bits are dropped. -/
theorem test_binit :
    after (.binit 6) brim (fun t => t.w == 6 && t.iw == 0 && t.acc == 0 && t.cnt == 0 && t.cmdcnt == 1) = true := by
  decide
theorem test_binit_33 : after (.binit 33) brim (fun t => faultCode t == some 6 && t.tval == 33 && t.w == 32) = true := by
  decide
/-- R151's example. -/
theorem test_bput :
    after (.bput 0x4D 8) six (fun t => t.oq == [{ last := true, tag := .val, data := 19 }] && t.acc == 1 && t.cnt == 2 &&
      t.iw == 8) = true := by decide
/-- R151: the bits of v above iw have no effect; five pending ones and a zero make the symbol 0b111110. -/
theorem test_bput_masks :
    after (.bput 0xFFFFFFFE 1) { six with cnt := 5, acc := 0x1F } (fun t =>
      t.oq == [{ last := true, tag := .val, data := 0x3E }] && t.acc == 0 && t.cnt == 0) = true := by decide
/-- R152's example. -/
theorem test_bflush :
    after .bflush { six with iw := 8, acc := 1, cnt := 2 } (fun t =>
      t.oq == [{ last := true, tag := .val, data := 16 }] && t.acc == 0 && t.cnt == 0 && t.w == 6 && t.iw == 8) = true := by
  decide
theorem test_bflush_none :
    after .bflush six (fun t => t.oq == [{ last := true, tag := .none, data := 0 }]) = true := by decide
/-- R110's example. -/
theorem test_clen :
    after (.clen 64) { hex with bps := 4 } (fun t => t.base == 64 && t.bps == 0 && t.ct == hex.ct) = true := by decide
theorem test_clen_open :
    after (.clen 300) hexOpen (fun t => t.cause == 0x1007 && t.tval == 0 && t.status.nact == false) = true := by decide
/-- R111's example. -/
theorem test_cset : after (.cset 62 0x2B) State.reset (fun t => readEntry? t.ct 62 == some 0x2B) = true := by decide
theorem test_cset_keeps_order :
    after (.cset 1 0x42) { State.reset with ct := [(0, 0x40), (2, 0x43)] } (fun t =>
      t.ct == [(0, 0x40), (1, 0x42), (2, 0x43)]) = true := by decide
theorem test_cget :
    after (.cget 15) hex (fun t => t.oq == [{ last := true, tag := .chr, data := 0x66 }]) = true := by decide
/-- R113's examples. -/
theorem test_cbits :
    after .cbits { State.reset with base := 32 } (fun t =>
      t.oq == [{ last := true, tag := .num, data := 5 }] && t.bps == 5) = true := by decide
theorem test_cbits_hints :
    after .cbits { State.reset with base := 3 } (fun t => t.cause == 0x1302 && t.tval == 0x0000000400000002) = true := by
  decide
/-- R131's example. -/
theorem test_ngen :
    after (.ngen 255) hex (fun t => t.oq ==
      [{ last := false, tag := .chr, data := 0x66 }, { last := true, tag := .chr, data := 0x66 }]) = true := by decide
/-- 2 · 16 + 10, most significant first. -/
theorem test_ngen_order :
    after (.ngen 42) hex (fun t => t.oq ==
      [{ last := false, tag := .chr, data := 0x32 }, { last := true, tag := .chr, data := 0x61 }]) = true := by decide
/-- R132's example. -/
theorem test_nbegin :
    after .nbegin { hex with nacc := 7, npow := 9 } (fun t =>
      t.nacc == 0 && t.npow == 1 && statusWord t.status == 0b010) = true := by decide
theorem test_nbegin_base_1 :
    after .nbegin { State.reset with base := 1 } (fun t => t.cause == 0x2101 && t.tval == 1) = true := by decide
/-- R133's example, the second symbol. -/
theorem test_nsym :
    after (.nsym 0x66) { hexOpen with nacc := 15, npow := 16 } (fun t => t.nacc == 255 && t.npow == 256) = true := by
  decide
/-- The weight 16^15 · 16 = 2^64 sets POVF and leaves 0 (R133). -/
theorem test_nsym_overflowing_weight :
    after (.nsym 0x30) { hexOpen with npow := 0x1000000000000000 } (fun t =>
      t.npow == 0 && statusWord t.status == 0b110) = true := by decide
theorem test_nend :
    after .nend { hexOpen with nacc := 255 } (fun t =>
      t.oq == [{ last := true, tag := .num, data := 255 }] && statusWord t.status == 0 && t.nacc == 255) = true := by decide
theorem test_nend_closed : after .nend hex (fun t => t.cause == 0x2307) = true := by decide
/-- R170's examples: NPOW after reset; a number without a register. -/
theorem test_rdreg :
    after (.rdreg 13) State.reset (fun t => t.oq == [{ last := true, tag := .reg, data := 1 }]) = true := by decide
theorem test_rdreg_14 : after (.rdreg 14) State.reset (fun t => t.cause == 0x3006 && t.tval == 14) = true := by decide
/-- R171's example. -/
theorem test_clrf :
    after .clrf faulted (fun t => statusWord t.status == 0 && t.cause == 0x0207 && t.oq == faulted.oq) = true := by decide
/-- R35: the command counter wraps silently. -/
theorem test_cmdcnt_wraps : after .clrf { State.reset with cmdcnt := 0xFFFFFFFF } (fun t => t.cmdcnt == 0) = true := by
  decide
/-- R37, R36, R38: the layouts of BPCFG, ID and CAP. -/
theorem test_registers :
    readReg brim 7 = some 0x2020 ∧ readReg brim 0 = some 0x0000000042584507 ∧
    readReg brim 1 = some 0x0000010020201540 := by decide
/-- R66: last above tag above data; the five codes. -/
theorem test_item_word :
    Item.word { last := true, tag := .none, data := 0 } = 0xC0000000000000000 ∧
    Item.word { last := false, tag := .reg, data := 5 } = 0x30000000000000005 ∧
    Item.word { last := false, tag := .val, data := 5 } = 0x00000000000000005 ∧
    Item.word { last := false, tag := .chr, data := 5 } = 0x10000000000000005 ∧
    Item.word { last := true, tag := .num, data := 5 } = 0xA0000000000000005 := by decide

/-! ### The step -/

theorem test_step_runs_fetched_word :
    nextIs (step (State.reset.withFetchWord 72 0x010000000000000006)) (fun t => t.w == 6 && t.host == []) = true := by
  decide
theorem test_core_reset : Sys2Proof.core.reset = State.reset := rfl
theorem test_reset_keeps_table :
    nextIs (step { hex with w := 6, cause := 0x0207, host := [.reset] }) (fun t =>
      t == { State.reset with ct := hex.ct }) = true := by decide
/-- The free value stays free: an entry never written reads as `Config.powerUpCode`. -/
theorem test_unwritten_entry : readEntry State.reset.ct 3 = Config.powerUpCode 3 := rfl

/-! ### The host's software -/

theorem test_named_charsets :
    base32Charset.length = 32 ∧ base64Charset.length = 64 ∧ base64Charset[26]? = some 0x61 ∧
    base64Charset[63]? = some 0x2F ∧ base64UrlCharset[62]? = some 0x2D ∧ base32Charset[26]? = some 0x32 := by decide
theorem test_assembler :
    assembleLine "RDREG STATUS".toList = .ok (some (.rdreg 2)) ∧ assembleLine "BPUT 0x4D, 8".toList = .ok (some (.bput 0x4D 8)) ∧
    assembleLine "CSET 62, '+'".toList = .ok (some (.cset 62 0x2B)) := by decide

/-! ### Sound states -/

theorem sound_six : Sound six := by
  constructor <;> simp [six, State.reset, Memory.wf]

theorem sound_one : Sound one := by
  constructor <;> simp [one, State.reset, Memory.wf]

theorem sound_brim : Sound brim := by
  constructor <;> simp [brim, State.reset, Memory.wf]

theorem sound_binaryOpen : Sound binaryOpen := by
  refine ⟨by decide, by decide, by decide, by decide, by decide, fun _ _ => ⟨0, by decide, by decide⟩, by decide,
    by simp [binaryOpen, binary, State.reset], by simp [binaryOpen, binary, State.reset],
    by simp [binaryOpen, binary, State.reset]⟩

theorem sound_faulted : Sound faulted := by
  constructor <;> simp [faulted, State.reset, Memory.wf, itemOk]

/-! ### Different codes -/

theorem distinct_binary : DistinctSymbols binary := by
  intro i hi j hj h
  have hi' : i < 2 := hi
  have hj' : j < 2 := hj
  revert h
  interval_cases i <;> interval_cases j <;> decide

theorem readEntry_full : ∀ i < 256, readEntry full.ct i = BitVec.ofNat 21 i := by decide +kernel

theorem distinct_full : DistinctSymbols full := by
  intro i hi j hj h
  have hi' : i < 256 := hi
  have hj' : j < 256 := hj
  rw [readEntry_full i hi', readEntry_full j hj'] at h
  have := congrArg BitVec.toNat h
  simp only [BitVec.toNat_ofNat] at this
  omega

theorem length_bytes : bytes.length = 256 := by simp [bytes]

/-! ### Witnesses, in the order of the statements -/

theorem witness_MaskSelectsCommand :
    (⟨0x10, 0x100000000000000000, 0xFFFFFFFFFFFFFFFE00⟩ : OpcodeRow) ∈ opcodeRows ∧
    (0x100000000000000040 : CmdWord) &&& 0xFFFFFFFFFFFFFFFE00 = 0x100000000000000000 := by decide

theorem witness_StepRunsDecodedCommand :
    ({ hex with host := [.issue 0x2000000000000000FF, .pop] } : State).host = .issue 0x2000000000000000FF :: [.pop] ∧
    decode 0x2000000000000000FF = .ok (.ngen 255) := by decide

/-- An undefined opcode, and a reserved bit of a defined one. -/
theorem witness_IllegalWordRaises :
    hexOpen.status.f = false ∧
    (∀ row ∈ opcodeRows, (0 : CmdWord) &&& row.maskBits ≠ row.matchBits) ∧
    (∀ row ∈ opcodeRows, (0xFFFFFFFFFFFFFFFFFF : CmdWord) &&& row.maskBits ≠ row.matchBits) ∧
    (∀ row ∈ opcodeRows, (0x010000000000000046 : CmdWord) &&& row.maskBits ≠ row.matchBits) := by decide

theorem witness_PopTakesHeadItem :
    ({ faulted with host := [.pop] } : State).host = .pop :: [] ∧
    faulted.oq = { last := true, tag := .reg, data := 0x0207 } :: [] ∧
    ({ hex with host := [.pop] } : State).oq = [] ∧ hex.host = [] := by decide

theorem witness_PortsShowState :
    faulted.oq = { last := true, tag := .reg, data := 0x0207 } :: [] ∧ hex.oq = [] := by decide

theorem witness_ResetMoveKeepsOnlyTable :
    ({ faulted with ct := hex.ct, host := [.reset] } : State).host = .reset :: [] := by decide

/-- A word that completes, one that faults, a pop. -/
theorem witness_StepKeepsInvariant :
    Sound brim ∧ nextIs (step { brim with host := [.issue 0x0200000020FFFFFFFF] }) (fun t => t.cnt == 31) = true ∧
    nextIs (step { brim with host := [.issue 0] }) (fun t => t.status.f) = true ∧
    Sound faulted ∧ nextIs (step { faulted with host := [.pop] }) (fun t => t.oq == []) = true :=
  ⟨sound_brim, by decide, by decide, sound_faulted, by decide⟩

theorem witness_BinitRule :
    brim.status.f = false ∧ (1 ≤ (1 : BitVec 6).toNat ∧ (1 : BitVec 6).toNat ≤ 32) ∧
    (1 ≤ (32 : BitVec 6).toNat ∧ (32 : BitVec 6).toNat ≤ 32) ∧ 32 < (33 : BitVec 6).toNat ∧
    32 < (63 : BitVec 6).toNat := by decide

/-- The clauses in order; for the last, the smallest and largest widths on both sides. -/
theorem witness_BputRule :
    (State.reset.w = 0 ∧ State.reset.status.f = false) ∧
    (six.w ≠ 0 ∧ six.status.f = false ∧ 32 < (33 : BitVec 6).toNat) ∧
    (Sound brim ∧ brim.w ≠ 0 ∧ brim.status.f = false ∧ 1 ≤ (32 : BitVec 6).toNat ∧ (32 : BitVec 6).toNat ≤ 32) ∧
    (Sound one ∧ one.w ≠ 0 ∧ one.status.f = false ∧ 1 ≤ (1 : BitVec 6).toNat ∧ (1 : BitVec 6).toNat ≤ 32) :=
  ⟨by decide, by decide, ⟨sound_brim, by decide⟩, ⟨sound_one, by decide⟩⟩

theorem witness_BflushRule :
    (State.reset.w = 0 ∧ State.reset.status.f = false) ∧ (six.w ≠ 0 ∧ six.cnt = 0 ∧ six.status.f = false) ∧
    (Sound brim ∧ brim.w ≠ 0 ∧ brim.cnt ≠ 0 ∧ brim.status.f = false) ∧
    (after .bflush brim (fun t => after .bflush t (fun _ => true)) = true) :=
  ⟨by decide, by decide, ⟨sound_brim, by decide⟩, by decide⟩

/-- Nothing fed; two symbols and a remainder of 4 bits; the smallest and the largest width. -/
theorem witness_BitStreamLaw :
    State.reset.status.f = false ∧ (runClean [.binit 6] State.reset).isSome = true ∧
    (runClean [.binit 6, .bput 0x4D 8, .clrf, .bput 0x61 8] State.reset).isSome = true ∧
    (runClean [.binit 1, .bput 5 3] State.reset).isSome = true ∧
    (runClean [.binit 32, .bput 5 32] State.reset).isSome = true ∧
    (∀ i ∈ [Instr.bput 0x4D 8, .clrf, .bput 0x61 8], leavesPackerStream i = true) := by decide

/-- Both ends of the range of w. -/
theorem witness_PackerIsLossless :
    State.reset.status.f = false ∧ brim.status.f = false ∧
    (1 ≤ (1 : BitVec 6).toNat ∧ (1 : BitVec 6).toNat ≤ 8) ∧ (1 ≤ (8 : BitVec 6).toNat ∧ (8 : BitVec 6).toNat ≤ 8) := by
  decide

theorem witness_ClenRule :
    (hexOpen.status.f = false ∧ hexOpen.status.nact = true) ∧
    (hex.status.f = false ∧ hex.status.nact = false ∧ (0 : BitVec 9).toNat ≤ 256 ∧ (256 : BitVec 9).toNat ≤ 256 ∧
      256 < (257 : BitVec 9).toNat ∧ 256 < (511 : BitVec 9).toNat) := by decide

theorem witness_CsetRule :
    (hexOpen.status.f = false ∧ hexOpen.status.nact = true) ∧
    (hex.status.f = false ∧ hex.status.nact = false ∧ Memory.wf hex.ct = true ∧ 255 ≠ (0 : BitVec 8).toNat) := by decide

theorem witness_CgetRule : hexOpen.status.f = false := by decide

/-- Lengths 0 and 1; 2 and 256; 3 and 255. -/
theorem witness_CbitsRule :
    State.reset.base.toNat < 2 ∧ ({ hex with base := 1 } : State).base.toNat < 2 ∧
    binary.base.toNat = 2 ^ 1 ∧ full.base.toNat = 2 ^ 8 ∧
    (2 ^ 1 < ({ hex with base := 3 } : State).base.toNat ∧ ({ hex with base := 3 } : State).base.toNat < 2 ^ 2) ∧
    (2 ^ 7 < ({ hex with base := 255 } : State).base.toNat ∧ ({ hex with base := 255 } : State).base.toNat < 2 ^ 8) := by
  decide

theorem witness_EqualTablesReadEqual :
    Memory.wf [(0, 0x41), (255, 0)] = true ∧ ∀ i, readEntry? [(0, 0x41), (255, 0)] i = readEntry? [(0, 0x41), (255, 0)] i :=
  ⟨by decide, fun _ => rfl⟩

/-- A CLEN, a pop, a reset, no move. -/
theorem witness_OnlyCsetWritesTable :
    (0x100000000000000040 : CmdWord).extractLsb' 64 8 ≠ 0x11#8 ∧
    nextIs (step { hex with host := [.issue 0x100000000000000040] }) (fun t => t.base == 64) = true ∧
    nextIs (step { faulted with host := [.pop] }) (fun _ => true) = true ∧
    nextIs (step { hex with host := [.reset] }) (fun _ => true) = true ∧ nextIs (step hex) (fun _ => true) = true := by
  decide

/-- One entry read by CGET is written, other entries differ. -/
theorem witness_WrittenEntriesDecideOutcome :
    readsOnlyWritten (.cget 0) { State.reset with ct := [(0, 0x41)] } = true ∧
    readsOnlyWritten (.ngen 255) hex = true ∧ readsOnlyWritten (.nsym 0x66) hexOpen = true ∧
    (∀ k ch, readEntry? [(0, 0x41)] k = some ch → readEntry? [(0, 0x41), (7, 0x42)] k = some ch) ∧
    after (.cget 0) { State.reset with ct := [(0, 0x41)] } (fun _ => true) = true := by
  refine ⟨by decide, by decide, by decide, ?_, by decide⟩
  intro k ch h
  simp only [readEntry?] at h ⊢
  split <;> simp_all

theorem witness_EntriesAboveBaseIgnored :
    (∀ k < binary.base.toNat, readEntry binary.ct k = readEntry (tableOf [0x30, 0x31, 0x32]) k) ∧
    after (.ngen 2) binary (fun _ => true) = true ∧ after (.nsym 0x32) binaryOpen (fun t => t.status.f) = true := by
  refine ⟨fun k hk => ?_, by decide, by decide⟩
  have hk' : k < 2 := hk
  interval_cases k <;> decide

theorem witness_NgenRule :
    State.reset.status.f = false ∧ State.reset.base.toNat < 2 ∧ binary.status.f = false ∧ 2 ≤ binary.base.toNat ∧
    full.status.f = false ∧ 2 ≤ full.base.toNat := by decide

/-- The value 0; the least value of 64 digits in base 2. -/
theorem witness_NumeralLength :
    binary.status.f = false ∧ 2 ≤ binary.base.toNat ∧ binary.base = 2 ∧ DistinctSymbols binary ∧
    after (.ngen 0) binary (fun t => t.oq.length == 1) = true ∧ 2 ^ 63 ≤ (0x8000000000000000 : Data).toNat ∧
    after (.ngen 0x8000000000000000) binary (fun t => t.oq.length == 64) = true :=
  ⟨by decide, by decide, by decide, distinct_binary, by decide, by decide, by decide +kernel⟩

theorem witness_NbeginRule :
    State.reset.status.f = false ∧ State.reset.base.toNat < 2 ∧ ({ hex with base := 1 } : State).base.toNat < 2 ∧
    binaryOpen.status.f = false ∧ 2 ≤ binaryOpen.base.toNat := by decide

/-- The digit 1 of `binary` has weight NPOW: the sum reaches 2^64 exactly, or is 2^64 − 1. A zero digit with POVF. -/
theorem witness_NsymRule :
    (hex.status.f = false ∧ hex.status.nact = false) ∧
    (binaryOpen.status.f = false ∧ binaryOpen.status.nact = true ∧ ∀ j < binaryOpen.base.toNat, readEntry binaryOpen.ct j ≠ 0x32) ∧
    LeastIndex binaryOpen 0x31 1 ∧ LeastIndex binaryOpen 0x30 0 ∧
    2 ^ 64 ≤ ({ binaryOpen with nacc := 0x8000000000000000, npow := 0x8000000000000000 } : State).nacc.toNat +
      1 * (0x8000000000000000 : Data).toNat ∧
    ({ binaryOpen with nacc := 0x7FFFFFFFFFFFFFFF, npow := 0x8000000000000000 } : State).nacc.toNat +
      1 * (0x8000000000000000 : Data).toNat < 2 ^ 64 ∧
    ({ binaryOpen with status := { f := false, nact := true, povf := true } } : State).status.povf = true := by
  refine ⟨by decide, ⟨by decide, by decide, ?_⟩, ⟨by decide, by decide, ?_⟩, ⟨by decide, by decide, by simp⟩, by decide,
    by decide, by decide⟩
  · intro j hj
    have hj' : j < 2 := hj
    interval_cases j <;> decide
  · intro j hj
    interval_cases j
    decide

theorem witness_NendRule :
    (hex.status.f = false ∧ hex.status.nact = false) ∧ (hexOpen.status.f = false ∧ hexOpen.status.nact = true) := by decide

/-- The smallest and the largest BASE. -/
theorem witness_NumeralRoundTrip :
    (binary.status.f = false ∧ 2 ≤ binary.base.toNat ∧ binary.base.toNat ≤ 256 ∧ DistinctSymbols binary) ∧
    (full.status.f = false ∧ 2 ≤ full.base.toNat ∧ full.base.toNat ≤ 256 ∧ DistinctSymbols full) :=
  ⟨⟨by decide, by decide, by decide, distinct_binary⟩, ⟨by decide, by decide, by decide, distinct_full⟩⟩

theorem least_hex_0 : LeastIndex hex 0x30 0 := ⟨by decide, by decide, by simp⟩

theorem least_hex_1 : LeastIndex hex 0x31 1 := ⟨by decide, by decide, fun j hj => by interval_cases j; decide⟩

theorem least_hex_15 : LeastIndex hex 0x66 15 := ⟨by decide, by decide, fun j hj => by interval_cases j <;> decide⟩

/-- Sixteen digits 15 have the sum 2^64 − 1; the digit 1 at position 16 has the value 2^64. -/
theorem witness_NumeralValueDelivered :
    hex.status.f = false ∧ 2 ≤ hex.base.toNat ∧
    List.Forall₂ (LeastIndex hex) (List.replicate 16 0x66) (List.replicate 16 15) ∧
    digitSum 16 (List.replicate 16 15) = 2 ^ 64 - 1 ∧
    List.Forall₂ (LeastIndex hex) (List.replicate 16 0x30 ++ [0x31]) (List.replicate 16 0 ++ [1]) ∧
    digitSum 16 (List.replicate 16 0 ++ [1]) = 2 ^ 64 := by
  refine ⟨by decide, by decide, ?_, by decide, ?_, by decide⟩
  · repeat (first | exact .nil | refine .cons least_hex_15 ?_)
  · repeat (first | exact .nil | refine .cons least_hex_0 ?_ | refine .cons least_hex_1 ?_)

theorem witness_RdregRule :
    (registerFile faulted)[(13 : BitVec 8).toNat]? = some 1 ∧
    (registerFile hex)[(0 : BitVec 8).toNat]? = some 0x0000000042584507 ∧
    13 < (14 : BitVec 8).toNat ∧ 13 < (255 : BitVec 8).toNat ∧ hex.status.f = false := by decide

/-- RDREG CAUSE and RDREG NPOW; CLRF; an illegal word, RDREG 14 and BINIT, which are discarded. -/
theorem witness_FaultStateDiscards :
    faulted.status.f = true ∧ decode 0x300000000000000003 = .ok (.rdreg 3) ∧
    (registerFile faulted)[(3 : BitVec 8).toNat]? = some 0x0207 ∧ (registerFile faulted)[(13 : BitVec 8).toNat]? = some 1 ∧
    decode 0x310000000000000000 = .ok .clrf ∧ decode 0 = .error (.undefinedOpcode 0) ∧
    decode 0x30000000000000000E = .ok (.rdreg 14) ∧ runsInFaultState (.rdreg 14) = false ∧
    runsInFaultState (.binit 6) = false := by decide

/-- A faulting word for each of the seven codes. -/
theorem witness_FaultCauses :
    nextIs (accept 0x210000000000000000 State.reset) (fun t => faultCode t == some 1) = true ∧
    nextIs (accept 0x130000000000000000 { hex with base := 3 }) (fun t => faultCode t == some 2) = true ∧
    nextIs (accept 0x220000000000000067 hexOpen) (fun t => faultCode t == some 3) = true ∧
    nextIs (accept 0x220000000000000031 { hexOpen with status := { f := false, nact := true, povf := true } })
      (fun t => faultCode t == some 4) = true ∧
    nextIs (accept 0 hexOpen) (fun t => faultCode t == some 5) = true ∧
    nextIs (accept 0x010000000000000021 hex) (fun t => faultCode t == some 6) = true ∧
    nextIs (accept 0x030000000000000000 hex) (fun t => faultCode t == some 7) = true := by decide

/-- Each of the four commands, at both ends of each illegal range. -/
theorem witness_IllegalOperandRaises :
    six.status.f = false ∧ six.w ≠ 0 ∧ six.status.nact = false ∧
    (Instr.binit 0).wellFormed = false ∧ (Instr.binit 33).wellFormed = false ∧ (Instr.binit 63).wellFormed = false ∧
    (Instr.bput 5 0).wellFormed = false ∧ (Instr.bput 5 33).wellFormed = false ∧ (Instr.bput 5 63).wellFormed = false ∧
    (Instr.clen 257).wellFormed = false ∧ (Instr.clen 511).wellFormed = false ∧
    (Instr.rdreg 14).wellFormed = false ∧ (Instr.rdreg 255).wellFormed = false := by decide

theorem witness_SequenceErrorRaises :
    (hex.status.f = false ∧ hex.w = 0 ∧ hex.status.nact = false) ∧ (hexOpen.status.f = false ∧ hexOpen.status.nact = true) := by
  decide

/-- Steps after which the registers named in the clauses differ. -/
theorem witness_RegisterWriters :
    after (.binit 6) brim (fun t => t.w != brim.w && t.iw != brim.iw && t.acc != brim.acc && t.cnt != brim.cnt) = true ∧
    after (.clen 3) { hex with bps := 4 } (fun t => t.base != hex.base && t.bps != 4) = true ∧
    after (.nsym 0x31) { hexOpen with npow := 0x1000000000000000 } (fun t =>
      t.nacc != hexOpen.nacc && t.npow != 0x1000000000000000 && t.status.povf) = true ∧
    after .bflush hexOpen (fun t => t.cause != 0 && t.status.f && !t.status.nact) = true ∧
    after (.cset 16 0x67) hex (fun t => readEntry? t.ct 16 != readEntry? hex.ct 16) = true := by decide

theorem witness_PackerAndConverterIndependent :
    after (.bput 0x4D 8) six (fun _ => true) = true ∧ after (.nsym 0x66) hexOpen (fun _ => true) = true := by decide

/-- A command that pushes nothing, one that pushes 32 items, one that pushes 64. -/
theorem witness_PushesOfCompletingCommand :
    (Sound six ∧ after (.bput 1 5) six (fun t => t.oq.length == 0 && t.cmdcnt != six.cmdcnt) = true) ∧
    (Sound one ∧ after (.bput 1 32) one (fun t => t.oq.length == 32 && t.cmdcnt != one.cmdcnt) = true) ∧
    (Sound binaryOpen ∧ after (.ngen 0xFFFFFFFFFFFFFFFF) binaryOpen (fun t =>
      t.oq.length == 64 && t.cmdcnt != binaryOpen.cmdcnt) = true) :=
  ⟨⟨sound_six, by decide⟩, ⟨sound_one, by decide +kernel⟩, ⟨sound_binaryOpen, by decide +kernel⟩⟩

theorem witness_LoadCharsetLoads :
    ([] : List CharCode).length ≤ 256 ∧ bytes.length = 256 ∧ State.reset.status.f = false ∧
    State.reset.status.nact = false := ⟨by decide, length_bytes, by decide⟩

theorem witness_LoadedCharsetIsWritten :
    ∃ t, runProc (loadCharset [0x30, 0x31]) State.reset = (.ok (), t) ∧ State.reset.status.f = false ∧
      State.reset.status.nact = false ∧ 2 ≤ [0x30#21, 0x31#21].length ∧ [0x30#21, 0x31#21].length ≤ 256 ∧
      after .nbegin t (fun _ => true) = true ∧ (1 : BitVec 8).toNat < [0x30#21, 0x31#21].length :=
  ⟨_, rfl, by decide⟩

/-- The least and the greatest symbol value of the smallest base, the greatest of the largest. -/
theorem witness_CharacterAndIndexInverse :
    (Ready binary ∧ 2 ≤ binary.base.toNat ∧ binary.base.toNat ≤ 256 ∧ DistinctSymbols binary ∧
      (0 : Data).toNat < binary.base.toNat ∧ (1 : Data).toNat < binary.base.toNat) ∧
    (Ready full ∧ full.base.toNat ≤ 256 ∧ DistinctSymbols full ∧ (255 : Data).toNat < full.base.toNat) :=
  ⟨⟨⟨by decide, by decide, by decide⟩, by decide, by decide, distinct_binary, by decide, by decide⟩,
    ⟨by decide, by decide, by decide⟩, by decide, distinct_full, by decide⟩

/-- The smallest and the largest charset; the number 2^64 − 1 is below 2^64. -/
theorem witness_HostNumeralRoundTrip :
    Ready State.reset ∧ 2 ^ 64 - 1 < 2 ^ 64 ∧ [0x30#21, 0x31#21].length = 2 ∧ [0x30#21, 0x31#21].Nodup ∧
    bytes.length = 256 ∧ bytes.Nodup := by
  refine ⟨⟨by decide, by decide, by decide⟩, by decide, by decide, by decide, length_bytes, ?_⟩
  refine List.Nodup.map_on (fun x hx y hy h => ?_) List.nodup_range
  have := congrArg BitVec.toNat h
  simp only [BitVec.toNat_ofNat, List.mem_range] at this hx hy
  omega

theorem witness_ZeroIsFirstSymbol :
    Ready State.reset ∧ 2 ≤ [0x41#21, 0x41#21].length ∧ [0x41#21, 0x41#21].length ≤ 256 ∧
    [0x41#21, 0x41#21][0]? = some 0x41#21 := ⟨⟨by decide, by decide, by decide⟩, by decide, by decide, by decide⟩

/-- One bit per symbol and eight; no padding, padding without a group, a group of one. -/
theorem witness_CodecRoundTrip :
    Ready State.reset ∧ [0x30#21, 0x31#21].length = 2 ^ 1 ∧ [0x30#21, 0x31#21].Nodup ∧ bytes.length = 2 ^ 8 ∧
    padChar ∉ [0x30#21, 0x31#21] ∧ (some 1 : Option Nat) ≠ some 0 ∧ (none : Option Nat) ≠ some 0 :=
  ⟨⟨by decide, by decide, by decide⟩, by decide, by decide, length_bytes, by decide, by decide, by decide⟩

theorem witness_EmptyInputEmptyOutput :
    Ready State.reset ∧ [0x30#21, 0x31#21].length = 2 ^ 1 ∧ bytes.length = 2 ^ 8 ∧ (some 8 : Option Nat) ≠ some 0 :=
  ⟨⟨by decide, by decide, by decide⟩, by decide, length_bytes, by decide⟩

/-- Lengths 3 and 255; for ENCODE and DECODE alike. -/
theorem witness_NonPowerOfTwoRejected :
    Ready State.reset ∧ (2 ^ 1 < [0x61#21, 0x62#21, 0x63#21].length ∧ [0x61#21, 0x62#21, 0x63#21].length < 2 ^ 2) ∧
    (2 ^ 7 < (bytes.take 255).length ∧ (bytes.take 255).length < 2 ^ 8) ∧ (none : Option Nat) ≠ some 0 :=
  ⟨⟨by decide, by decide, by decide⟩, by decide, by simp [length_bytes], by decide⟩

theorem witness_PaddingFillsGroup :
    1 ≤ 1 ∧ padded (some padChar) (some 4) [0x4D#21, 0x41#21] = [0x4D#21, 0x41#21, padChar, padChar] := by decide

end Sys2Proof.Tests
end

