-- ==== Sys2Proof/Proofs/Commands.lean ====
section
/-! PROOF. What one command can do, said once for all thirteen: it is discarded, it enters fault state, or it completes
with the registers and pushes of `Completes`. Every frame and every invariant below goes through this. -/

namespace Sys2Proof.Machine

/-- Command `i`, run in `s`, completes with the registers of the third argument and the given pushes, OQ and CMDCNT
still being those of `s`: one case for each way of completing, with the checks it has passed. -/
inductive Completes (s : State) : Instr → State → List Push → Prop
  | binit {w : BitVec 6} (hf : s.status.f = false) (hw : legalOutputWidth w = true) :
      Completes s (.binit w) (s.setPacker w 0 0 0) []
  | bput {v : BitVec 32} {iw : BitVec 6} (hf : s.status.f = false) (hw : s.w ≠ 0) (hi : legalInputWidth iw = true) :
      Completes s (.bput v iw)
        (s.setPacker s.w iw (BitVec.ofNat 31 (packed s v iw).buf) (BitVec.ofNat 5 (packed s v iw).n))
        ((packed s v iw).vals.map fun x => (Tag.val, BitVec.ofNat 64 x))
  | bflushEmpty (hf : s.status.f = false) (hw : s.w ≠ 0) (hc : s.cnt = 0) : Completes s .bflush s [(Tag.none, 0)]
  | bflushPending (hf : s.status.f = false) (hw : s.w ≠ 0) (hc : s.cnt ≠ 0) :
      Completes s .bflush (s.setPacker s.w s.iw 0 0) [(Tag.val, BitVec.ofNat 64 (flushValue s))]
  | clen {n : BitVec 9} (hf : s.status.f = false) (hn : s.status.nact = false) (hl : legalLength n = true) :
      Completes s (.clen n) (s.setCharset n 0) []
  | cset {idx : BitVec 8} {ch : CharCode} (hf : s.status.f = false) (hn : s.status.nact = false) :
      Completes s (.cset idx ch) (s.setTable (writeEntry idx.toNat ch s.ct)) []
  | cget {idx : BitVec 8} (hf : s.status.f = false) :
      Completes s (.cget idx) s [(Tag.chr, zext64 (readEntry s.ct idx.toNat))]
  | cbits (hf : s.status.f = false) (hb : 2 ≤ s.base.toNat) (hp : s.base.toNat = floorPower s.base.toNat) :
      Completes s .cbits (s.setCharset s.base (BitVec.ofNat 4 s.base.toNat.log2))
        [(Tag.num, BitVec.ofNat 64 s.base.toNat.log2)]
  | ngen {value : BitVec 64} (hf : s.status.f = false) (hb : 2 ≤ s.base.toNat) :
      Completes s (.ngen value) s
        ((digits s.base.toNat value.toNat).map fun r => (Tag.chr, zext64 (readEntry s.ct r)))
  | nbegin (hf : s.status.f = false) (hb : 2 ≤ s.base.toNat) :
      Completes s .nbegin ((s.setNumeral 0 1).setStatus s.status.openNumeral) []
  | nsym {ch : CharCode} {i : Nat} {nacc : Data} (hf : s.status.f = false) (hn : s.status.nact = true)
      (hl : lookup s.ct s.base.toNat ch = some i) (ha : addDigit s i = some nacc) :
      Completes s (.nsym ch)
        ((s.setNumeral nacc (BitVec.ofNat 64 (nextWeight s))).setStatus (s.status.noteWeight (nextWeight s))) []
  | nend (hf : s.status.f = false) (hn : s.status.nact = true) :
      Completes s .nend (s.setStatus s.status.closeNumeral) [(Tag.num, s.nacc)]
  | rdreg {r : BitVec 8} {d : Data} (hd : readReg s r.toNat = some d) : Completes s (.rdreg r) s [(Tag.reg, d)]
  | clrf : Completes s .clrf (leaveFault s) []

/-- The three ways a command of opcode `opcodeOf i` can end (60_exceptions.md R219, R222). -/
inductive Runs (i : Instr) (s : State) : State → Prop
  | discarded (hf : s.status.f = true) : Runs i s s
  | faulted (hf : s.status.f = false) (e : Exc) : Runs i s (enterFault (opcodeOf i) e s)
  | completed {s₁ : State} {ps : List Push} (hc : Completes s i s₁ ps) : Runs i s (complete s₁ ps)

/-- The inversion of `exec`: everything a command can do. -/
theorem runs_of_exec {i : Instr} {s t : State} (h : exec i s = .next t) : Runs i s t := by
  cases i with
  | binit w =>
    obtain ⟨hf, rfl⟩ | ⟨hf, hw, rfl⟩ | ⟨hf, -, rfl⟩ := execBinit_cases h
    exacts [.discarded hf, .completed (.binit hf hw), .faulted hf _]
  | bput v iw =>
    obtain ⟨hf, rfl⟩ | ⟨hf, -, rfl⟩ | ⟨hf, hw, hi, rfl⟩ | ⟨hf, -, -, rfl⟩ := execBput_cases h
    exacts [.discarded hf, .faulted hf _, .completed (.bput hf hw hi), .faulted hf _]
  | bflush =>
    obtain ⟨hf, rfl⟩ | ⟨hf, -, rfl⟩ | ⟨hf, hw, hc, rfl⟩ | ⟨hf, hw, hc, rfl⟩ := execBflush_cases h
    exacts [.discarded hf, .faulted hf _, .completed (.bflushEmpty hf hw hc), .completed (.bflushPending hf hw hc)]
  | clen n =>
    obtain ⟨hf, rfl⟩ | ⟨hf, -, rfl⟩ | ⟨hf, hn, hl, rfl⟩ | ⟨hf, -, -, rfl⟩ := execClen_cases h
    exacts [.discarded hf, .faulted hf _, .completed (.clen hf hn hl), .faulted hf _]
  | cset idx ch =>
    obtain ⟨hf, rfl⟩ | ⟨hf, -, rfl⟩ | ⟨hf, hn, rfl⟩ := execCset_cases h
    exacts [.discarded hf, .faulted hf _, .completed (.cset hf hn)]
  | cget idx =>
    obtain ⟨hf, rfl⟩ | ⟨hf, rfl⟩ := execCget_cases h
    exacts [.discarded hf, .completed (.cget hf)]
  | cbits =>
    obtain ⟨hf, rfl⟩ | ⟨hf, -, rfl⟩ | ⟨hf, hb, hp, rfl⟩ | ⟨hf, -, -, rfl⟩ := execCbits_cases h
    exacts [.discarded hf, .faulted hf _, .completed (.cbits hf hb hp), .faulted hf _]
  | ngen value =>
    obtain ⟨hf, rfl⟩ | ⟨hf, -, rfl⟩ | ⟨hf, hb, rfl⟩ := execNgen_cases h
    exacts [.discarded hf, .faulted hf _, .completed (.ngen hf hb)]
  | nbegin =>
    obtain ⟨hf, rfl⟩ | ⟨hf, -, rfl⟩ | ⟨hf, hb, rfl⟩ := execNbegin_cases h
    exacts [.discarded hf, .faulted hf _, .completed (.nbegin hf hb)]
  | nsym ch =>
    obtain ⟨hf, rfl⟩ | ⟨hf, -, rfl⟩ | ⟨hf, -, -, rfl⟩ | ⟨_, hf, -, -, -, rfl⟩ | ⟨_, _, hf, hn, hl, ha, rfl⟩ :=
      execNsym_cases h
    exacts [.discarded hf, .faulted hf _, .faulted hf _, .faulted hf _, .completed (.nsym hf hn hl ha)]
  | nend =>
    obtain ⟨hf, rfl⟩ | ⟨hf, -, rfl⟩ | ⟨hf, hn, rfl⟩ := execNend_cases h
    exacts [.discarded hf, .faulted hf _, .completed (.nend hf hn)]
  | rdreg r =>
    obtain ⟨d, hd, rfl⟩ | ⟨-, hf, rfl⟩ | ⟨-, hf, rfl⟩ := execRdreg_cases h
    exacts [.completed (.rdreg hd), .discarded hf, .faulted hf _]
  | clrf =>
    obtain rfl := execClrf_cases h
    exact .completed .clrf

/-! ### A word always answers a next state -/

theorem finish_answers (s : State) (ps : List Push) : ∃ t, finish s ps = .next t := ⟨_, rfl⟩

theorem raise_answers (i : Instr) (e : Exc) (s : State) : ∃ t, raise i e s = .next t := ⟨_, rfl⟩

theorem ite_answers {p : Prop} [Decidable p] {a b : Result} (ha : ∃ t, a = .next t) (hb : ∃ t, b = .next t) :
    ∃ t, (if p then a else b) = .next t := by
  split
  exacts [ha, hb]

theorem unlessFaulted_answers {s : State} {run : Result} (h : ∃ t, run = .next t) :
    ∃ t, unlessFaulted s run = .next t := ite_answers ⟨s, rfl⟩ h

theorem execNsym_answers (ch : CharCode) (s : State) : ∃ t, execNsym ch s = .next t := by
  refine unlessFaulted_answers (ite_answers ?_ (raise_answers ..))
  split
  · exact raise_answers ..
  · split
    exacts [raise_answers .., finish_answers ..]

theorem execRdreg_answers (r : BitVec 8) (s : State) : ∃ t, execRdreg r s = .next t := by
  unfold execRdreg
  split
  exacts [finish_answers .., unlessFaulted_answers (raise_answers ..)]

/-- No command stops the model: each answers a next state. -/
theorem exec_answers (i : Instr) (s : State) : ∃ t, exec i s = .next t :=
  match i with
  | .binit _ => unlessFaulted_answers (ite_answers (finish_answers ..) (raise_answers ..))
  | .bput _ _ =>
    unlessFaulted_answers (ite_answers (raise_answers ..) (ite_answers (finish_answers ..) (raise_answers ..)))
  | .bflush =>
    unlessFaulted_answers (ite_answers (raise_answers ..) (ite_answers (finish_answers ..) (finish_answers ..)))
  | .clen _ =>
    unlessFaulted_answers (ite_answers (raise_answers ..) (ite_answers (finish_answers ..) (raise_answers ..)))
  | .cset _ _ => unlessFaulted_answers (ite_answers (raise_answers ..) (finish_answers ..))
  | .cget _ => unlessFaulted_answers (finish_answers ..)
  | .cbits =>
    unlessFaulted_answers (ite_answers (raise_answers ..) (ite_answers (finish_answers ..) (raise_answers ..)))
  | .ngen _ => unlessFaulted_answers (ite_answers (raise_answers ..) (finish_answers ..))
  | .nbegin => unlessFaulted_answers (ite_answers (raise_answers ..) (finish_answers ..))
  | .nsym ch => execNsym_answers ch s
  | .nend => unlessFaulted_answers (ite_answers (finish_answers ..) (raise_answers ..))
  | .rdreg r => execRdreg_answers r s
  | .clrf => finish_answers ..

/-! ### Acceptance and the step -/

theorem accept_of_decode_ok {c : CmdWord} {i : Instr} (h : decode c = .ok i) (s : State) : accept c s = exec i s := by
  simp [accept, h]

theorem accept_of_decode_error {c : CmdWord} {e : DecodeError} (h : decode c = .error e) (s : State) :
    accept c s = execIllegal c s := by
  simp [accept, h]

/-- Every word answers a next state (60_exceptions.md R219). -/
theorem accept_answers (c : CmdWord) (s : State) : ∃ t, accept c s = .next t := by
  cases h : decode c with
  | ok i => rw [accept_of_decode_ok h]; exact exec_answers i s
  | error e => rw [accept_of_decode_error h]; exact unlessFaulted_answers ⟨_, rfl⟩

theorem step_of_host_nil {s : State} (h : s.host = []) : step s = .next s := by
  simp [step, advance, takeMove, h]

theorem step_of_host_cons {s : State} {m : HostMove} {rest : List HostMove} (h : s.host = m :: rest) :
    step s = hostMove m (s.setHost rest) := by
  simp [step, advance, takeMove, h]

theorem popItem_of_cons {s : State} {item : Item} {q : List Item} (h : s.oq = item :: q) :
    popItem s = .next (s.setQueue q) := by
  simp [popItem, h]

theorem popItem_of_nil {s : State} (h : s.oq = []) : popItem s = .fault .popOfEmptyQueue := by
  simp [popItem, h]

/-! ### The opcode a decoded command carries -/

theorem eq_of_requireZero_eq_ok {reserved : Bool} {c : CmdWord} {i j : Instr} (h : requireZero reserved c i = .ok j) :
    i = j := by
  unfold requireZero at h
  split at h
  · exact Except.ok.inj h
  · cases h

/-- A word that decodes carries the opcode of its command (30_encoding.md R88). -/
theorem opcodeOf_of_decode_eq_ok {c : CmdWord} {i : Instr} (h : decode c = .ok i) : opcodeOf i = opField c := by
  unfold decode at h
  split at h
  case h_8 hop => cases h; exact hop.symm
  case h_14 => cases h
  all_goals
    next hop =>
      obtain rfl := eq_of_requireZero_eq_ok h
      exact hop.symm

end Sys2Proof.Machine
end
-- ==== Sys2Proof/Proofs/Frames.lean ====
section
/-! PROOF. The step, the ports and reset; the charset table as data; the frame of every command. -/

namespace Sys2Proof.Machine

/-! ### The table as data -/

/-- In a table with rising indexes, reading an entry is membership of the pair. -/
theorem readEntry?_eq_some_iff {m : Memory} (hm : m.Pairwise fun a b => a.1 < b.1) {i : Nat} {v : CharCode} :
    readEntry? m i = some v ↔ (i, v) ∈ m := by
  induction m with
  | nil => simp [readEntry?]
  | cons e m ih =>
    obtain ⟨j, u⟩ := e
    obtain ⟨hlt, hm⟩ := List.pairwise_cons.1 hm
    by_cases hj : j = i
    · subst hj
      have hnot : (j, v) ∉ m := fun h => Nat.lt_irrefl j (hlt _ h)
      simp [readEntry?, hnot, eq_comm]
    · simp [readEntry?, hj, ih hm, Ne.symm hj]

/-- Two canonical tables that read the same everywhere list the same pairs in the same order. -/
theorem eq_of_readEntry?_eq {m m' : Memory} (hm : m.Pairwise fun a b => a.1 < b.1)
    (hm' : m'.Pairwise fun a b => a.1 < b.1) (h : ∀ i, readEntry? m i = readEntry? m' i) : m = m' := by
  have : Std.Antisymm fun a b : Entry => a.1 < b.1 := ⟨fun _ _ h h' => absurd h (Nat.lt_asymm h')⟩
  have : Std.Irrefl fun a b : Entry => a.1 < b.1 := ⟨fun _ => Nat.lt_irrefl _⟩
  refine hm.eq_of_mem_iff hm' fun e => ?_
  rw [← readEntry?_eq_some_iff hm, h, readEntry?_eq_some_iff hm']

/-! ### Fault entry -/

/-- Fault entry makes exactly the writes of 60_exceptions.md R220. -/
theorem enterFault_eq_afterFault (op : BitVec 8) (e : Exc) (s : State) :
    enterFault op e s = Safety.afterFault s op e.code e.tval := rfl

/-! ### The frame of a completing command -/

section
variable {s s₁ : State} {i : Instr} {ps : List Push}

theorem Completes.oq_eq (h : Completes s i s₁ ps) : s₁.oq = s.oq := by cases h <;> rfl

theorem Completes.cmdcnt_eq (h : Completes s i s₁ ps) : s₁.cmdcnt = s.cmdcnt := by cases h <;> rfl

theorem Completes.host_eq (h : Completes s i s₁ ps) : s₁.host = s.host := by cases h <;> rfl

theorem Completes.cause_eq (h : Completes s i s₁ ps) : s₁.cause = s.cause := by cases h <;> rfl

theorem Completes.tval_eq (h : Completes s i s₁ ps) : s₁.tval = s.tval := by cases h <;> rfl

theorem Completes.epc_eq (h : Completes s i s₁ ps) : s₁.epc = s.epc := by cases h <;> rfl

/-- `CLRF` clears F; every other completing command leaves it (10_state.md R31). -/
theorem Completes.f_eq (h : Completes s i s₁ ps) : s₁.status.f = s.status.f ∨ i = .clrf ∧ s₁.status.f = false := by
  cases h with
  | clrf => exact .inr ⟨rfl, rfl⟩
  | _ => exact .inl rfl

/-- Completing never sets F. -/
theorem Completes.f_of_f (h : Completes s i s₁ ps) (hf : s₁.status.f = true) : s.status.f = true := by
  obtain h | ⟨-, h⟩ := h.f_eq
  · exact h ▸ hf
  · simp [h] at hf

theorem Completes.packer_writers (h : Completes s i s₁ ps) :
    (s₁.w ≠ s.w → ∃ w, i = .binit w) ∧
    (s₁.iw ≠ s.iw → (∃ w, i = .binit w) ∨ ∃ v iw, i = .bput v iw) ∧
    (s₁.acc ≠ s.acc ∨ s₁.cnt ≠ s.cnt → (∃ w, i = .binit w) ∨ (∃ v iw, i = .bput v iw) ∨ i = .bflush) := by
  cases h <;> simp

theorem Completes.charset_writers (h : Completes s i s₁ ps) :
    (s₁.base ≠ s.base → ∃ n, i = .clen n) ∧ (s₁.bps ≠ s.bps → (∃ n, i = .clen n) ∨ i = .cbits) := by
  cases h <;> simp

theorem Completes.numeral_writers (h : Completes s i s₁ ps) :
    (s₁.nacc ≠ s.nacc ∨ s₁.npow ≠ s.npow → i = .nbegin ∨ ∃ ch, i = .nsym ch) ∧
    (s₁.status.nact ≠ s.status.nact → i = .nbegin ∨ i = .nend) ∧
    (s₁.status.povf ≠ s.status.povf → i = .nbegin ∨ ∃ ch, i = .nsym ch) := by
  cases h <;> simp

theorem Completes.table_writers (h : Completes s i s₁ ps) (k : Nat) (hk : readEntry? s₁.ct k ≠ readEntry? s.ct k) :
    ∃ idx ch, i = .cset idx ch ∧ k = idx.toNat := by
  cases h with
  | @cset idx ch =>
    refine ⟨idx, ch, rfl, ?_⟩
    by_contra hne
    exact hk (readEntry?_writeEntry_other _ _ _ _ hne)
  | _ => exact absurd rfl hk

end

end Sys2Proof.Machine

namespace Sys2Proof.Proofs

open Sys2Proof.Machine Sys2Proof.Safety

/-- Settles O5: the step takes the move off the list, decodes the word and runs the command. -/
theorem stepRunsDecodedCommand : Obligations.StepRunsDecodedCommand := by
  intro s c rest i hhost hdec
  calc step s = accept c (s.setHost rest) := step_of_host_cons hhost
    _ = exec i (s.setHost rest) := accept_of_decode_ok hdec _

/-- Settles O7. -/
theorem popTakesHeadItem : Obligations.PopTakesHeadItem := by
  refine ⟨fun s rest item q hhost hoq => ?_, fun s rest hhost hoq => ?_, fun s => step_of_host_nil⟩
  · exact (step_of_host_cons hhost).trans (popItem_of_cons (s := s.setHost rest) hoq)
  · exact (step_of_host_cons hhost).trans (popItem_of_nil (s := s.setHost rest) hoq)

/-- Settles O8: the fields of an item's word are the parts it is put together from. -/
theorem portsShowState : Obligations.PortsShowState := by
  intro s
  refine ⟨rfl, rfl, by simp [outValid], fun it q h => by simp [outPort, h], fun h => by simp [outPort, h], fun it => ?_⟩
  have hdata : it.word.extractLsb' 0 64 = it.data := BitVec.extractLsb'_append_eq_right
  have htag : it.word.extractLsb' 64 3 = it.tag.code :=
    (BitVec.extractLsb'_append_eq_of_le (Nat.le_refl 64)).trans BitVec.extractLsb'_append_eq_right
  have hlast : it.word.getLsbD 67 = it.last :=
    calc it.word.getLsbD 67
      _ = (BitVec.ofBool it.last ++ it.tag.code).getLsbD 3 := BitVec.getLsbD_append
      _ = (BitVec.ofBool it.last).getLsbD 0 := BitVec.getLsbD_append
      _ = it.last := by simp
  exact ⟨hdata, htag, hlast, rfl, rfl, rfl, rfl, rfl⟩

/-- Settles O9: the registers by evaluation, the step by the idle rule. -/
theorem resetValues : Obligations.ResetValues :=
  ⟨by decide, rfl, rfl, rfl, rfl, rfl, rfl, rfl, rfl, rfl, rfl, rfl, rfl, rfl, rfl, fun _ => rfl, step_of_host_nil rfl⟩

/-- Settles O22. -/
theorem equalTablesReadEqual : Obligations.EqualTablesReadEqual := by
  intro m m' hm hm' h
  exact eq_of_readEntry?_eq ((wf_iff m).1 hm).1 ((wf_iff m').1 hm').1 h

/-- A command's end, as O36 classifies it, by the three cases of `Runs`. -/
theorem exec_completes_faults_or_discards {i : Instr} {s t : State} (h : exec i s = .next t) :
    (t.cmdcnt = s.cmdcnt + 1 ∧ s.oq <+: t.oq ∧ t.cause = s.cause ∧ t.tval = s.tval ∧ t.epc = s.epc ∧
      (t.status.f = true → s.status.f = true)) ∨
    (s.status.f = false ∧ ∃ e : Exc, t = afterFault s (opcodeOf i) e.code e.tval) ∨
    (s.status.f = true ∧ t = s) := by
  cases runs_of_exec h with
  | discarded hf => exact .inr (.inr ⟨hf, rfl⟩)
  | faulted hf e => exact .inr (.inl ⟨hf, e, rfl⟩)
  | @completed s₁ ps hc =>
    have hoq : s.oq <+: (complete s₁ ps).oq := ⟨markLast ps, by simp [hc.oq_eq]⟩
    exact .inl ⟨by simp [hc.cmdcnt_eq], hoq, hc.cause_eq, hc.tval_eq, hc.epc_eq, hc.f_of_f⟩

/-- Settles O36: a word that decodes ends as its command does, and carries that command's opcode; any other word
raises IllegalCommand or is discarded. -/
theorem wordCompletesFaultsOrIsDiscarded : Obligations.WordCompletesFaultsOrIsDiscarded := by
  intro c s
  obtain ⟨t, ht⟩ := accept_answers c s
  refine ⟨t, ht, ?_⟩
  have fault_entry (e : Exc) : ∃ code tval, 1 ≤ code.toNat ∧ code.toNat ≤ 7 ∧
      afterFault s (opField c) e.code e.tval = afterFault s (c.extractLsb' 64 8) code tval :=
    ⟨e.code, e.tval, (code_range e).1, (code_range e).2, rfl⟩
  obtain ⟨i, hdec, hexec⟩ | ⟨-, -, hill⟩ := accept_cases ht
  · obtain hdone | ⟨hf, e, rfl⟩ | hdiscard := exec_completes_faults_or_discards hexec
    · exact .inl hdone
    · rw [opcodeOf_of_decode_eq_ok hdec]
      exact .inr (.inl ⟨hf, fault_entry e⟩)
    · exact .inr (.inr hdiscard)
  · obtain hdiscard | ⟨hf, rfl⟩ := execIllegal_cases hill
    · exact .inr (.inr hdiscard)
    · exact .inr (.inl ⟨hf, fault_entry (.illegalCommand (argField c))⟩)

/-- Settles O40: a discarded command writes nothing, fault entry only STATUS and the fault record, and a completing
command what the `_writers` lemmas say. -/
theorem registerWriters : Obligations.RegisterWriters := by
  intro i s t h
  cases runs_of_exec h with
  | discarded => simp
  | faulted hf e => simp [hf]
  | completed hc =>
    obtain ⟨hw, hiw, hacc⟩ := hc.packer_writers
    obtain ⟨hbase, hbps⟩ := hc.charset_writers
    obtain ⟨hnum, hnact, hpovf⟩ := hc.numeral_writers
    refine ⟨hw, hiw, hacc, hbase, hbps, hnum, ?_, ?_, ?_, hpovf, hc.table_writers, hc.host_eq⟩
    · simp [hc.cause_eq, hc.tval_eq, hc.epc_eq]
    · intro hne
      exact .inr (hc.f_eq.resolve_left hne).1
    · intro hne
      exact (hnact hne).imp_right .inl

end Sys2Proof.Proofs
end

