-- ==== Sys2Proof/Proofs/Invariant.lean ====
section
/-! PROOF. The invariant `Sound`: what each register update and each push must satisfy to keep it, that every completing
command does, and so that every step does. -/

namespace Sys2Proof.Machine

/-! ### Items and their tags -/

/-- The newest item of a command ends it (20_memory.md R66). -/
theorem last_of_getLast?_markLast {ps : List Push} {it : Item} (h : (markLast ps).getLast? = some it) :
    it.last = true := by
  rw [List.getLast?_eq_getElem?, markLast_length, markLast_getElem?, Option.map_eq_some_iff] at h
  obtain ⟨p, hp, rfl⟩ := h
  obtain ⟨hlt, -⟩ := List.getElem?_eq_some_iff.1 hp
  simp only [decide_eq_true_eq]
  omega

/-- Exactly the final item of a command is marked (R66). -/
theorem last_iff_of_getElem?_markLast {ps : List Push} {j : Nat} {it : Item} (h : (markLast ps)[j]? = some it) :
    it.last = true ↔ j + 1 = (markLast ps).length := by
  rw [markLast_getElem?, Option.map_eq_some_iff] at h
  obtain ⟨p, -, rfl⟩ := h
  simp [markLast_length]

/-- The items of a command that pushes with one tag. -/
theorem mem_markLast_map {α : Type} {tag : Tag} {f : α → Data} {xs : List α} {it : Item}
    (h : it ∈ markLast (xs.map fun x => (tag, f x))) : it.tag = tag ∧ ∃ x ∈ xs, it.data = f x := by
  obtain ⟨p, hp, htag, hdata⟩ := mem_markLast h
  obtain ⟨x, hx, rfl⟩ := List.mem_map.1 hp
  exact ⟨htag, x, hx, hdata⟩

/-! ### The bounds of the loops -/

section
variable {s : State} (v : BitVec 32) {iw : BitVec 6} (hw : 1 ≤ s.w.toNat) (hi : iw.toNat ≤ 32)
  (ha : s.acc.toNat < 2 ^ s.cnt.toNat)
include hw hi ha

/-- Fewer than W bits stay pending (10_state.md R26 (a)). -/
theorem packed_n_lt : (packed s v iw).n < s.w.toNat := by
  rw [packed_eq v iw hw hi ha]
  exact Nat.mod_lt _ hw

theorem packed_buf_lt : (packed s v iw).buf < 2 ^ (packed s v iw).n := by
  rw [packed_eq v iw hw hi ha]
  exact Nat.mod_lt _ (Nat.two_pow_pos _)

theorem packed_vals_lt : ∀ x ∈ (packed s v iw).vals, x < 2 ^ s.w.toNat := by
  rw [packed_eq v iw hw hi ha]
  intro x hx
  obtain ⟨j, -, rfl⟩ := List.mem_map.1 hx
  exact Nat.mod_lt _ (Nat.two_pow_pos _)

theorem packed_vals_length : (packed s v iw).vals.length = (s.cnt.toNat + iw.toNat) / s.w.toNat := by
  simp [packed_eq v iw hw hi ha]

end

theorem flushValue_lt (s : State) : flushValue s < 2 ^ s.w.toNat := by
  rw [flushValue, and_mask]
  exact Nat.mod_lt _ (Nat.two_pow_pos _)

/-- A 64-bit value has at most 64 digits (41_numeral.md R137). -/
theorem digits_length_le {base : Nat} (hb : 2 ≤ base) (value : Data) : (digits base value.toNat).length ≤ 64 := by
  rw [digits_eq base value.toNat hb value.isLt]
  split
  · simp
  · have : value.toNat < base ^ 64 := Nat.lt_of_lt_of_le value.isLt (Nat.pow_le_pow_left hb 64)
    simpa using (Nat.digits_length_le_iff (by omega) _).2 this

theorem toNat_ofNat_of_lt {n x k : Nat} (h : x < 2 ^ k) (hk : k ≤ n) : (BitVec.ofNat n x).toNat = x :=
  (BitVec.toNat_ofNat x n).trans (Nat.mod_eq_of_lt (Nat.lt_of_lt_of_le h (Nat.pow_le_pow_right (by decide) hk)))

end Sys2Proof.Machine

namespace Sys2Proof.Safety

open Sys2Proof.Machine

variable {s s₁ : State} {i : Instr} {ps : List Push}

/-! ### Items -/

theorem itemOk_of_val {it : Item} {x : Nat} (htag : it.tag = .val) (hdata : it.data = BitVec.ofNat 64 x)
    (hx : x < 2 ^ 32) : itemOk it := by
  simpa [itemOk, htag, hdata, toNat_ofNat_of_lt hx] using hx

theorem itemOk_of_chr {it : Item} {ch : CharCode} (htag : it.tag = .chr) (hdata : it.data = zext64 ch) : itemOk it := by
  simpa [itemOk, htag, hdata] using ch.isLt

/-! ### Each update keeps the invariant -/

/-- A constructed packer has legal widths and fewer than W pending bits (10_state.md R26 (a)). -/
theorem Sound.constructed (h : Sound s) (hw : s.w ≠ 0) :
    1 ≤ s.w.toNat ∧ s.w.toNat ≤ 32 ∧ s.cnt.toNat < s.w.toNat ∧ s.iw.toNat ≤ 32 :=
  h.packer.resolve_left fun hz => hw hz.1

theorem Sound.setHost (h : Sound s) (ms : List HostMove) : Sound (s.setHost ms) := { h with }

theorem Sound.setPacker (h : Sound s) {w iw : BitVec 6} {acc : BitVec 31} {cnt : BitVec 5}
    (hpacker : 1 ≤ w.toNat ∧ w.toNat ≤ 32 ∧ cnt.toNat < w.toNat ∧ iw.toNat ≤ 32)
    (hpending : acc.toNat < 2 ^ cnt.toNat) : Sound (s.setPacker w iw acc cnt) :=
  { h with packer := .inr hpacker, pending := hpending }

theorem Sound.setTable (h : Sound s) {m : Memory} (hm : Memory.wf m = true) : Sound (s.setTable m) :=
  { h with table := hm }

/-- With a conversion closed nothing depends on BASE but BPS (R26 (d), (e), (f)). -/
theorem Sound.setLength (h : Sound s) (hn : s.status.nact = false) {n : BitVec 9} (hl : n.toNat ≤ 256) :
    Sound (s.setCharset n 0) :=
  { h with
    numeral := by simp [hn]
    charset := hl
    bits := fun hne => absurd rfl hne
    weight := by simp [hn] }

theorem Sound.setBits (h : Sound s) {bps : BitVec 4} (hbits : s.base.toNat = 2 ^ bps.toNat) :
    Sound (s.setCharset s.base bps) :=
  { h with bits := fun _ => hbits }

/-- CLRF and NEND only clear a flag. -/
theorem Sound.leaveFault (h : Sound s) : Sound (leaveFault s) := { h with fault := by simp }

theorem Sound.closeNumeral (h : Sound s) : Sound (s.setStatus s.status.closeNumeral) :=
  { h with
    numeral := by simp
    weight := by simp
    fault := fun hf => ⟨rfl, (h.fault hf).2⟩ }

/-- A conversion opens with weight 1 = BASE ^ 0 (R25). -/
theorem Sound.openNumeral (h : Sound s) (hf : s.status.f = false) (hb : 2 ≤ s.base.toNat) :
    Sound ((s.setNumeral 0 1).setStatus s.status.openNumeral) :=
  { h with
    numeral := fun _ => hb
    weight := fun _ _ => ⟨0, by decide, by simp⟩
    fault := by simp [hf] }

/-- While POVF stays clear the exact next weight is the next power of BASE, and below 2^64 (R25). -/
theorem Sound.nextWeight_eq (h : Sound s) (hn : s.status.nact = true) (hp : s.status.povf = false)
    (hlt : nextWeight s < 2 ^ 64) : ∃ k < 64, nextWeight s = s.base.toNat ^ k := by
  obtain ⟨k, -, hk⟩ := h.weight hn hp
  have hnext : nextWeight s = s.base.toNat ^ (k + 1) := by rw [nextWeight, hk, Nat.pow_succ]
  have hpow : 2 ^ (k + 1) < 2 ^ 64 := by
    calc 2 ^ (k + 1) ≤ s.base.toNat ^ (k + 1) := Nat.pow_le_pow_left (h.numeral hn) _
      _ = nextWeight s := hnext.symm
      _ < 2 ^ 64 := hlt
  exact ⟨k + 1, (Nat.pow_lt_pow_iff_right (by decide)).1 hpow, hnext⟩

theorem Sound.takeSymbol (h : Sound s) (hf : s.status.f = false) (hn : s.status.nact = true) (nacc : Data) :
    Sound ((s.setNumeral nacc (BitVec.ofNat 64 (nextWeight s))).setStatus (s.status.noteWeight (nextWeight s))) :=
  { h with
    weight := fun _ hpovf => by
      have hpovf : s.status.povf = false ∧ nextWeight s < 2 ^ 64 := by simpa [Config.nw] using hpovf
      obtain ⟨k, hk, hnext⟩ := h.nextWeight_eq hn hpovf.1 hpovf.2
      exact ⟨k, hk, (toNat_ofNat_of_lt hpovf.2 (Nat.le_refl 64)).trans hnext⟩
    fault := by simp [hf] }

/-- Fault entry closes any conversion, empties OQ and records a code of R210 (60_exceptions.md R220). -/
theorem Sound.enterFault (h : Sound s) (op : BitVec 8) (e : Exc) : Sound (enterFault op e s) :=
  { h with
    numeral := by simp
    weight := by simp
    items := by simp
    ended := by simp
    fault := fun _ => ⟨rfl, by
      rw [enterFault_cause, BitVec.extractLsb'_append_eq_right]
      exact code_range e⟩ }

theorem Sound.complete (h : Sound s) (hps : ∀ it ∈ markLast ps, itemOk it) : Sound (complete s ps) :=
  { h with
    items := fun it hit => (List.mem_append.1 hit).elim (h.items it) (hps it)
    ended := fun it hit => by
      rw [complete_oq, List.getLast?_append, Option.or_eq_some_iff] at hit
      obtain hit | ⟨-, hit⟩ := hit
      exacts [last_of_getLast?_markLast hit, h.ended it hit] }

theorem Sound.popHead (h : Sound s) {item : Item} {q : List Item} (hoq : s.oq = item :: q) : Sound (s.setQueue q) :=
  { h with
    items := fun it hit => h.items it (hoq ▸ List.mem_cons_of_mem item hit)
    ended := fun it hit => h.ended it (by
      rw [setQueue_oq] at hit
      rw [hoq, List.getLast?_cons, hit, Option.getD_some]) }

theorem sound_reset : Sound State.reset := by
  constructor <;> simp [State.reset, Memory.wf]

theorem Sound.assertReset (h : Sound s) : Sound (assertReset s) := { sound_reset with table := h.table }

/-! ### Every command keeps the invariant -/

/-- The registers a completing command leaves. -/
theorem Sound.of_completes (h : Sound s) (hc : Completes s i s₁ ps) : Sound s₁ := by
  cases hc with
  | binit hf hw =>
    obtain ⟨hlo, hhi⟩ := (legalOutputWidth_iff _).1 hw
    exact h.setPacker ⟨hlo, hhi, hlo, by decide⟩ (by decide)
  | @bput v iw hf hw hi =>
    obtain ⟨hlo, hhi, -, -⟩ := h.constructed hw
    have hi := ((legalInputWidth_iff _).1 hi).2
    have hn := packed_n_lt v hlo hi h.pending
    have hbuf := packed_buf_lt v hlo hi h.pending
    have hcnt : (BitVec.ofNat 5 (packed s v iw).n).toNat = (packed s v iw).n :=
      toNat_ofNat_of_lt (k := 5) (by omega) (Nat.le_refl 5)
    have hacc : (BitVec.ofNat 31 (packed s v iw).buf).toNat = (packed s v iw).buf :=
      toNat_ofNat_of_lt hbuf (by omega)
    exact h.setPacker ⟨hlo, hhi, hcnt.trans_lt hn, hi⟩ (by rwa [hcnt, hacc])
  | bflushEmpty => exact h
  | bflushPending hf hw hc =>
    obtain ⟨hlo, hhi, -, hiw⟩ := h.constructed hw
    exact h.setPacker ⟨hlo, hhi, hlo, hiw⟩ (by decide)
  | clen hf hn hl => exact h.setLength hn ((legalLength_iff _).1 hl)
  | @cset idx ch hf hn => exact h.setTable (wf_writeEntry _ ch _ idx.isLt h.table)
  | cget => exact h
  | cbits hf hb hp =>
    have hlog : s.base.toNat.log2 < 2 ^ 4 := (Nat.log2_lt (by omega)).2 (by have := h.charset; omega)
    refine h.setBits ?_
    rw [toNat_ofNat_of_lt hlog (Nat.le_refl 4)]
    exact hp
  | ngen => exact h
  | nbegin hf hb => exact h.openNumeral hf hb
  | nsym hf hn => exact h.takeSymbol hf hn _
  | nend => exact h.closeNumeral
  | rdreg => exact h
  | clrf => exact h.leaveFault

/-- The items a completing command pushes (20_memory.md R66). -/
theorem Sound.itemOk_of_completes (h : Sound s) (hc : Completes s i s₁ ps) : ∀ it ∈ markLast ps, itemOk it := by
  have val_fits {x : Nat} (hw : s.w ≠ 0) (hx : x < 2 ^ s.w.toNat) : x < 2 ^ 32 :=
    Nat.lt_of_lt_of_le hx (Nat.pow_le_pow_right (by decide) (h.constructed hw).2.1)
  intro it hit
  cases hc with
  | @bput v iw hf hw hi =>
    obtain ⟨htag, x, hx, hdata⟩ := mem_markLast_map hit
    have hlt := packed_vals_lt v (h.constructed hw).1 ((legalInputWidth_iff _).1 hi).2 h.pending x hx
    exact itemOk_of_val htag hdata (val_fits hw hlt)
  | bflushEmpty =>
    obtain rfl := List.mem_singleton.1 hit
    exact ⟨rfl, rfl⟩
  | bflushPending hf hw =>
    obtain rfl := List.mem_singleton.1 hit
    exact itemOk_of_val rfl rfl (val_fits hw (flushValue_lt s))
  | cget =>
    obtain rfl := List.mem_singleton.1 hit
    exact itemOk_of_chr rfl rfl
  | ngen =>
    obtain ⟨htag, r, -, hdata⟩ := mem_markLast_map hit
    exact itemOk_of_chr htag hdata
  | cbits | nend | rdreg =>
    obtain rfl := List.mem_singleton.1 hit
    trivial
  | binit | clen | cset | nbegin | nsym | clrf => exact absurd hit List.not_mem_nil

theorem Sound.exec {t : State} (h : Sound s) (ht : exec i s = .next t) : Sound t := by
  cases runs_of_exec ht with
  | discarded => exact h
  | faulted hf e => exact h.enterFault _ e
  | completed hc => exact (h.of_completes hc).complete (h.itemOk_of_completes hc)

theorem Sound.accept {c : CmdWord} {t : State} (h : Sound s) (ht : accept c s = .next t) : Sound t := by
  obtain ⟨i, -, hexec⟩ | ⟨-, -, hill⟩ := accept_cases ht
  · exact h.exec hexec
  · obtain ⟨-, rfl⟩ | ⟨-, rfl⟩ := execIllegal_cases hill
    exacts [h, h.enterFault _ _]

end Sys2Proof.Safety

namespace Sys2Proof.Proofs

open Sys2Proof.Machine Sys2Proof.Safety

/-- Settles O11. -/
theorem resetSatisfiesInvariant : Obligations.ResetSatisfiesInvariant := sound_reset

/-- Settles O12: by the four things a step can do, each with its lemma. -/
theorem stepKeepsInvariant : Obligations.StepKeepsInvariant := by
  intro s t h hstep
  obtain ⟨-, rfl⟩ | ⟨c, rest, -, hacc⟩ | ⟨item, q, rest, -, hoq, rfl⟩ | ⟨rest, -, rfl⟩ := step_cases hstep
  · exact h
  · exact (h.setHost rest).accept hacc
  · exact (h.setHost rest).popHead hoq
  · exact (h.setHost rest).assertReset

end Sys2Proof.Proofs
end

