-- ==== Sys2Proof/Proofs/Pushes.lean ====
section
/-! PROOF. What a completing command pushes from a sound state: how many items, and of which tag (20_memory.md R66). -/

namespace Sys2Proof.Safety

open Sys2Proof.Machine

/-- A `BPUT` of legal width delivers at most 32 symbol values (42_bitpacker.md R151): at most W − 1 bits were pending. -/
theorem Sound.valueCount_le {s : State} (h : Sound s) (hw : s.w ≠ 0) {iw : BitVec 6} (hi : iw.toNat ≤ 32) :
    (s.cnt.toNat + iw.toNat) / s.w.toNat ≤ 32 := by
  obtain ⟨hlo, -, hcnt, -⟩ := h.constructed hw
  refine Nat.lt_succ_iff.1 ((Nat.div_lt_iff_lt_mul hlo).2 ?_)
  omega

end Sys2Proof.Safety

namespace Sys2Proof.Proofs

open Sys2Proof.Machine Sys2Proof.Safety

/-- Settles O42: discarding and fault entry leave CMDCNT alone, so the command completes; its items are `markLast` of its
pushes, which `Completes` lists. -/
theorem pushesOfCompletingCommand : Obligations.PushesOfCompletingCommand := by
  intro i s t h hexec hcount
  cases runs_of_exec hexec with
  | discarded => exact absurd rfl hcount
  | faulted => exact absurd rfl hcount
  | @completed s₁ ps hc =>
    refine ⟨markLast ps, by simp [hc.oq_eq], fun j it => last_iff_of_getElem?_markLast, ?_⟩
    rw [markLast_length]
    cases hc with
    | @bput v iw hf hw hi =>
      have hi := ((legalInputWidth_iff _).1 hi).2
      have hlen := packed_vals_length v (h.constructed hw).1 hi h.pending
      have hle := h.valueCount_le hw hi
      rw [List.length_map, hlen]
      exact ⟨by omega, rfl, hle, fun it hit => (mem_markLast_map hit).1⟩
    | @ngen value hf hb =>
      have hne := digits_ne_nil s.base.toNat value.toNat hb value.isLt
      rw [List.length_map]
      exact ⟨digits_length_le hb value, List.length_pos_iff.2 hne, fun it hit => (mem_markLast_map hit).1⟩
    | bflushEmpty | bflushPending => simp [markLast]
    | cget | cbits | nend | rdreg => simp [markLast]
    | binit | clen | cset | nbegin | nsym | clrf => simp [markLast]

end Sys2Proof.Proofs
end

