-- ==== Sys2Proof/Proofs/Table.lean ====
section
/-! PROOF. Who writes the charset table, and which of its entries an outcome depends on (20_memory.md R61, R62, R64). A
command other than CSET commutes with replacing the table by one that agrees on the entries it reads (`exec_setTable`);
the noninterference statements follow from it. -/

namespace Sys2Proof.Machine

/-! ### Only CSET writes the table -/

/-- A command other than `CSET` keeps the charset table (20_memory.md R61). -/
theorem exec_ct_of_ne_cset {i : Instr} {s t : State} (h : exec i s = .next t) (hi : ∀ idx ch, i ≠ .cset idx ch) :
    t.ct = s.ct := by
  cases runs_of_exec h with
  | discarded => rfl
  | faulted => rfl
  | completed hc =>
    cases hc with
    | cset => exact absurd rfl (hi _ _)
    | _ => rfl

/-- A word whose opcode is not that of `CSET` keeps the charset table, whether it decodes or not. -/
theorem accept_ct_of_opField_ne {c : CmdWord} {s t : State} (h : accept c s = .next t) (hc : opField c ≠ 0x11#8) :
    t.ct = s.ct := by
  obtain ⟨i, hdec, hexec⟩ | ⟨-, -, hill⟩ := accept_cases h
  · refine exec_ct_of_ne_cset hexec ?_
    rintro idx ch rfl
    exact hc (opcodeOf_of_decode_eq_ok hdec).symm
  · obtain ⟨-, rfl⟩ | ⟨-, rfl⟩ := execIllegal_cases hill <;> rfl

/-! ### The outcome of a command on another table -/

/-- An outcome with the charset table replaced in its next state: what `exec_setTable` says a command answers on another
table. -/
def withTable (m : Memory) : Result → Result
  | .next s => .next (s.setTable m)
  | .fault r => .fault r
  | .refused r => .refused r

@[simp] theorem withTable_next (m : Memory) (s : State) : withTable m (.next s) = .next (s.setTable m) := rfl

/-- The check for fault state reads no entry. -/
theorem unlessFaulted_setTable {s : State} {m : Memory} {run run' : Result}
    (h : s.status.f = false → run' = withTable m run) :
    unlessFaulted (s.setTable m) run' = withTable m (unlessFaulted s run) := by
  cases hf : s.status.f with
  | true => rw [unlessFaulted_discard hf, unlessFaulted_discard (s := s.setTable m) hf, withTable_next]
  | false => rw [unlessFaulted_run hf, unlessFaulted_run (s := s.setTable m) hf, h hf]

/-- A check that gives the same on both tables leaves the two branches to compare. -/
theorem ite_withTable {p : Prop} [Decidable p] {m : Memory} {a b a' b' : Result} (ha : p → a' = withTable m a)
    (hb : ¬ p → b' = withTable m b) : (if p then a' else b') = withTable m (if p then a else b) := by
  split
  exacts [ha ‹_›, hb ‹_›]

theorem execRdreg_setTable (r : BitVec 8) (s : State) (m : Memory) :
    execRdreg r (s.setTable m) = withTable m (execRdreg r s) := by
  have hreg : readReg (s.setTable m) r.toNat = readReg s r.toNat := rfl
  unfold execRdreg
  rw [hreg]
  cases readReg s r.toNat with
  | some d => rfl
  | none => exact unlessFaulted_setTable fun _ => rfl

/-! ### A lookup depends on the entries it visits (R64) -/

theorem lookup_congr_some {m m' : Memory} {base i : Nat} {ch : CharCode} (h : lookup m base ch = some i)
    (hm : ∀ k ≤ i, readEntry m' k = readEntry m k) : lookup m' base ch = some i := by
  obtain ⟨hlt, hch, hleast⟩ := lookup_eq_some.1 h
  refine lookup_eq_some.2 ⟨hlt, (hm i le_rfl).trans hch, fun j hj => ?_⟩
  rw [hm j hj.le]
  exact hleast j hj

theorem lookup_congr_none {m m' : Memory} {base : Nat} {ch : CharCode} (h : lookup m base ch = none)
    (hm : ∀ k < base, readEntry m' k = readEntry m k) : lookup m' base ch = none :=
  lookup_eq_none.2 fun i hi => by rw [hm i hi]; exact lookup_eq_none.1 h i hi

end Sys2Proof.Machine

namespace Sys2Proof.Safety

open Sys2Proof.Machine

/-! ### The entries a command reads -/

theorem entriesRead_ngen {s : State} (hb : 2 ≤ s.base.toNat) (value : Data) :
    entriesRead s (.ngen value) = digits s.base.toNat value.toNat := if_neg (Nat.not_lt.2 hb)

theorem mem_entriesRead_nsym_some {s : State} {ch : CharCode} {i k : Nat} (hn : s.status.nact = true)
    (hl : lookup s.ct s.base.toNat ch = some i) : k ∈ entriesRead s (.nsym ch) ↔ k ≤ i := by
  simp [entriesRead, hn, hl]

theorem mem_entriesRead_nsym_none {s : State} {ch : CharCode} {k : Nat} (hn : s.status.nact = true)
    (hl : lookup s.ct s.base.toNat ch = none) : k ∈ entriesRead s (.nsym ch) ↔ k < s.base.toNat := by
  simp [entriesRead, hn, hl]

/-- NGEN reads no entry at BASE or above (R131). -/
theorem lt_base_of_mem_entriesRead_ngen {s : State} {value : Data} {k : Nat} (hk : k ∈ entriesRead s (.ngen value)) :
    k < s.base.toNat := by
  by_cases hb : 2 ≤ s.base.toNat
  · rw [entriesRead_ngen hb] at hk
    exact digits_lt _ _ hb value.isLt k hk
  · simp [entriesRead, Nat.lt_of_not_le hb] at hk

/-- NSYM reads no entry at BASE or above: the search of R64 ends there. -/
theorem lt_base_of_mem_entriesRead_nsym {s : State} {ch : CharCode} {k : Nat} (hk : k ∈ entriesRead s (.nsym ch)) :
    k < s.base.toNat := by
  cases hn : s.status.nact with
  | false => simp [entriesRead, hn] at hk
  | true =>
    cases hl : lookup s.ct s.base.toNat ch with
    | none => exact (mem_entriesRead_nsym_none hn hl).1 hk
    | some i => exact ((mem_entriesRead_nsym_some hn hl).1 hk).trans_lt (lookup_eq_some.1 hl).1

theorem readsOnlyWritten_iff {i : Instr} {s : State} : readsOnlyWritten i s = true ↔
    (s.status.f = false → ∀ k ∈ entriesRead s i, (readEntry? s.ct k).isSome = true) := by
  cases hf : s.status.f <;> simp [readsOnlyWritten, hf]

/-- A command whose entries lie in a written part of the table keeps the discipline of R61. -/
theorem readsOnlyWritten_of_lt {i : Instr} {s : State} {n : Nat} (hreads : ∀ k ∈ entriesRead s i, k < n)
    (hwritten : ∀ k < n, (readEntry? s.ct k).isSome = true) : readsOnlyWritten i s = true :=
  readsOnlyWritten_iff.2 fun _ k hk => hwritten k (hreads k hk)

theorem readEntry_eq_of_readEntry? {m : Memory} {k : Nat} {ch : CharCode} (h : readEntry? m k = some ch) :
    readEntry m k = ch := by
  simp [readEntry, h]

/-! ### The outcome depends on the entries read and on no others -/

/-- NGEN reads its digits' entries (R131). -/
theorem execNgen_setTable {value : Data} {s : State} {m : Memory}
    (h : s.status.f = false → ∀ k ∈ entriesRead s (.ngen value), readEntry m k = readEntry s.ct k) :
    execNgen value (s.setTable m) = withTable m (execNgen value s) := by
  refine unlessFaulted_setTable fun hf => ite_withTable (fun _ => rfl) fun (hb : ¬ s.base.toNat < 2) => ?_
  have hreads := h hf
  rw [entriesRead_ngen (Nat.not_lt.1 hb)] at hreads
  have hpushes : (digits s.base.toNat value.toNat).map (fun r => (Tag.chr, zext64 (readEntry m r))) =
      (digits s.base.toNat value.toNat).map fun r => (Tag.chr, zext64 (readEntry s.ct r)) :=
    List.map_congr_left fun r hr => by rw [hreads r hr]
  exact congrArg (finish (s.setTable m)) hpushes

/-- NSYM reads up to the entry it finds, or all below BASE (R64, R133). -/
theorem execNsym_setTable {ch : CharCode} {s : State} {m : Memory}
    (h : s.status.f = false → ∀ k ∈ entriesRead s (.nsym ch), readEntry m k = readEntry s.ct k) :
    execNsym ch (s.setTable m) = withTable m (execNsym ch s) := by
  refine unlessFaulted_setTable fun hf => ite_withTable (fun (hn : s.status.nact = true) => ?_) fun _ => rfl
  have hreads := h hf
  cases hl : lookup s.ct s.base.toNat ch with
  | none =>
    have hl' := lookup_congr_none hl fun k hk => hreads k ((mem_entriesRead_nsym_none hn hl).2 hk)
    simp only [setTable_ct, setTable_base, hl']
    rfl
  | some i =>
    have hl' := lookup_congr_some hl fun k hk => hreads k ((mem_entriesRead_nsym_some hn hl).2 hk)
    have hadd : addDigit (s.setTable m) i = addDigit s i := rfl
    simp only [setTable_ct, setTable_base, hl', hadd]
    cases addDigit s i <;> rfl

/-- The noninterference of the charset table: a command other than `CSET` does the same with any table that agrees on
`entriesRead`, and leaves that table as it was. -/
theorem exec_setTable {i : Instr} {s : State} {m : Memory} (hi : ∀ idx ch, i ≠ .cset idx ch)
    (h : s.status.f = false → ∀ k ∈ entriesRead s i, readEntry m k = readEntry s.ct k) :
    exec i (s.setTable m) = withTable m (exec i s) := by
  cases i with
  | cset idx ch => exact absurd rfl (hi idx ch)
  | cget idx =>
    refine unlessFaulted_setTable fun hf => ?_
    have hread : readEntry m idx.toNat = readEntry s.ct idx.toNat := h hf _ (List.mem_singleton_self _)
    simp only [setTable_ct, hread]
    rfl
  | ngen value => exact execNgen_setTable h
  | nsym ch => exact execNsym_setTable h
  | rdreg r => exact execRdreg_setTable r s m
  | clrf => rfl
  | nbegin | nend | binit => exact unlessFaulted_setTable fun _ => ite_withTable (fun _ => rfl) fun _ => rfl
  | bput | bflush | clen | cbits =>
    exact unlessFaulted_setTable fun _ =>
      ite_withTable (fun _ => rfl) fun _ => ite_withTable (fun _ => rfl) fun _ => rfl

end Sys2Proof.Safety

namespace Sys2Proof.Proofs

open Sys2Proof.Machine Sys2Proof.Safety

/-- Settles O23: idle, pop and reset do not touch the table, and a word whose opcode is not that of CSET keeps it. -/
theorem onlyCsetWritesTable : Obligations.OnlyCsetWritesTable := by
  intro s t hstep hword i
  have hct : t.ct = s.ct := by
    obtain ⟨-, rfl⟩ | ⟨c, rest, hhost, hacc⟩ | ⟨item, q, rest, -, -, rfl⟩ | ⟨rest, -, rfl⟩ := step_cases hstep
    · rfl
    · exact (accept_ct_of_opField_ne hacc (hword c rest hhost)).trans (setHost_ct s rest)
    · rfl
    · rfl
  rw [hct]
  exact ⟨rfl, rfl⟩

/-- Settles O24: the other table agrees on the written entries, so on all that the command reads. -/
theorem writtenEntriesDecideOutcome : Obligations.WrittenEntriesDecideOutcome := by
  intro i s t m hwritten hi hm hexec
  have hreads (hf : s.status.f = false) (k : Nat) (hk : k ∈ entriesRead s i) : readEntry m k = readEntry s.ct k := by
    obtain ⟨ch, hch⟩ := Option.isSome_iff_exists.1 (readsOnlyWritten_iff.1 hwritten hf k hk)
    rw [readEntry_eq_of_readEntry? hch, readEntry_eq_of_readEntry? (hm k ch hch)]
  exact (exec_setTable hi hreads).trans (congrArg (withTable m) hexec)

/-- Settles O25: NGEN and NSYM read below BASE only, where the two tables agree. -/
theorem entriesAboveBaseIgnored : Obligations.EntriesAboveBaseIgnored := by
  rintro s t m i (⟨value, rfl⟩ | ⟨ch, rfl⟩) hm hexec
  · have hngen := execNgen_setTable (value := value) fun _ k hk => (hm k (lt_base_of_mem_entriesRead_ngen hk)).symm
    exact hngen.trans (congrArg (withTable m) hexec)
  · have hnsym := execNsym_setTable (ch := ch) fun _ k hk => (hm k (lt_base_of_mem_entriesRead_nsym hk)).symm
    exact hnsym.trans (congrArg (withTable m) hexec)

end Sys2Proof.Proofs
end

