-- ==== Sys2Proof/Proofs/LoadCharset.lean ====
section
/-! PROOF. LOADCS (43_codec_procedures.md R180) run on the model: the rules for running a host procedure, the state
LOADCS leaves, and that every entry below BASE is then written (20_memory.md R61, 70_reset_and_hazards.md R253). -/

namespace Sys2Proof

/-! ### The commands of LOADCS decode as encoded -/

/-- A field of an encoded command may be taken from its argument (30_encoding.md R82). -/
theorem extract_encode (i : Instr) (start len : Nat) (h : start + len ≤ 64) :
    (encode i).extractLsb' start len = (argumentOf i).extractLsb' start len := by
  rw [extract_of_argField _ _ _ h, argField_encode]

theorem decode_encode_clen (n : BitVec 9) : decode (encode (.clen n)) = .ok (.clen n) := by
  have hreserved : (encode (.clen n)).extractLsb' 9 55 = 0#55 :=
    (extract_encode _ _ _ (by decide)).trans BitVec.extractLsb'_append_eq_left
  have hn : (encode (.clen n)).extractLsb' 0 9 = n :=
    (extract_encode _ _ _ (by decide)).trans BitVec.extractLsb'_append_eq_right
  unfold decode
  rw [opField_encode, hreserved, hn]
  rfl

theorem decode_encode_cset (idx : BitVec 8) (ch : CharCode) :
    decode (encode (.cset idx ch)) = .ok (.cset idx ch) := by
  have hhigh : (encode (.cset idx ch)).extractLsb' 40 24 = 0#24 := by
    rw [extract_encode _ _ _ (by decide)]
    exact (BitVec.extractLsb'_append_eq_of_le (by decide)).trans
      ((BitVec.extractLsb'_append_eq_of_le (by decide)).trans BitVec.extractLsb'_append_eq_left)
  have hmiddle : (encode (.cset idx ch)).extractLsb' 21 11 = 0#11 := by
    rw [extract_encode _ _ _ (by decide)]
    exact (BitVec.extractLsb'_append_eq_of_le (by decide)).trans BitVec.extractLsb'_append_eq_right
  have hidx : (encode (.cset idx ch)).extractLsb' 32 8 = idx := by
    rw [extract_encode _ _ _ (by decide)]
    exact (BitVec.extractLsb'_append_eq_of_le (by decide)).trans
      ((BitVec.extractLsb'_append_eq_of_le (by decide)).trans BitVec.extractLsb'_append_eq_right)
  have hch : (encode (.cset idx ch)).extractLsb' 0 21 = ch :=
    (extract_encode _ _ _ (by decide)).trans BitVec.extractLsb'_append_eq_right
  unfold decode
  rw [opField_encode, hhigh, hmiddle, hidx, hch]
  rfl

end Sys2Proof

namespace Sys2Proof.Machine

/-! ### CLEN and CSET completing, the frame of NBEGIN -/

/-- A command that pushes nothing only counts. -/
theorem complete_nil (s : State) : complete s [] = { s with cmdcnt := s.cmdcnt + 1 } := by
  simp [complete, markLast]

theorem exec_clen_completes {n : BitVec 9} {s : State} (hf : s.status.f = false) (hn : s.status.nact = false)
    (hl : n.toNat ≤ 256) :
    exec (.clen n) s = .next { s with base := n, bps := 0, cmdcnt := s.cmdcnt + 1 } := by
  have hrun : exec (.clen n) s = .next (complete (s.setCharset n 0) []) := by
    simp [exec, execClen, unlessFaulted_run hf, hn, (legalLength_iff n).2 hl]
  rw [hrun, complete_nil]
  rfl

theorem exec_cset_completes {idx : BitVec 8} {ch : CharCode} {s : State} (hf : s.status.f = false)
    (hn : s.status.nact = false) :
    exec (.cset idx ch) s = .next { s with ct := writeEntry idx.toNat ch s.ct, cmdcnt := s.cmdcnt + 1 } := by
  have hrun : exec (.cset idx ch) s = .next (complete (s.setTable (writeEntry idx.toNat ch s.ct)) []) := by
    simp [exec, execCset, unlessFaulted_run hf, hn]
  rw [hrun, complete_nil]
  rfl

/-- NBEGIN keeps BASE and the charset table, whether it completes or not. -/
theorem execNbegin_keeps_charset {s t : State} (h : execNbegin s = .next t) : t.base = s.base ∧ t.ct = s.ct := by
  obtain ⟨-, rfl⟩ | ⟨-, -, rfl⟩ | ⟨-, -, rfl⟩ := execNbegin_cases h <;> exact ⟨rfl, rfl⟩

/-! ### The table LOADCS leaves -/

/-- The table after the `CSET`s of `loadEntries i charset` (`runProc_loadEntries`). -/
def loadedTable : Nat → List CharCode → Memory → Memory
  | _, [], m => m
  | i, ch :: chs, m => loadedTable (i + 1) chs (writeEntry i ch m)

/-- The entries outside the loaded range stay as they were. -/
theorem readEntry?_loadedTable_outside (charset : List CharCode) (i k : Nat) (m : Memory)
    (hk : k < i ∨ i + charset.length ≤ k) : readEntry? (loadedTable i charset m) k = readEntry? m k := by
  induction charset generalizing i m with
  | nil => rfl
  | cons ch chs ih =>
    rw [List.length_cons] at hk
    rw [loadedTable, ih (i + 1) _ (by omega), readEntry?_writeEntry_other _ _ _ _ (by omega)]

/-- The loaded entries are written and hold the codes in order. -/
theorem readEntry?_loadedTable (charset : List CharCode) (i j : Nat) (m : Memory) (hj : j < charset.length) :
    readEntry? (loadedTable i charset m) (i + j) = charset[j]? := by
  induction charset generalizing i j m with
  | nil => simp at hj
  | cons ch chs ih =>
    cases j with
    | zero =>
      calc readEntry? (loadedTable (i + 1) chs (writeEntry i ch m)) i
        _ = readEntry? (writeEntry i ch m) i := readEntry?_loadedTable_outside _ _ _ _ (.inl i.lt_succ_self)
        _ = some ch := readEntry?_writeEntry_same i ch m
    | succ j =>
      rw [loadedTable, show i + (j + 1) = i + 1 + j by omega, List.getElem?_cons_succ]
      exact ih (i + 1) j _ (Nat.lt_of_succ_lt_succ hj)

/-- A legal charset length fits BASE (10_state.md R29). -/
theorem toNat_ofNat_of_le_ctSize {n : Nat} (h : n ≤ 256) : (BitVec.ofNat 9 n).toNat = n :=
  toNat_ofNat_of_lt (k := 9) (by omega) le_rfl

/-- Counting one command and then `n` more. -/
theorem add_one_add_ofNat (x : BitVec 32) (n : Nat) : x + 1 + BitVec.ofNat 32 n = x + BitVec.ofNat 32 (n + 1) := by
  rw [BitVec.add_assoc, Nat.add_comm n, BitVec.ofNat_add]
  rfl

end Sys2Proof.Machine

namespace Sys2Proof.Safety

open Sys2Proof.Machine

/-! ### Running host procedures -/

/-- A procedure whose first part ends with a result goes on from the state that part leaves. -/
theorem runProc_bind {α β : Type} {p : HostProc α} {f : α → HostProc β} {s t : State} {a : α}
    (h : runProc p s = (.ok a, t)) : runProc (p >>= f) s = runProc (f a) t := by
  unfold runProc at h ⊢
  rw [ExceptT.run_bind, StateT.run_bind, h]
  rfl

theorem runProc_get (s : State) : runProc get s = (.ok s, s) := rfl

theorem runProc_makeMove {mv : HostMove} {s t : State} (h : hostMove mv s = .next t) :
    runProc (makeMove mv) s = (.ok (), t) := by
  unfold makeMove
  rw [runProc_bind (runProc_get s), h]
  rfl

theorem runProc_issue {i : Instr} {s t : State} (hdec : decode (encode i) = .ok i) (h : exec i s = .next t) :
    runProc (issue i) s = (.ok (), t) :=
  runProc_makeMove ((accept_of_decode_ok hdec s).trans h)

/-! ### LOADCS -/

/-- The CSETs of LOADCS write the codes from entry `i` on and count; nothing else changes. -/
theorem runProc_loadEntries (charset : List CharCode) (i : Nat) (s : State) (hlen : i + charset.length ≤ 256)
    (hf : s.status.f = false) (hn : s.status.nact = false) :
    runProc (loadEntries i charset) s = (.ok (), { s with
      ct := loadedTable i charset s.ct
      cmdcnt := s.cmdcnt + BitVec.ofNat 32 charset.length }) := by
  induction charset generalizing i s with
  | nil =>
    rw [List.length_nil, BitVec.add_zero]
    rfl
  | cons ch chs ih =>
    rw [List.length_cons] at hlen ⊢
    have hidx : (BitVec.ofNat 8 i).toNat = i := toNat_ofNat_of_lt (k := 8) (by omega) le_rfl
    have hcset := runProc_issue (decode_encode_cset (BitVec.ofNat 8 i) ch) (exec_cset_completes hf hn)
    rw [hidx] at hcset
    rw [loadEntries, runProc_bind hcset, ih (i + 1) _ (by omega) (by exact hf) (by exact hn), ← add_one_add_ofNat]
    rfl

/-- LOADCS (R180): CLEN of the length, then a CSET for each code in turn. -/
theorem runProc_loadCharset (charset : List CharCode) (s : State) (hlen : charset.length ≤ 256)
    (hf : s.status.f = false) (hn : s.status.nact = false) :
    runProc (loadCharset charset) s = (.ok (), { s with
      base := BitVec.ofNat 9 charset.length
      bps := 0
      ct := loadedTable 0 charset s.ct
      cmdcnt := s.cmdcnt + BitVec.ofNat 32 (charset.length + 1) }) := by
  have hbase := toNat_ofNat_of_le_ctSize hlen
  have hclen := runProc_issue (decode_encode_clen (BitVec.ofNat 9 charset.length))
    (exec_clen_completes hf hn (hbase.trans_le hlen))
  rw [loadCharset, if_neg (Nat.not_lt.2 hlen), runProc_bind hclen,
    runProc_loadEntries charset 0 _ (by omega) (by exact hf) (by exact hn), ← add_one_add_ofNat]

/-- After LOADCS, BASE is the charset's length and every entry below it is written. -/
theorem written_below_base_of_loadCharset {charset : List CharCode} {s t : State} (hlen : charset.length ≤ 256)
    (hf : s.status.f = false) (hn : s.status.nact = false) (hrun : runProc (loadCharset charset) s = (.ok (), t)) :
    t.base.toNat = charset.length ∧ ∀ k < t.base.toNat, (readEntry? t.ct k).isSome = true := by
  obtain rfl : t = _ := congrArg Prod.snd (hrun.symm.trans (runProc_loadCharset charset s hlen hf hn))
  have hbase := toNat_ofNat_of_le_ctSize hlen
  refine ⟨hbase, fun k hk => ?_⟩
  have hk : k < charset.length := hbase ▸ hk
  have hread := readEntry?_loadedTable charset 0 k s.ct hk
  rw [Nat.zero_add, List.getElem?_eq_getElem hk] at hread
  exact Option.isSome_of_eq_some hread

end Sys2Proof.Safety

namespace Sys2Proof.Proofs

open Sys2Proof.Machine Sys2Proof.Safety

/-- Settles O44: LOADCS has written every entry below BASE, NBEGIN changes neither BASE nor the table, and the
converting commands read below BASE only. -/
theorem loadedCharsetIsWritten : Obligations.LoadedCharsetIsWritten := by
  intro charset s t _ hlen hf hn hrun
  obtain ⟨hbase, hwritten⟩ := written_below_base_of_loadCharset hlen hf hn hrun
  refine ⟨fun value => ?_, fun ch u hbegin => ?_, fun idx hidx => ?_⟩
  · exact readsOnlyWritten_of_lt (fun _ => lt_base_of_mem_entriesRead_ngen) hwritten
  · obtain ⟨hbase', hct⟩ := execNbegin_keeps_charset hbegin
    rw [← hbase', ← hct] at hwritten
    exact readsOnlyWritten_of_lt (fun _ => lt_base_of_mem_entriesRead_nsym) hwritten
  · refine readsOnlyWritten_of_lt (fun k hk => ?_) hwritten
    obtain rfl : k = idx.toNat := List.mem_singleton.1 hk
    exact hidx.trans_eq hbase.symm

end Sys2Proof.Proofs
end

