-- ==== Sys2Proof/Proofs/Encoding.lean ====
section
/-! PROOF. Encoding (30_encoding.md): when a word selects a command, said once as `Selects`; from it the round trips of
`decode` and `encode`, the match and mask of R89, and the fixed words and lines. -/

namespace Sys2Proof

/-! ### When a word selects a command -/

/-- Word `c` selects command `i` (R81, R82): the opcode of the row, zero in each reserved field of its format, and the
operands in theirs. -/
inductive Selects (c : CmdWord) : Instr → Prop
  | binit {w : BitVec 6} (hop : opField c = 0x01#8) (hz : c.extractLsb' 6 58 = 0#58) (hw : c.extractLsb' 0 6 = w) :
      Selects c (.binit w)
  | bput {v : BitVec 32} {iw : BitVec 6} (hop : opField c = 0x02#8) (hz : c.extractLsb' 38 26 = 0#26)
      (hiw : c.extractLsb' 32 6 = iw) (hv : c.extractLsb' 0 32 = v) : Selects c (.bput v iw)
  | bflush (hop : opField c = 0x03#8) (hz : argField c = 0#64) : Selects c .bflush
  | clen {n : BitVec 9} (hop : opField c = 0x10#8) (hz : c.extractLsb' 9 55 = 0#55) (hn : c.extractLsb' 0 9 = n) :
      Selects c (.clen n)
  | cset {idx : BitVec 8} {ch : CharCode} (hop : opField c = 0x11#8) (hz : c.extractLsb' 40 24 = 0#24)
      (hidx : c.extractLsb' 32 8 = idx) (hz' : c.extractLsb' 21 11 = 0#11) (hch : c.extractLsb' 0 21 = ch) :
      Selects c (.cset idx ch)
  | cget {idx : BitVec 8} (hop : opField c = 0x12#8) (hz : c.extractLsb' 40 24 = 0#24)
      (hidx : c.extractLsb' 32 8 = idx) (hz' : c.extractLsb' 0 32 = 0#32) : Selects c (.cget idx)
  | cbits (hop : opField c = 0x13#8) (hz : argField c = 0#64) : Selects c .cbits
  | ngen {value : BitVec 64} (hop : opField c = 0x20#8) (hvalue : argField c = value) : Selects c (.ngen value)
  | nbegin (hop : opField c = 0x21#8) (hz : argField c = 0#64) : Selects c .nbegin
  | nsym {ch : CharCode} (hop : opField c = 0x22#8) (hz : c.extractLsb' 21 43 = 0#43) (hch : c.extractLsb' 0 21 = ch) :
      Selects c (.nsym ch)
  | nend (hop : opField c = 0x23#8) (hz : argField c = 0#64) : Selects c .nend
  | rdreg {r : BitVec 8} (hop : opField c = 0x30#8) (hz : c.extractLsb' 8 56 = 0#56) (hr : c.extractLsb' 0 8 = r) :
      Selects c (.rdreg r)
  | clrf (hop : opField c = 0x31#8) (hz : argField c = 0#64) : Selects c .clrf

theorem requireZero_beq_eq_ok_iff {n : Nat} {x z : BitVec n} {c : CmdWord} {i j : Instr} :
    requireZero (x == z) c i = .ok j ↔ x = z ∧ i = j := by
  by_cases hx : x = z <;> simp [requireZero, hx]

/-- The formats T and I have two gaps. -/
theorem requireZero_beq_and_beq_eq_ok_iff {n m : Nat} {x z : BitVec n} {x' z' : BitVec m} {c : CmdWord} {i j : Instr} :
    requireZero (x == z && x' == z') c i = .ok j ↔ (x = z ∧ x' = z') ∧ i = j := by
  by_cases hx : x = z <;> by_cases hx' : x' = z' <;> simp [requireZero, hx, hx']

/-- The inversion of `decode`: everything a word that decodes can select. -/
theorem selects_of_decode_eq_ok {c : CmdWord} {i : Instr} (h : decode c = .ok i) : Selects c i := by
  unfold decode at h
  split at h
  case h_5 hop =>
    obtain ⟨⟨hz, hz'⟩, rfl⟩ := requireZero_beq_and_beq_eq_ok_iff.1 h
    exact .cset hop hz rfl hz' rfl
  case h_6 hop =>
    obtain ⟨⟨hz, hz'⟩, rfl⟩ := requireZero_beq_and_beq_eq_ok_iff.1 h
    exact .cget hop hz rfl hz'
  case h_8 hop => cases h; exact .ngen hop rfl
  case h_14 => cases h
  all_goals obtain ⟨hz, rfl⟩ := requireZero_beq_eq_ok_iff.1 h
  case h_1 hop => exact .binit hop hz rfl
  case h_2 hop => exact .bput hop hz rfl rfl
  case h_3 hop => exact .bflush hop hz
  case h_4 hop => exact .clen hop hz rfl
  case h_7 hop => exact .cbits hop hz
  case h_9 hop => exact .nbegin hop hz
  case h_10 hop => exact .nsym hop hz rfl
  case h_11 hop => exact .nend hop hz
  case h_12 hop => exact .rdreg hop hz rfl
  case h_13 hop => exact .clrf hop hz

/-- A word that selects a command decodes to it. -/
theorem Selects.decode_eq_ok {c : CmdWord} {i : Instr} (h : Selects c i) : decode c = .ok i := by
  unfold decode
  cases h with
  | ngen hop hvalue => rw [hop, hvalue]; rfl
  | cset hop hz hidx hz' hch => rw [hop, hz, hidx, hz', hch]; rfl
  | cget hop hz hidx hz' => rw [hop, hz, hidx, hz']; rfl
  | bput hop hz hiw hv => rw [hop, hz, hiw, hv]; rfl
  | binit hop hz hx | clen hop hz hx | nsym hop hz hx | rdreg hop hz hx => rw [hop, hz, hx]; rfl
  | bflush hop hz | cbits hop hz | nbegin hop hz | nend hop hz | clrf hop hz => rw [hop, hz]; rfl

/-! ### Encoding selects -/

/-- An encoded command selects itself: each field of the word is the part of the argument written there (R83 to R85). -/
theorem selects_encode (i : Instr) : Selects (encode i) i := by
  have hop := opField_encode i
  have harg := argField_encode i
  have hfield := extract_encode i
  cases i with
  | binit w =>
    exact .binit hop ((hfield 6 58 (by decide)).trans BitVec.extractLsb'_append_eq_left)
      ((hfield 0 6 (by decide)).trans BitVec.extractLsb'_append_eq_right)
  | bput v iw =>
    exact .bput hop
      ((hfield 38 26 (by decide)).trans <| (BitVec.extractLsb'_append_eq_of_le (by decide)).trans
        BitVec.extractLsb'_append_eq_left)
      ((hfield 32 6 (by decide)).trans <| (BitVec.extractLsb'_append_eq_of_le (by decide)).trans
        BitVec.extractLsb'_append_eq_right)
      ((hfield 0 32 (by decide)).trans BitVec.extractLsb'_append_eq_right)
  | clen n => exact selects_of_decode_eq_ok (decode_encode_clen n)
  | cset idx ch => exact selects_of_decode_eq_ok (decode_encode_cset idx ch)
  | cget idx =>
    exact .cget hop
      ((hfield 40 24 (by decide)).trans <| (BitVec.extractLsb'_append_eq_of_le (by decide)).trans
        BitVec.extractLsb'_append_eq_left)
      ((hfield 32 8 (by decide)).trans <| (BitVec.extractLsb'_append_eq_of_le (by decide)).trans
        BitVec.extractLsb'_append_eq_right)
      ((hfield 0 32 (by decide)).trans BitVec.extractLsb'_append_eq_right)
  | ngen value => exact .ngen hop harg
  | nsym ch =>
    exact .nsym hop ((hfield 21 43 (by decide)).trans BitVec.extractLsb'_append_eq_left)
      ((hfield 0 21 (by decide)).trans BitVec.extractLsb'_append_eq_right)
  | rdreg r =>
    exact .rdreg hop ((hfield 8 56 (by decide)).trans BitVec.extractLsb'_append_eq_left)
      ((hfield 0 8 (by decide)).trans BitVec.extractLsb'_append_eq_right)
  | bflush => exact .bflush hop harg
  | cbits => exact .cbits hop harg
  | nbegin => exact .nbegin hop harg
  | nend => exact .nend hop harg
  | clrf => exact .clrf hop harg

/-! ### A selecting word is the encoding -/

/-- The argument of a selecting word is that of the command: the fields of a format lie side by side and leave no bit
out. -/
theorem Selects.argField_eq {c : CmdWord} {i : Instr} (h : Selects c i) : argField c = argumentOf i := by
  have adjacent (start₁ len₁ len₂ : Nat) :
      c.extractLsb' start₁ (len₂ + len₁) = c.extractLsb' (start₁ + len₁) len₂ ++ c.extractLsb' start₁ len₁ :=
    (BitVec.extractLsb'_append_extractLsb'_eq_extractLsb' rfl).symm
  cases h with
  | @binit w hop hz hw =>
    calc argField c = c.extractLsb' 6 58 ++ c.extractLsb' 0 6 := adjacent 0 6 58
      _ = 0#58 ++ w := by rw [hz, hw]
  | @bput v iw hop hz hiw hv =>
    calc argField c = c.extractLsb' 32 32 ++ c.extractLsb' 0 32 := adjacent 0 32 32
      _ = c.extractLsb' 38 26 ++ c.extractLsb' 32 6 ++ c.extractLsb' 0 32 :=
        congrArg (· ++ c.extractLsb' 0 32) (adjacent 32 6 26)
      _ = 0#26 ++ iw ++ v := by rw [hz, hiw, hv]
  | @clen n hop hz hn =>
    calc argField c = c.extractLsb' 9 55 ++ c.extractLsb' 0 9 := adjacent 0 9 55
      _ = 0#55 ++ n := by rw [hz, hn]
  | @cset idx ch hop hz hidx hz' hch =>
    calc argField c = c.extractLsb' 21 43 ++ c.extractLsb' 0 21 := adjacent 0 21 43
      _ = c.extractLsb' 32 32 ++ c.extractLsb' 21 11 ++ c.extractLsb' 0 21 :=
        congrArg (· ++ c.extractLsb' 0 21) (adjacent 21 11 32)
      _ = c.extractLsb' 40 24 ++ c.extractLsb' 32 8 ++ c.extractLsb' 21 11 ++ c.extractLsb' 0 21 :=
        congrArg (· ++ c.extractLsb' 21 11 ++ c.extractLsb' 0 21) (adjacent 32 8 24)
      _ = 0#24 ++ idx ++ 0#11 ++ ch := by rw [hz, hidx, hz', hch]
  | @cget idx hop hz hidx hz' =>
    calc argField c = c.extractLsb' 32 32 ++ c.extractLsb' 0 32 := adjacent 0 32 32
      _ = c.extractLsb' 40 24 ++ c.extractLsb' 32 8 ++ c.extractLsb' 0 32 :=
        congrArg (· ++ c.extractLsb' 0 32) (adjacent 32 8 24)
      _ = 0#24 ++ idx ++ 0#32 := by rw [hz, hidx, hz']
  | @nsym ch hop hz hch =>
    calc argField c = c.extractLsb' 21 43 ++ c.extractLsb' 0 21 := adjacent 0 21 43
      _ = 0#43 ++ ch := by rw [hz, hch]
  | @rdreg r hop hz hr =>
    calc argField c = c.extractLsb' 8 56 ++ c.extractLsb' 0 8 := adjacent 0 8 56
      _ = 0#56 ++ r := by rw [hz, hr]
  | ngen hop hvalue => exact hvalue
  | bflush hop hz | cbits hop hz | nbegin hop hz | nend hop hz | clrf hop hz => exact hz

theorem Selects.encode_eq {c : CmdWord} {i : Instr} (h : Selects c i) : encode i = c := by
  rw [encode, Machine.opcodeOf_of_decode_eq_ok h.decode_eq_ok, ← h.argField_eq, word_eq_fields]

end Sys2Proof

/-! ### Match and mask -/

namespace Sys2Proof.Laws.SelectedByMask

open Sys2Proof.Machine Sys2Proof.Safety

/-- Every encoded command has its row's match under its row's mask. -/
theorem encode_and_mask : ∀ i : Instr, encode i &&& (row i).2 = (row i).1
  | .binit w => binit w
  | .bput v iw => bput v iw
  | .bflush => bflush
  | .clen n => clen n
  | .cset idx ch => cset idx ch
  | .cget idx => cget idx
  | .cbits => cbits
  | .ngen value => ngen value
  | .nbegin => nbegin
  | .nsym ch => nsym ch
  | .nend => nend
  | .rdreg r => rdreg r
  | .clrf => clrf

/-- The row of R89's table that holds a command. -/
def rowOf (i : Instr) : OpcodeRow := { op := opcodeOf i, matchBits := (row i).1, maskBits := (row i).2 }

/-- R89's table has one row for each mnemonic. -/
theorem opcodeRows_eq_map_templates : opcodeRows = templates.map rowOf := by decide

/-- The table has one row only for an opcode, so looking the opcode up finds the command's row. -/
theorem find?_opcodeRows (i : Instr) : opcodeRows.find? (fun r => r.op == opcodeOf i) = some (rowOf i) := by
  cases i <;> rfl

theorem rowOf_eq_of_opcodeOf_eq {i j : Instr} (h : opcodeOf i = opcodeOf j) : rowOf i = rowOf j := by
  have hi := find?_opcodeRows i
  rw [h, find?_opcodeRows j] at hi
  exact (Option.some.inj hi).symm

/-- Where the mask is all ones, a word with the match under the mask has the match's bits. -/
theorem extract_of_masked {n : Nat} {c m r : BitVec n} {start len : Nat} {x : BitVec len} (h : c &&& m = r)
    (hm : m.extractLsb' start len = BitVec.allOnes len) (hr : r.extractLsb' start len = x) :
    c.extractLsb' start len = x := by
  rw [← hr, ← h, BitVec.extractLsb'_and, hm, BitVec.and_allOnes]

/-- A word with the match of a command's row under its mask selects a command of that row: the mask covers the opcode
and the reserved fields, the operands are what the word holds. -/
theorem exists_selects_of_masked {c : CmdWord} {i : Instr} (h : c &&& (row i).2 = (row i).1) :
    ∃ j, Selects c j ∧ opcodeOf j = opcodeOf i := by
  cases i <;> simp only [row] at h
  case binit => exact ⟨_, .binit (extract_of_masked h rfl rfl) (extract_of_masked h rfl rfl) rfl, rfl⟩
  case bput => exact ⟨_, .bput (extract_of_masked h rfl rfl) (extract_of_masked h rfl rfl) rfl rfl, rfl⟩
  case bflush => exact ⟨_, .bflush (extract_of_masked h rfl rfl) (extract_of_masked h rfl rfl), rfl⟩
  case clen => exact ⟨_, .clen (extract_of_masked h rfl rfl) (extract_of_masked h rfl rfl) rfl, rfl⟩
  case cset => exact ⟨_, .cset (extract_of_masked h rfl rfl) (extract_of_masked h rfl rfl) rfl
    (extract_of_masked h rfl rfl) rfl, rfl⟩
  case cget => exact ⟨_, .cget (extract_of_masked h rfl rfl) (extract_of_masked h rfl rfl) rfl
    (extract_of_masked h rfl rfl), rfl⟩
  case cbits => exact ⟨_, .cbits (extract_of_masked h rfl rfl) (extract_of_masked h rfl rfl), rfl⟩
  case ngen => exact ⟨_, .ngen (extract_of_masked h rfl rfl) rfl, rfl⟩
  case nbegin => exact ⟨_, .nbegin (extract_of_masked h rfl rfl) (extract_of_masked h rfl rfl), rfl⟩
  case nsym => exact ⟨_, .nsym (extract_of_masked h rfl rfl) (extract_of_masked h rfl rfl) rfl, rfl⟩
  case nend => exact ⟨_, .nend (extract_of_masked h rfl rfl) (extract_of_masked h rfl rfl), rfl⟩
  case rdreg => exact ⟨_, .rdreg (extract_of_masked h rfl rfl) (extract_of_masked h rfl rfl) rfl, rfl⟩
  case clrf => exact ⟨_, .clrf (extract_of_masked h rfl rfl) (extract_of_masked h rfl rfl), rfl⟩

end Sys2Proof.Laws.SelectedByMask

namespace Sys2Proof.Proofs

open Sys2Proof.Machine Sys2Proof.Safety Sys2Proof.Laws.SelectedByMask

/-- Settles O1: an encoded command selects itself. -/
theorem decodeInvertsEncode : Obligations.DecodeInvertsEncode := fun i => (selects_encode i).decode_eq_ok

/-- Settles O2: the opcode, the zero reserved fields and the operands are all of a selecting word. -/
theorem encodeInvertsDecode : Obligations.EncodeInvertsDecode := fun _ _ h => (selects_of_decode_eq_ok h).encode_eq

/-- Settles O3: a word that decodes is an encoding (O2), and each encoding has the match of its opcode's row; a word
with the match selects a command of the row. -/
theorem maskSelectsCommand : Obligations.MaskSelectsCommand := by
  intro row hrow c
  rw [opcodeRows_eq_map_templates] at hrow
  obtain ⟨i, -, rfl⟩ := List.mem_map.1 hrow
  constructor
  · rintro ⟨j, hdec, hop⟩
    rw [← rowOf_eq_of_opcodeOf_eq hop, ← encodeInvertsDecode c j hdec]
    exact encode_and_mask j
  · intro hmask
    obtain ⟨j, hsel, hop⟩ := exists_selects_of_masked hmask
    exact ⟨j, hsel.decode_eq_ok, hop⟩

/-- Settles O4: the four legal words are encodings (O1); the two others by evaluation. -/
theorem sampleWordsDecode : Obligations.SampleWordsDecode :=
  ⟨decodeInvertsEncode (.bput 0x4D 8), decodeInvertsEncode (.cset 62 0x2B), decodeInvertsEncode (.nsym 0x66),
    decodeInvertsEncode (.rdreg 13), rfl, rfl⟩

/-- Settles O52: each line by evaluation. -/
theorem assemblerReadsExamples : Obligations.AssemblerReadsExamples :=
  ⟨by decide, by decide, by decide, by decide, by decide, by decide, by decide, by decide, by decide⟩

end Sys2Proof.Proofs
end

