-- ==== Sys2Proof/Proofs/Charset.lean ====
section
/-! PROOF. The charset commands CLEN, CSET, CGET, CBITS outside fault state (40_charset.md R110 to R113), and what the
host procedures make of them: LOADCS (43_codec_procedures.md R180) and the rejection of a charset whose length is no
power of two (R183, R191). -/

namespace Sys2Proof.Machine

/-! ### The charset commands outside fault state -/

/-- A command that pushes one item marks it last and counts. -/
theorem complete_singleton (s : State) (p : Push) :
    complete s [p] =
      { s with cmdcnt := s.cmdcnt + 1, oq := s.oq ++ [{ last := true, tag := p.1, data := p.2 }] } := rfl

/-- Raising is the six writes of 60_exceptions.md R220. -/
theorem raise_eq_afterFault (i : Instr) (e : Exc) (s : State) :
    raise i e s = .next (Safety.afterFault s (opcodeOf i) e.code e.tval) := rfl

section
variable {s : State} (hf : s.status.f = false)
include hf

theorem exec_clen_of_not_faulted (n : BitVec 9) : exec (.clen n) s =
    if s.status.nact then raise (.clen n) .sequenceError s
    else if legalLength n then finish (s.setCharset n 0) []
    else raise (.clen n) (.illegalOperand (zext64 n)) s := unlessFaulted_run hf _

theorem exec_cset_of_not_faulted (idx : BitVec 8) (ch : CharCode) : exec (.cset idx ch) s =
    if s.status.nact then raise (.cset idx ch) .sequenceError s
    else finish (s.setTable (writeEntry idx.toNat ch s.ct)) [] := unlessFaulted_run hf _

theorem exec_cget_of_not_faulted (idx : BitVec 8) :
    exec (.cget idx) s = finish s [(Tag.chr, zext64 (readEntry s.ct idx.toNat))] := unlessFaulted_run hf _

theorem exec_cbits_of_not_faulted : exec .cbits s =
    if s.base.toNat < 2 then raise .cbits (.invalidCharset s.base) s
    else if s.base.toNat = floorPower s.base.toNat then
      finish (s.setCharset s.base (BitVec.ofNat 4 s.base.toNat.log2)) [(Tag.num, BitVec.ofNat 64 s.base.toNat.log2)]
    else raise .cbits (.nonPowerOfTwoCharset (BitVec.ofNat 32 (floorPower s.base.toNat))
      (BitVec.ofNat 32 (2 * floorPower s.base.toNat))) s := unlessFaulted_run hf _

/-! ### The three outcomes of CBITS (R113) -/

theorem exec_cbits_of_lt_two (hb : s.base.toNat < 2) : exec .cbits s = raise .cbits (.invalidCharset s.base) s := by
  rw [exec_cbits_of_not_faulted hf, if_pos hb]

theorem exec_cbits_of_eq_two_pow {k : Nat} (hk : 1 ≤ k) (hb : s.base.toNat = 2 ^ k) : exec .cbits s =
    finish (s.setCharset s.base (BitVec.ofNat 4 k)) [(Tag.num, BitVec.ofNat 64 k)] := by
  have htwo : 2 ≤ s.base.toNat := hb ▸ Nat.le_pow hk
  have hlog : s.base.toNat.log2 = k := by rw [hb, Nat.log2_two_pow]
  have hfloor : s.base.toNat = floorPower s.base.toNat := by rw [floorPower, hlog, hb]
  rw [exec_cbits_of_not_faulted hf, if_neg (Nat.not_lt.2 htwo), if_pos hfloor, hlog]

/-- Strictly between two powers of two the lower one is the floor, so the test for equality with it fails. -/
theorem exec_cbits_of_between_two_pow {k : Nat} (hlow : 2 ^ k < s.base.toNat) (hhigh : s.base.toNat < 2 ^ (k + 1)) :
    exec .cbits s =
      raise .cbits (.nonPowerOfTwoCharset (BitVec.ofNat 32 (2 ^ k)) (BitVec.ofNat 32 (2 ^ (k + 1)))) s := by
  have htwo : 2 ≤ s.base.toNat := Nat.lt_of_le_of_lt Nat.one_le_two_pow hlow
  have hfloor : floorPower s.base.toNat = 2 ^ k := by
    rw [floorPower, (Nat.log2_eq_iff (by omega)).2 ⟨hlow.le, hhigh⟩]
  rw [exec_cbits_of_not_faulted hf, hfloor, if_neg (Nat.not_lt.2 htwo), if_neg hlow.ne', ← Nat.pow_succ']

end

/-- RDREG of a register that exists pushes it and counts, in fault state too (44_system.md R170). -/
theorem exec_rdreg_of_readReg {r : BitVec 8} {s : State} {d : Data} (hd : readReg s r.toNat = some d) :
    exec (.rdreg r) s = finish s [(Tag.reg, d)] := by
  simp only [exec, execRdreg, hd]

theorem exec_clrf (s : State) : exec .clrf s = finish (leaveFault s) [] := rfl

/-! ### The failure a code names (43_codec_procedures.md R183) -/

/-- The low byte of CAUSE is the code, whatever the opcode above it. -/
theorem code_of_cause (op code : BitVec 8) : (zext64 (op ++ code)).extractLsb' 0 8 = code := by
  rw [zext64, BitVec.extractLsb'_setWidth_of_le (by decide), BitVec.extractLsb'_append_eq_right]

theorem namedFailure_nonPowerOfTwoCharset (floor ceiling : BitVec 32) :
    namedFailure (Exc.nonPowerOfTwoCharset floor ceiling).code (Exc.nonPowerOfTwoCharset floor ceiling).tval =
      .nonPowerOfTwoCharset floor ceiling := by
  show HostFailure.nonPowerOfTwoCharset ((ceiling ++ floor).extractLsb' 0 32) ((ceiling ++ floor).extractLsb' 32 32) = _
  rw [BitVec.extractLsb'_append_eq_right, BitVec.extractLsb'_append_eq_left]

end Sys2Proof.Machine

namespace Sys2Proof.Safety

open Sys2Proof.Machine

/-! ### Running host procedures that fail -/

/-- A procedure whose first part fails fails so. -/
theorem runProc_bind_error {α β : Type} {p : HostProc α} {f : α → HostProc β} {s t : State} {e : HostFailure}
    (h : runProc p s = (.error e, t)) : runProc (p >>= f) s = (.error e, t) := by
  unfold runProc at h ⊢
  rw [ExceptT.run_bind, StateT.run_bind, h]
  rfl

theorem runProc_pop {s : State} {item : Item} {q : List Item} (h : s.oq = item :: q) :
    runProc pop s = (.ok item, s.setQueue q) := by
  have hmove : hostMove .pop s = .next (s.setQueue q) := popItem_of_cons h
  rw [pop, runProc_bind (runProc_get s), h]
  exact runProc_bind (runProc_makeMove hmove)

/-- With OQ empty, RDREG and a pop read the register; only the command counter has moved. -/
theorem runProc_readRegister {α : Type} {r : BitVec 8} {s : State} {d : Data} (f : Item → HostProc α)
    (hd : readReg s r.toNat = some d) (hoq : s.oq = []) :
    runProc (do issue (.rdreg r); f (← pop)) s =
      runProc (f { last := true, tag := .reg, data := d }) { s with cmdcnt := s.cmdcnt + 1 } := by
  have hissue := runProc_issue (Proofs.decodeInvertsEncode (.rdreg r)) (exec_rdreg_of_readReg hd)
  have hqueue : (complete s [(Tag.reg, d)]).oq = [{ last := true, tag := .reg, data := d }] := by
    rw [complete_oq, hoq]
    rfl
  have hstate : (complete s [(Tag.reg, d)]).setQueue [] = { s with cmdcnt := s.cmdcnt + 1 } := by
    rw [← hoq]
    rfl
  rw [runProc_bind hissue, runProc_bind (runProc_pop hqueue), hstate]

/-- After fault entry the host reads CAUSE and TVAL, leaves fault state and fails with the error they name; the engine
is then ready for the next call (R183). -/
theorem runProc_failIfFaulted_enterFault (op : BitVec 8) (e : Exc) (s : State) :
    ∃ t, runProc failIfFaulted (enterFault op e s) = (.error (namedFailure e.code e.tval), t) ∧ Ready t := by
  refine ⟨complete (leaveFault { enterFault op e s with cmdcnt := s.cmdcnt + 1 + 1 }) [], ?_, rfl, rfl, rfl⟩
  rw [failIfFaulted, runProc_bind (runProc_get _), if_pos (by rfl), runProc_readRegister _ rfl rfl,
    runProc_readRegister _ rfl rfl, runProc_bind (runProc_issue (Proofs.decodeInvertsEncode .clrf) (exec_clrf _)),
    enterFault_cause, code_of_cause]
  rfl

/-- Of the state LOADCS leaves, what the commands after it check: BASE is the length and STATUS is as before. -/
theorem exists_runProc_loadCharset {charset : List CharCode} {s : State} (hlen : charset.length ≤ 256)
    (hf : s.status.f = false) (hn : s.status.nact = false) :
    ∃ u, runProc (loadCharset charset) s = (.ok (), u) ∧ u.base.toNat = charset.length ∧ u.status = s.status :=
  ⟨_, runProc_loadCharset charset s hlen hf hn, toNat_ofNat_of_le_ctSize hlen, rfl⟩

/-- Step 1 of ENCODE and of DECODE fails for a charset whose length lies strictly between two powers of two. -/
theorem runProc_checkedBits_between_two_pow {charset : List CharCode} {k : Nat} {s : State} (hs : Ready s)
    (hlen : charset.length ≤ 256) (hlow : 2 ^ k < charset.length) (hhigh : charset.length < 2 ^ (k + 1)) :
    ∃ t, runProc (checkedBits charset) s =
      (.error (.nonPowerOfTwoCharset (BitVec.ofNat 32 (2 ^ k)) (BitVec.ofNat 32 (2 ^ (k + 1)))), t) ∧ Ready t := by
  obtain ⟨hf, hn, -⟩ := hs
  obtain ⟨u, hload, hbase, hstatus⟩ := exists_runProc_loadCharset hlen hf hn
  rw [← hbase] at hlow hhigh
  have hcbits := exec_cbits_of_between_two_pow (hstatus ▸ hf) hlow hhigh
  obtain ⟨t, hfail, ht⟩ := runProc_failIfFaulted_enterFault (opcodeOf .cbits)
    (.nonPowerOfTwoCharset (BitVec.ofNat 32 (2 ^ k)) (BitVec.ofNat 32 (2 ^ (k + 1)))) u
  rw [namedFailure_nonPowerOfTwoCharset] at hfail
  refine ⟨t, ?_, ht⟩
  rw [checkedBits, runProc_bind hload, runProc_bind (runProc_issue (Proofs.decodeInvertsEncode .cbits) hcbits)]
  exact runProc_bind_error hfail

end Sys2Proof.Safety

namespace Sys2Proof.Proofs

open Sys2Proof.Machine Sys2Proof.Safety

/-- Settles O18: the three branches of CLEN, `legalLength` being n ≤ 256. -/
theorem clenRule : Obligations.ClenRule := by
  refine ⟨decode_encode_clen, fun n s hf => ⟨fun hn => ?_, exec_clen_completes hf, fun hn hl => ?_⟩⟩
  · rw [exec_clen_of_not_faulted hf, if_pos hn, raise_eq_afterFault]
    rfl
  · have hillegal : ¬ legalLength n = true := mt (legalLength_iff n).1 (Nat.not_le.2 hl)
    rw [exec_clen_of_not_faulted hf, if_neg (Bool.eq_false_iff.1 hn), if_neg hillegal, raise_eq_afterFault]
    rfl

/-- Settles O20: CGET pushes one item, which is its last, without any check but the fault state. -/
theorem cgetRule : Obligations.CgetRule := by
  refine ⟨fun idx => decodeInvertsEncode (.cget idx), fun idx s hf => ?_⟩
  rw [exec_cget_of_not_faulted hf, finish, complete_singleton]
  rfl

/-- Settles O19: the table after CSET is `writeEntry` of the one before. -/
theorem csetRule : Obligations.CsetRule := by
  refine ⟨decode_encode_cset, fun idx ch s hf => ⟨fun hn => ?_, fun hn => ?_⟩⟩
  · rw [exec_cset_of_not_faulted hf, if_pos hn, raise_eq_afterFault]
    rfl
  · exact ⟨writeEntry idx.toNat ch s.ct, exec_cset_completes hf hn, readEntry_writeEntry_same ..,
      readEntry?_writeEntry_same .., fun k hk =>
        ⟨readEntry_writeEntry_other _ k _ _ hk, readEntry?_writeEntry_other _ k _ _ hk⟩,
      wf_writeEntry _ _ _ idx.isLt⟩

/-- Settles O21: below 2, at a power of two and strictly between two of them CBITS ends in three different ways. -/
theorem cbitsRule : Obligations.CbitsRule := by
  refine ⟨decodeInvertsEncode .cbits, fun s hf => ⟨fun hb => ?_, fun k hk hb => ?_, fun k _ hlow hhigh => ?_⟩⟩
  · rw [exec_cbits_of_lt_two hf hb, raise_eq_afterFault]
    rfl
  · rw [exec_cbits_of_eq_two_pow hf hk hb, finish, complete_singleton]
    rfl
  · rw [exec_cbits_of_between_two_pow hf hlow hhigh, raise_eq_afterFault]
    rfl

/-- Settles O43: the table LOADCS leaves is `loadedTable`, whose entries are known below the length and above it. -/
theorem loadCharsetLoads : Obligations.LoadCharsetLoads := by
  intro charset s hlen hf hn
  refine ⟨loadedTable 0 charset s.ct, runProc_loadCharset charset s hlen hf hn, fun i ch hi => ?_, fun i hi => ?_⟩
  · obtain ⟨hlt, -⟩ := List.getElem?_eq_some_iff.1 hi
    rw [← hi, ← readEntry?_loadedTable charset 0 i s.ct hlt, Nat.zero_add]
  · exact readEntry?_loadedTable_outside charset 0 i s.ct (.inr (by omega))

/-- Settles O50: step 1 of both procedures fails in `checkedBits`, before any data or text is looked at. -/
theorem nonPowerOfTwoRejected : Obligations.NonPowerOfTwoRejected := by
  intro charset k s hs hlen _ hlow hhigh
  obtain ⟨t, hfail, ht⟩ := runProc_checkedBits_between_two_pow hs hlen hlow hhigh
  refine ⟨fun data pad group hgroup => ⟨t, ?_, ht⟩, fun text pad => ⟨t, ?_, ht⟩⟩
  · rw [encodeBaseX, if_neg hgroup]
    exact runProc_bind_error hfail
  · rw [decodeBaseX]
    exact runProc_bind_error hfail

end Sys2Proof.Proofs
end

