-- ==== Sys2Proof/Proofs/Numeral.lean ====
section
/-! PROOF. The Numeral Converter (41_numeral.md): what NGEN, NBEGIN, NSYM and NEND do outside fault state, the digits
NGEN generates, and the states of an open conversion, written out as `converting`, from which the value delivered (R139)
and the round trip (R138) follow. -/

namespace Sys2Proof.Machine

/-! ### The commands outside fault state -/

/-- What NGEN pushes: the digits' characters (R131). -/
def numeralPushes (s : State) (value : Data) : List Push :=
  (digits s.base.toNat value.toNat).map fun r => (Tag.chr, zext64 (readEntry s.ct r))

section
variable {s : State} (hf : s.status.f = false)
include hf

theorem exec_ngen_of_lt_two (value : Data) (hb : s.base.toNat < 2) :
    exec (.ngen value) s = raise (.ngen value) (.invalidCharset s.base) s :=
  (unlessFaulted_run hf _).trans (if_pos hb)

theorem exec_ngen_completes (value : Data) (hb : 2 ≤ s.base.toNat) :
    exec (.ngen value) s = finish s (numeralPushes s value) :=
  (unlessFaulted_run hf _).trans (if_neg (Nat.not_lt.2 hb))

theorem exec_nbegin_of_lt_two (hb : s.base.toNat < 2) : exec .nbegin s = raise .nbegin (.invalidCharset s.base) s :=
  (unlessFaulted_run hf _).trans (if_pos hb)

theorem exec_nbegin_completes (hb : 2 ≤ s.base.toNat) : exec .nbegin s = .next { s with
    nacc := 0
    npow := 1
    status := { f := false, nact := true, povf := false }
    cmdcnt := s.cmdcnt + 1 } := by
  have hrun : exec .nbegin s = .next (complete ((s.setNumeral 0 1).setStatus s.status.openNumeral) []) :=
    (unlessFaulted_run hf _).trans (if_neg (Nat.not_lt.2 hb))
  rw [hrun, complete_nil, Status.openNumeral, hf]
  rfl

theorem exec_nend_of_closed (hn : s.status.nact = false) : exec .nend s = raise .nend .sequenceError s :=
  (unlessFaulted_run hf _).trans (if_neg (Bool.eq_false_iff.1 hn))

theorem exec_nend_completes (hn : s.status.nact = true) :
    exec .nend s = finish (s.setStatus s.status.closeNumeral) [(Tag.num, s.nacc)] :=
  (unlessFaulted_run hf _).trans (if_pos hn)

/-! ### The four outcomes of NSYM (R133) -/

theorem exec_nsym_of_closed (ch : CharCode) (hn : s.status.nact = false) :
    exec (.nsym ch) s = raise (.nsym ch) .sequenceError s :=
  (unlessFaulted_run hf _).trans (if_neg (Bool.eq_false_iff.1 hn))

variable (hn : s.status.nact = true) {ch : CharCode}
include hn

theorem exec_nsym_of_not_found (hl : lookup s.ct s.base.toNat ch = none) :
    exec (.nsym ch) s = raise (.nsym ch) (.invalidSymbol ch) s := by
  simp [exec, execNsym, unlessFaulted_run hf, hn, hl]

theorem exec_nsym_of_addDigit_none {i : Nat} (hl : lookup s.ct s.base.toNat ch = some i) (ha : addDigit s i = none) :
    exec (.nsym ch) s = raise (.nsym ch) (.numeralRange ch) s := by
  simp [exec, execNsym, unlessFaulted_run hf, hn, hl, ha]

theorem exec_nsym_of_addDigit_some {i : Nat} {nacc : Data} (hl : lookup s.ct s.base.toNat ch = some i)
    (ha : addDigit s i = some nacc) :
    exec (.nsym ch) s = finish
      ((s.setNumeral nacc (BitVec.ofNat 64 (nextWeight s))).setStatus (s.status.noteWeight (nextWeight s))) [] := by
  simp [exec, execNsym, unlessFaulted_run hf, hn, hl, ha]

end

/-- A nonzero digit fails where its weight has overflowed or the exact sum does not fit (R133). -/
theorem addDigit_eq_none {s : State} {i : Nat} (hi : i ≠ 0)
    (h : s.status.povf = true ∨ 2 ^ 64 ≤ s.nacc.toNat + i * s.npow.toNat) : addDigit s i = none := by
  rw [addDigit, if_neg hi]
  split
  · rfl
  · next hp => exact if_pos (h.resolve_left hp)

/-- A zero digit adds nothing, whatever POVF says; any other adds its exact weighted value (R133). -/
theorem addDigit_eq_some {s : State} {i : Nat}
    (h : i = 0 ∨ s.status.povf = false ∧ s.nacc.toNat + i * s.npow.toNat < 2 ^ 64) :
    addDigit s i = some (BitVec.ofNat 64 (s.nacc.toNat + i * s.npow.toNat)) := by
  obtain rfl | ⟨hp, hlt⟩ := h
  · simp [addDigit]
  · rw [addDigit, if_neg (Bool.eq_false_iff.1 hp), if_neg (Nat.not_le.2 hlt)]
    split
    · next hi => simp [hi]
    · rfl

/-! ### The digits of NGEN -/

theorem digits_zero {base : Nat} (hb : 2 ≤ base) : digits base 0 = [0] := by
  rw [digits_eq base 0 hb (by decide), if_pos rfl]

section
variable {base value : Nat} (hb : 2 ≤ base) (hv : value < 2 ^ 64)
include hb hv

theorem digits_of_ne_zero (h0 : value ≠ 0) : digits base value = (Nat.digits base value).reverse := by
  rw [digits_eq base value hb hv, if_neg h0]

/-- How many digits a value other than 0 has (R137). -/
theorem length_digits_le_iff (h0 : value ≠ 0) {k : Nat} : (digits base value).length ≤ k ↔ value < base ^ k := by
  rw [digits_of_ne_zero hb hv h0, List.length_reverse]
  exact Nat.digits_length_le_iff hb value

theorem length_digits_pos : 1 ≤ (digits base value).length := List.length_pos_iff.2 (digits_ne_nil base value hb hv)

theorem lt_pow_length_digits : value < base ^ (digits base value).length := by
  obtain rfl | h0 := Nat.eq_zero_or_pos value
  · exact Nat.pow_pos (by omega)
  · exact (length_digits_le_iff hb hv h0.ne').1 le_rfl

/-- There is no leading zero: one digit fewer does not do (R137). -/
theorem pow_pred_length_digits_le (h0 : value ≠ 0) : base ^ ((digits base value).length - 1) ≤ value := by
  by_contra hlt
  have hle := (length_digits_le_iff hb hv h0).2 (Nat.lt_of_not_le hlt)
  have hpos := length_digits_pos hb hv
  omega

/-- The digits in closed form: digit `j` from the most significant end has weight `base ^ (d - 1 - j)`. -/
theorem digits_eq_map_range : digits base value =
    (List.range (digits base value).length).map fun j =>
      value / base ^ ((digits base value).length - 1 - j) % base := by
  obtain rfl | h0 := Nat.eq_zero_or_pos value
  · simp [digits_zero hb]
  · have hrev := digits_of_ne_zero hb hv h0.ne'
    refine List.ext_getElem (by simp) fun j hj _ => ?_
    have hidx : (digits base value).length - 1 - j < (Nat.digits base value).length := by
      rw [hrev, List.length_reverse] at hj ⊢
      omega
    rw [List.getElem_map, List.getElem_range, ← Nat.getD_digits _ _ hb, List.getD_eq_getElem _ _ hidx]
    simp [hrev]

end

/-! ### The items of a numeral -/

/-- The items of a command whose pushes are given by their position. -/
theorem markLast_map_range (d : Nat) (f : Nat → Push) : markLast ((List.range d).map f) =
    (List.range d).map fun j => { last := decide (j + 1 = d), tag := (f j).1, data := (f j).2 } := by
  refine List.ext_getElem? fun j => ?_
  rw [markLast_getElem?, List.length_map, List.length_range, List.getElem?_map, List.getElem?_map]
  by_cases hj : j < d
  · simp [hj]
  · simp [Nat.le_of_not_lt hj]

theorem map_data_markLast (ps : List Push) : (markLast ps).map Item.data = ps.map Prod.snd := by
  refine List.ext_getElem? fun j => ?_
  rw [List.getElem?_map, markLast_getElem?, List.getElem?_map, Option.map_map]
  rfl

/-- A character code comes back from the data of its item. -/
theorem setWidth_zext64 (ch : CharCode) : (zext64 ch).setWidth 21 = ch := by
  rw [zext64, BitVec.setWidth_setWidth_of_le _ (by decide), BitVec.setWidth_eq]

/-- The characters a numeral's items carry. -/
theorem map_char_markLast_numeralPushes (s : State) (value : Data) :
    (markLast (numeralPushes s value)).map (fun it => it.data.setWidth 21) =
      (digits s.base.toNat value.toNat).map (readEntry s.ct) := by
  have hdata := congrArg (List.map (BitVec.setWidth 21)) (map_data_markLast (numeralPushes s value))
  rw [List.map_map, numeralPushes, List.map_map, List.map_map] at hdata
  exact hdata.trans (List.map_congr_left fun r _ => setWidth_zext64 _)

theorem numeralPushes_ne_nil {s : State} (hb : 2 ≤ s.base.toNat) (value : Data) : numeralPushes s value ≠ [] :=
  mt List.map_eq_nil_iff.1 (digits_ne_nil _ _ hb value.isLt)

theorem length_markLast_numeralPushes (s : State) (value : Data) :
    (markLast (numeralPushes s value)).length = (digits s.base.toNat value.toNat).length := by
  rw [markLast_length, numeralPushes, List.length_map]

/-- The items of a numeral in closed form (R131). -/
theorem markLast_numeralPushes {s : State} (hb : 2 ≤ s.base.toNat) (value : Data) {d : Nat}
    (hd : (digits s.base.toNat value.toNat).length = d) : markLast (numeralPushes s value) =
    (List.range d).map fun j =>
      { last := decide (j + 1 = d)
        tag := Tag.chr
        data := zext64 (readEntry s.ct (value.toNat / s.base.toNat ^ (d - 1 - j) % s.base.toNat)) } := by
  rw [numeralPushes, digits_eq_map_range hb value.isLt, hd, List.map_map]
  exact markLast_map_range d _

end Sys2Proof.Machine

namespace Sys2Proof.Safety

open Sys2Proof.Machine

/-- With different codes, the first character of a nonzero value is not the zero symbol: the first digit is not 0
(R137, 70_reset_and_hazards.md R254). -/
theorem data_ne_zeroSymbol_of_head?_numeral {s : State} (hb : 2 ≤ s.base.toNat) (hdistinct : DistinctSymbols s)
    {value : Data} (h0 : value.toNat ≠ 0) {it : Item} (hit : (markLast (numeralPushes s value)).head? = some it) :
    it.data ≠ zext64 (readEntry s.ct 0) := by
  have hne : Nat.digits s.base.toNat value.toNat ≠ [] := Nat.digits_ne_nil_iff_ne_zero.2 h0
  have hfirst : (Nat.digits s.base.toNat value.toNat).getLast hne ≠ 0 := Nat.getLast_digit_ne_zero _ h0
  have hlt : (Nat.digits s.base.toNat value.toNat).getLast hne < s.base.toNat :=
    Nat.digits_lt_base (by omega) (List.getLast_mem hne)
  have hdata : it.data = zext64 (readEntry s.ct ((Nat.digits s.base.toNat value.toNat).getLast hne)) := by
    have hhead := congrArg List.head? (map_data_markLast (numeralPushes s value))
    rw [List.head?_map, hit, numeralPushes, digits_of_ne_zero hb value.isLt h0, List.map_map, List.head?_map,
      List.head?_reverse, List.getLast?_eq_getLast_of_ne_nil hne] at hhead
    exact Option.some.inj hhead
  intro heq
  have hcode := congrArg (BitVec.setWidth 21) (hdata.symm.trans heq)
  rw [setWidth_zext64, setWidth_zext64] at hcode
  exact hfirst (hdistinct _ hlt 0 (by omega) hcode)

end Sys2Proof.Safety

namespace Sys2Proof.Proofs

open Sys2Proof.Machine Sys2Proof.Safety

/-- Settles O26: the number of characters is that of the digits, whose closed form gives the items. -/
theorem ngenRule : Obligations.NgenRule := by
  refine ⟨fun value => decodeInvertsEncode (.ngen value), fun value s hf => ⟨fun hb => ?_, fun hb => ?_⟩⟩
  · rw [exec_ngen_of_lt_two hf value hb, raise_eq_afterFault]
    rfl
  · have hleast : (digits s.base.toNat value.toNat).length = 1 ∨
        s.base.toNat ^ ((digits s.base.toNat value.toNat).length - 1) ≤ value.toNat := by
      by_cases h0 : value.toNat = 0
      · exact .inl (by rw [h0, digits_zero hb]; rfl)
      · exact .inr (pow_pred_length_digits_le hb value.isLt h0)
    refine ⟨_, length_digits_pos hb value.isLt, digits_length_le hb value, lt_pow_length_digits hb value.isLt,
      hleast, ?_⟩
    rw [exec_ngen_completes hf value hb, finish, complete, markLast_numeralPushes hb value rfl]
    rfl

/-- Settles O27: the items pushed are as many as the digits, and the bounds are those of their number. -/
theorem numeralLength : Obligations.NumeralLength := by
  intro value s t hf hb hexec
  obtain rfl : complete s (numeralPushes s value) = t :=
    (finish_next ..).1 ((exec_ngen_completes hf value hb).symm.trans hexec)
  rw [complete_oq, List.length_append, Nat.add_sub_cancel_left, List.drop_left, length_markLast_numeralPushes]
  have hle := digits_length_le hb value
  have toNat_ne_zero (h : value ≠ 0) : value.toNat ≠ 0 := fun h0 => h (BitVec.eq_of_toNat_eq h0)
  refine ⟨length_digits_pos hb value.isLt, hle, ?_, fun h => ?_, fun hbase hbig => ?_, fun h hdistinct it hit => ?_⟩
  · rintro rfl
    exact congrArg List.length (digits_zero hb)
  · exact ⟨lt_pow_length_digits hb value.isLt, fun e => (length_digits_le_iff hb value.isLt (toNat_ne_zero h)).2⟩
  · have h0 : value.toNat ≠ 0 := by omega
    have hlt : ¬ (digits s.base.toNat value.toNat).length ≤ 63 := by
      rw [length_digits_le_iff hb value.isLt h0, hbase]
      exact Nat.not_lt.2 hbig
    exact Nat.le_antisymm hle (Nat.lt_of_not_le hlt)
  · exact data_ne_zeroSymbol_of_head?_numeral hb hdistinct (toNat_ne_zero h) hit

/-- Settles O28. -/
theorem nbeginRule : Obligations.NbeginRule := by
  refine ⟨decodeInvertsEncode .nbegin, fun s hf => ⟨fun hb => ?_, exec_nbegin_completes hf⟩⟩
  rw [exec_nbegin_of_lt_two hf hb, raise_eq_afterFault]
  rfl

/-- Settles O29: the four outcomes of NSYM, the least index being what the lookup finds. -/
theorem nsymRule : Obligations.NsymRule := by
  refine ⟨fun ch => decodeInvertsEncode (.nsym ch), fun ch s hf =>
    ⟨fun hn => ?_, fun hn hnone => ?_, fun i hn hleast hi hover => ?_, fun i hn hleast hfits => ?_⟩⟩
  · rw [exec_nsym_of_closed hf ch hn, raise_eq_afterFault]
    rfl
  · rw [exec_nsym_of_not_found hf hn (lookup_eq_none.2 hnone), raise_eq_afterFault]
    rfl
  · rw [exec_nsym_of_addDigit_none hf hn (lookup_eq_some.2 hleast) (addDigit_eq_none hi hover), raise_eq_afterFault]
    rfl
  · rw [exec_nsym_of_addDigit_some hf hn (lookup_eq_some.2 hleast) (addDigit_eq_some hfits), finish, complete_nil]
    rfl

/-- Settles O30. -/
theorem nendRule : Obligations.NendRule := by
  refine ⟨decodeInvertsEncode .nend, fun s hf => ⟨fun hn => ?_, fun hn => ?_⟩⟩
  · rw [exec_nend_of_closed hf hn, raise_eq_afterFault]
    rfl
  · rw [exec_nend_completes hf hn, finish, complete_singleton]
    rfl

end Sys2Proof.Proofs
end

