-- ==== Sys2Proof/Proofs/Conversion.lean ====
section
/-! PROOF. A numeral-to-integer conversion from NBEGIN to NEND: the value of a digit string (41_numeral.md R139), the
state after each symbol (R133, 10_state.md R25), and so the value delivered and the round trip with NGEN (R138). -/

namespace Sys2Proof.Safety

open Sys2Proof.Machine

/-! ### The value of a digit string -/

theorem digitSum_eq_ofDigits (base : Nat) (ds : List Nat) : digitSum base ds = Nat.ofDigits base ds := by
  induction ds with
  | nil => rfl
  | cons d ds ih => rw [digitSum, ih, Nat.ofDigits_cons]

/-- Later digits weigh `base ^ position` (R139). -/
theorem digitSum_append (base : Nat) (ds es : List Nat) :
    digitSum base (ds ++ es) = digitSum base ds + base ^ ds.length * digitSum base es := by
  simp only [digitSum_eq_ofDigits, Nat.ofDigits_append]

theorem digitSum_append_singleton (base : Nat) (ds : List Nat) (i : Nat) :
    digitSum base (ds ++ [i]) = digitSum base ds + i * base ^ ds.length := by
  rw [digitSum_append, Nat.mul_comm i]
  rfl

theorem digitSum_le_append (base : Nat) (ds es : List Nat) : digitSum base ds ≤ digitSum base (ds ++ es) :=
  (Nat.le_add_right ..).trans_eq (digitSum_append ..).symm

/-- The left-to-right recurrence gives the same sum (R139). -/
theorem digitSum_eq_foldl_reverse (base : Nat) (ds : List Nat) :
    digitSum base ds = ds.reverse.foldl (fun a d => a * base + d) 0 := by
  induction ds with
  | nil => rfl
  | cons d ds ih =>
    rw [List.reverse_cons, List.foldl_append, ← ih, digitSum, Nat.mul_comm base, Nat.add_comm]
    rfl

/-- The digits of NGEN, least significant first, sum to the value. -/
theorem digitSum_reverse_digits {base value : Nat} (hb : 2 ≤ base) (hv : value < 2 ^ 64) :
    digitSum base (digits base value).reverse = value := by
  obtain rfl | h0 := Nat.eq_zero_or_pos value
  · rw [digits_zero hb]
    rfl
  · rw [digits_of_ne_zero hb hv h0.ne', List.reverse_reverse, digitSum_eq_ofDigits, Nat.ofDigits_digits]

/-- Where the sum of a digit string is too large, a first digit makes it so. -/
theorem exists_first_overflow {base bound : Nat} {ds : List Nat} (hpos : 0 < bound) (h : bound ≤ digitSum base ds) :
    ∃ k < ds.length, digitSum base (ds.take k) < bound ∧ bound ≤ digitSum base (ds.take (k + 1)) := by
  induction ds using List.reverseRecOn with
  | nil => exact absurd h (Nat.not_le.2 hpos)
  | append_singleton ds d ih =>
    by_cases hds : bound ≤ digitSum base ds
    · obtain ⟨k, hk, hlow, hhigh⟩ := ih hds
      refine ⟨k, by simp; omega, ?_, ?_⟩
      · rwa [List.take_append_of_le_length hk.le]
      · rwa [List.take_append_of_le_length hk]
    · refine ⟨ds.length, by simp, ?_, ?_⟩
      · rw [List.take_left]
        exact Nat.lt_of_not_le hds
      · rwa [List.take_of_length_le (by simp)]

/-! ### The states of an open conversion -/

/-- The state after NBEGIN in `s` and then one symbol for each of the digits `ds`, least significant first, none of them
faulting (`exec_nbegin_converting`, `exec_nsym_converting`): NACC is their sum (10_state.md R26 (c)), NPOW the next
weight narrowed to 64 bits, and POVF says whether that weight fits (R25). -/
def converting (s : State) (ds : List Nat) : State :=
  { s with
    nacc := BitVec.ofNat 64 (digitSum s.base.toNat ds)
    npow := BitVec.ofNat 64 (s.base.toNat ^ ds.length)
    status := { f := false, nact := true, povf := decide (2 ^ 64 ≤ s.base.toNat ^ ds.length) }
    cmdcnt := s.cmdcnt + BitVec.ofNat 32 (ds.length + 1) }

theorem exec_nbegin_converting {s : State} (hf : s.status.f = false) (hb : 2 ≤ s.base.toNat) :
    exec .nbegin s = .next (converting s []) := exec_nbegin_completes hf hb

section
variable {s : State} {ds : List Nat}

theorem nacc_converting (h : digitSum s.base.toNat ds < 2 ^ 64) :
    (converting s ds).nacc.toNat = digitSum s.base.toNat ds := toNat_ofNat_of_lt h le_rfl

theorem npow_converting (h : s.base.toNat ^ ds.length < 2 ^ 64) :
    (converting s ds).npow.toNat = s.base.toNat ^ ds.length := toNat_ofNat_of_lt h le_rfl

theorem povf_converting : (converting s ds).status.povf = decide (2 ^ 64 ≤ s.base.toNat ^ ds.length) := rfl

/-- The sum with one more digit, as NSYM computes it: exact where the digit is 0 or its weight fits. -/
theorem digitSum_append_singleton_converting {i : Nat} (hds : digitSum s.base.toNat ds < 2 ^ 64)
    (h : i = 0 ∨ s.base.toNat ^ ds.length < 2 ^ 64) :
    digitSum s.base.toNat (ds ++ [i]) = (converting s ds).nacc.toNat + i * (converting s ds).npow.toNat := by
  rw [digitSum_append_singleton, nacc_converting hds]
  obtain rfl | hw := h
  · rw [Nat.zero_mul, Nat.zero_mul]
  · rw [npow_converting hw]

/-- A nonzero digit whose sum fits has a weight that fits. -/
theorem weight_lt_of_digitSum_lt {base i : Nat} (hi : i ≠ 0) (h : digitSum base (ds ++ [i]) < 2 ^ 64) :
    base ^ ds.length < 2 ^ 64 :=
  calc base ^ ds.length ≤ i * base ^ ds.length := Nat.le_mul_of_pos_left _ (Nat.pos_of_ne_zero hi)
    _ ≤ digitSum base (ds ++ [i]) := (Nat.le_add_left ..).trans_eq (digitSum_append_singleton ..).symm
    _ < 2 ^ 64 := h

theorem addDigit_converting_of_lt {i : Nat} (h : digitSum s.base.toNat (ds ++ [i]) < 2 ^ 64) :
    addDigit (converting s ds) i = some (BitVec.ofNat 64 (digitSum s.base.toNat (ds ++ [i]))) := by
  have hds := (digitSum_le_append s.base.toNat ds [i]).trans_lt h
  have hweight : i = 0 ∨ s.base.toNat ^ ds.length < 2 ^ 64 :=
    (eq_or_ne i 0).imp_right fun hi => weight_lt_of_digitSum_lt hi h
  have hsum := digitSum_append_singleton_converting hds hweight
  rw [hsum]
  refine addDigit_eq_some (hweight.imp_right fun hw => ⟨?_, hsum ▸ h⟩)
  rw [povf_converting]
  exact decide_eq_false (Nat.not_le.2 hw)

theorem addDigit_converting_of_le {i : Nat} (hds : digitSum s.base.toNat ds < 2 ^ 64)
    (h : 2 ^ 64 ≤ digitSum s.base.toNat (ds ++ [i])) : addDigit (converting s ds) i = none := by
  have hi : i ≠ 0 := by
    rintro rfl
    rw [digitSum_append_singleton, Nat.zero_mul] at h
    exact absurd hds (Nat.not_lt.2 h)
  refine addDigit_eq_none hi ?_
  by_cases hw : s.base.toNat ^ ds.length < 2 ^ 64
  · exact .inr (h.trans_eq (digitSum_append_singleton_converting hds (.inr hw)))
  · exact .inl (decide_eq_true (Nat.le_of_not_lt hw))

theorem pow_length_append_singleton (base : Nat) (ds : List Nat) (i : Nat) :
    base ^ (ds ++ [i]).length = base ^ ds.length * base := by
  rw [List.length_append, List.length_singleton, Nat.pow_succ]

/-- Narrowing the weight before the next multiplication loses nothing that is kept. -/
theorem ofNat_nextWeight_converting (i : Nat) : BitVec.ofNat 64 (nextWeight (converting s ds)) =
    BitVec.ofNat 64 (s.base.toNat ^ (ds ++ [i]).length) :=
  calc BitVec.ofNat 64 (nextWeight (converting s ds))
    _ = (converting s ds).npow * BitVec.ofNat 64 s.base.toNat := by
      rw [nextWeight, BitVec.ofNat_mul, BitVec.ofNat_toNat, BitVec.setWidth_eq]
      rfl
    _ = BitVec.ofNat 64 (s.base.toNat ^ ds.length * s.base.toNat) := (BitVec.ofNat_mul ..).symm
    _ = BitVec.ofNat 64 (s.base.toNat ^ (ds ++ [i]).length) := by rw [pow_length_append_singleton]

/-- Once a weight has overflowed all later ones do, so POVF says it of the next weight too (R25). -/
theorem noteWeight_converting (hb : 0 < s.base.toNat) (i : Nat) :
    (converting s ds).status.noteWeight (nextWeight (converting s ds)) = (converting s (ds ++ [i])).status := by
  have hpovf : ((converting s ds).status.povf || decide (2 ^ 64 ≤ nextWeight (converting s ds))) =
      decide (2 ^ 64 ≤ s.base.toNat ^ (ds ++ [i]).length) := by
    rw [povf_converting, pow_length_append_singleton]
    by_cases hw : s.base.toNat ^ ds.length < 2 ^ 64
    · have hnext : nextWeight (converting s ds) = s.base.toNat ^ ds.length * s.base.toNat :=
        congrArg (· * s.base.toNat) (npow_converting hw)
      rw [hnext, decide_eq_false (Nat.not_le.2 hw), Bool.false_or]
    · have hw := Nat.le_of_not_lt hw
      rw [decide_eq_true hw, Bool.true_or, decide_eq_true (hw.trans (Nat.le_mul_of_pos_right _ hb))]
  exact congrArg (Status.mk false true) hpovf

section
variable {ch : CharCode} {i : Nat} (hleast : LeastIndex s ch i)
include hleast

/-- A symbol whose sum fits takes the conversion one digit further (R133). -/
theorem exec_nsym_converting (h : digitSum s.base.toNat (ds ++ [i]) < 2 ^ 64) :
    exec (.nsym ch) (converting s ds) = .next (converting s (ds ++ [i])) := by
  have hlookup : lookup (converting s ds).ct (converting s ds).base.toNat ch = some i := lookup_eq_some.2 hleast
  rw [exec_nsym_of_addDigit_some rfl rfl hlookup (addDigit_converting_of_lt h), ofNat_nextWeight_converting i,
    noteWeight_converting (Nat.zero_lt_of_lt hleast.1) i, finish, complete_nil]
  have hcount : s.cmdcnt + BitVec.ofNat 32 (ds.length + 1) + 1 =
      s.cmdcnt + BitVec.ofNat 32 ((ds ++ [i]).length + 1) := by
    rw [BitVec.add_assoc, List.length_append, List.length_singleton, BitVec.ofNat_add (ds.length + 1)]
    rfl
  exact congrArg (fun cmdcnt => Host.Outcome.next { converting s (ds ++ [i]) with cmdcnt }) hcount

/-- The first symbol whose sum does not fit raises NumeralRange (R139). -/
theorem exec_nsym_converting_overflow (hds : digitSum s.base.toNat ds < 2 ^ 64)
    (h : 2 ^ 64 ≤ digitSum s.base.toNat (ds ++ [i])) :
    exec (.nsym ch) (converting s ds) = raise (.nsym ch) (.numeralRange ch) (converting s ds) :=
  exec_nsym_of_addDigit_none rfl rfl (lookup_eq_some.2 hleast) (addDigit_converting_of_le hds h)

end

end

/-! ### Runs of commands -/

theorem runClean_cons {i : Instr} {is : List Instr} {s t : State} (h : exec i s = .next t) (hf : t.status.f = false) :
    runClean (i :: is) s = runClean is t := by
  simp [runClean, h, hf]

/-- The symbols of a digit string whose sum fits, taken in order, leave the conversion after these digits. -/
theorem runClean_symbols {s : State} {cs : List CharCode} {ds : List Nat} (h : List.Forall₂ (LeastIndex s) cs ds)
    (ds₀ : List Nat) (rest : List Instr) (hsum : digitSum s.base.toNat (ds₀ ++ ds) < 2 ^ 64) :
    runClean (cs.map .nsym ++ rest) (converting s ds₀) = runClean rest (converting s (ds₀ ++ ds)) := by
  induction h generalizing ds₀ with
  | nil => rw [List.append_nil]; rfl
  | @cons ch i cs ds hleast _ ih =>
    rw [List.append_cons] at hsum ⊢
    have hfirst := (digitSum_le_append s.base.toNat (ds₀ ++ [i]) ds).trans_lt hsum
    exact (runClean_cons (exec_nsym_converting hleast hfirst) rfl).trans (ih _ hsum)

/-- NBEGIN and the symbols of a digit string whose sum fits. -/
theorem runClean_nbegin_symbols {s : State} {cs : List CharCode} {ds : List Nat} (hf : s.status.f = false)
    (hb : 2 ≤ s.base.toNat) (h : List.Forall₂ (LeastIndex s) cs ds) (rest : List Instr)
    (hsum : digitSum s.base.toNat ds < 2 ^ 64) :
    runClean (.nbegin :: cs.map .nsym ++ rest) s = runClean rest (converting s ds) :=
  (runClean_cons (exec_nbegin_converting hf hb) rfl).trans (runClean_symbols h [] rest hsum)

/-- The state after NEND closes the conversion (R134). -/
def converted (s : State) (ds : List Nat) : State :=
  complete ((converting s ds).setStatus (converting s ds).status.closeNumeral) [(Tag.num, (converting s ds).nacc)]

theorem exec_nend_converting (s : State) (ds : List Nat) : exec .nend (converting s ds) = .next (converted s ds) :=
  exec_nend_completes rfl rfl

/-- The one item of a conversion is the value of the digit string. -/
theorem oq_converted (s : State) (ds : List Nat) : (converted s ds).oq =
    s.oq ++ [{ last := true, tag := .num, data := BitVec.ofNat 64 (digitSum s.base.toNat ds) }] := rfl

/-- A whole conversion of a digit string whose sum fits. -/
theorem runClean_conversion {s : State} {cs : List CharCode} {ds : List Nat} (hf : s.status.f = false)
    (hb : 2 ≤ s.base.toNat) (h : List.Forall₂ (LeastIndex s) cs ds) (hsum : digitSum s.base.toNat ds < 2 ^ 64) :
    runClean (.nbegin :: cs.map .nsym ++ [.nend]) s = some (converted s ds) :=
  (runClean_nbegin_symbols hf hb h [.nend] hsum).trans (runClean_cons (exec_nend_converting s ds) rfl)

/-! ### From digits to characters and back -/

/-- With different codes, the entry of a digit is found at that digit. -/
theorem leastIndex_readEntry {s : State} (hdistinct : DistinctSymbols s) {r : Nat} (hr : r < s.base.toNat) :
    LeastIndex s (readEntry s.ct r) r :=
  ⟨hr, rfl, fun j hj heq => hj.ne (hdistinct j (hj.trans hr) r hr heq)⟩

/-- The characters of `NGEN value` in reverse order are symbols of its digits, least significant first. -/
theorem leastIndex_reverse_digits {s : State} (hb : 2 ≤ s.base.toNat) (hdistinct : DistinctSymbols s) {value : Nat}
    (hv : value < 2 ^ 64) :
    List.Forall₂ (LeastIndex s) ((digits s.base.toNat value).map (readEntry s.ct)).reverse
      (digits s.base.toNat value).reverse := by
  rw [List.forall₂_reverse_iff, List.forall₂_map_left_iff, List.forall₂_same]
  exact fun r hr => leastIndex_readEntry hdistinct (digits_lt _ _ hb hv r hr)

/-- The NSYMs of a numeral's items from last to first. -/
theorem map_nsym_reverse_markLast_numeralPushes (s : State) (value : Data) :
    ((markLast (numeralPushes s value)).reverse.map fun it => Instr.nsym (it.data.setWidth 21)) =
      ((digits s.base.toNat value.toNat).map (readEntry s.ct)).reverse.map .nsym := by
  rw [← map_char_markLast_numeralPushes, ← List.map_reverse, List.map_map]
  rfl

end Sys2Proof.Safety

namespace Sys2Proof.Proofs

open Sys2Proof.Machine Sys2Proof.Safety

/-- Settles O31: NGEN's characters, reversed, are the symbols of its digits, whose sum is the value. -/
theorem numeralRoundTrip : Obligations.NumeralRoundTrip := by
  intro n s hf hb _ hdistinct
  have hsum : digitSum s.base.toNat (digits s.base.toNat n.toNat).reverse = n.toNat :=
    digitSum_reverse_digits hb n.isLt
  have hsymbols : List.Forall₂ (LeastIndex (complete s (numeralPushes s n))) _ _ :=
    leastIndex_reverse_digits hb hdistinct n.isLt
  refine ⟨complete s (numeralPushes s n),
    converted (complete s (numeralPushes s n)) (digits s.base.toNat n.toNat).reverse,
    exec_ngen_completes hf n hb, ?_, ?_⟩
  · rw [complete_oq, List.drop_left, map_nsym_reverse_markLast_numeralPushes]
    exact runClean_conversion hf hb hsymbols (hsum.trans_lt n.isLt)
  · rw [oq_converted, complete_base, hsum, BitVec.ofNat_toNat, BitVec.setWidth_eq]

/-- Settles O32: the run of the symbols up to the first one, if any, whose sum does not fit. -/
theorem numeralValueDelivered : Obligations.NumeralValueDelivered := by
  intro s cs ds hf hb h base
  refine ⟨fun hsum => ⟨_, runClean_conversion hf hb h hsum, oq_converted s ds, digitSum_eq_foldl_reverse base ds⟩,
    fun hsum => ?_⟩
  obtain ⟨k, hk, hlow, hhigh⟩ := exists_first_overflow (by decide) hsum
  have hkcs : k < cs.length := h.length_eq.symm ▸ hk
  have hleast : LeastIndex s cs[k] ds[k] := h.get hkcs hk
  have hrun := runClean_nbegin_symbols hf hb (List.forall₂_take k h) [] hlow
  rw [List.append_nil] at hrun
  have hfault := exec_nsym_converting_overflow hleast hlow (by rwa [List.take_append_getElem])
  exact ⟨k, cs[k], _, _, List.getElem?_eq_getElem hkcs, hlow, hhigh, hrun, hfault, rfl⟩

end Sys2Proof.Proofs
end

