-- ==== Sys2Proof/Proofs/NumeralProcedures.lean ====
section
/-! PROOF. FROMBASE10 and TOBASE10 run on the model (43_codec_procedures.md R181, R182, R191): what popping a command's
items gives, what LOADCS leaves for the converting commands, and the two procedures in closed form. -/

namespace Sys2Proof.Safety

open Sys2Proof.Machine

/-! ### Popping and checking for a fault -/

theorem runProc_failIfFaulted_of_not_faulted {s : State} (hf : s.status.f = false) :
    runProc failIfFaulted s = (.ok (), s) := by
  have hout : ¬ faultOut s = true := Bool.eq_false_iff.1 hf
  rw [failIfFaulted, runProc_bind (runProc_get s), if_neg hout]
  rfl

/-- Popping until the last item takes exactly one command's items. -/
theorem runProc_popUntilLast_markLast {ps : List Push} (hne : ps ≠ []) {k : Nat} (hk : ps.length ≤ k) {s : State}
    {q : List Item} (hoq : s.oq = markLast ps ++ q) :
    runProc (popUntilLast k) s = (.ok (markLast ps), s.setQueue q) := by
  induction ps using markLast.induct generalizing k s with
  | case1 => exact absurd rfl hne
  | case2 p =>
    obtain ⟨k, rfl⟩ := Nat.exists_eq_add_of_le' hk
    exact runProc_bind (runProc_pop hoq)
  | case3 p p' ps ih =>
    obtain ⟨k, rfl⟩ := Nat.exists_eq_add_of_le' (Nat.le_trans (Nat.le_add_left 1 _) hk)
    have hrest : runProc (popUntilLast k) (s.setQueue (markLast (p' :: ps) ++ q)) =
        (.ok (markLast (p' :: ps)), s.setQueue q) :=
      ih (List.cons_ne_nil _ _) (Nat.le_of_succ_le_succ hk) rfl
    exact (runProc_bind (runProc_pop hoq)).trans (runProc_bind hrest)

theorem runProc_popCmd {ps : List Push} (hne : ps ≠ []) {s : State} (hoq : s.oq = markLast ps) :
    runProc popCmd s = (.ok (markLast ps), s.setQueue []) := by
  have hlen : ps.length ≤ s.oq.length := by rw [hoq, markLast_length]
  exact (runProc_bind (runProc_get s)).trans
    (runProc_popUntilLast_markLast hne hlen (hoq.trans (List.append_nil _).symm))

theorem runProc_popSingle {p : Push} {s : State} (hoq : s.oq = markLast [p]) :
    runProc popSingle s = (.ok { last := true, tag := p.1, data := p.2 }, s.setQueue []) :=
  runProc_bind (runProc_popCmd (List.cons_ne_nil _ _) hoq)

/-! ### A loaded charset -/

/-- What LOADCS leaves for the converting commands: BASE is the charset's length, the entries below it its characters
(43_codec_procedures.md R180). -/
structure Loaded (charset : List CharCode) (s : State) : Prop where
  base : s.base.toNat = charset.length
  entry : ∀ r < charset.length, readEntry s.ct r = charset.getD r 0

theorem exists_runProc_loadCharset_loaded {charset : List CharCode} (hlen : charset.length ≤ 256) {s : State}
    (hs : Ready s) : ∃ u, runProc (loadCharset charset) s = (.ok (), u) ∧ Loaded charset u ∧ Ready u := by
  obtain ⟨hf, hn, hoq⟩ := hs
  refine ⟨_, runProc_loadCharset charset s hlen hf hn, ⟨toNat_ofNat_of_le_ctSize hlen, fun r hr => ?_⟩, hf, hn, hoq⟩
  have hread := readEntry?_loadedTable charset 0 r s.ct hr
  rw [Nat.zero_add, List.getElem?_eq_getElem hr, ← List.getD_eq_getElem _ 0 hr] at hread
  exact readEntry_eq_of_readEntry? hread

/-- Different characters are different codes below BASE (70_reset_and_hazards.md R254). -/
theorem Loaded.distinctSymbols {charset : List CharCode} {s : State} (h : Loaded charset s) (hnodup : charset.Nodup) :
    DistinctSymbols s := by
  intro i hi j hj heq
  rw [h.base] at hi hj
  rw [h.entry i hi, h.entry j hj, List.getD_eq_getElem _ _ hi, List.getD_eq_getElem _ _ hj] at heq
  exact (hnodup.getElem_inj_iff).1 heq

/-- The numeral of `n` in the charset's own characters, most significant first (R181). -/
def numeralOf (charset : List CharCode) (n : Nat) : List CharCode :=
  (digits charset.length n).map fun r => charset.getD r 0

theorem Loaded.map_readEntry_digits {charset : List CharCode} {s : State} (h : Loaded charset s)
    (hb : 2 ≤ charset.length) {n : Nat} (hn : n < 2 ^ 64) :
    (digits s.base.toNat n).map (readEntry s.ct) = numeralOf charset n := by
  rw [h.base]
  exact List.map_congr_left fun r hr => h.entry r (digits_lt _ _ hb hn r hr)

theorem numeralOf_ne_nil {charset : List CharCode} (hb : 2 ≤ charset.length) {n : Nat} (hn : n < 2 ^ 64) :
    numeralOf charset n ≠ [] := mt List.map_eq_nil_iff.1 (digits_ne_nil _ _ hb hn)

/-- The numeral of 0 is the first character (R191). -/
theorem numeralOf_zero {charset : List CharCode} {first : CharCode} (hb : 2 ≤ charset.length)
    (hfirst : charset[0]? = some first) : numeralOf charset 0 = [first] := by
  simp [numeralOf, digits_zero hb, List.getD_eq_getElem?_getD, hfirst]

/-! ### FROMBASE10 -/

/-- FROMBASE10 gives the numeral and leaves the engine ready (R181). -/
theorem exists_runProc_fromBase10 {charset : List CharCode} (hb : 2 ≤ charset.length) (hlen : charset.length ≤ 256)
    {n : Nat} (hn : n < 2 ^ 64) {s : State} (hs : Ready s) :
    ∃ t, runProc (fromBase10 n charset) s = (.ok (numeralOf charset n), t) ∧ Ready t := by
  obtain ⟨u, hload, hloaded, hf, hnact, hoq⟩ := exists_runProc_loadCharset_loaded hlen hs
  have hbase : 2 ≤ u.base.toNat := hb.trans_eq hloaded.base.symm
  have hvalue : (BitVec.ofNat 64 n).toNat = n := toNat_ofNat_of_lt hn le_rfl
  have hngen := runProc_issue (Proofs.decodeInvertsEncode _) (exec_ngen_completes hf (BitVec.ofNat 64 n) hbase)
  have hitems : (complete u (numeralPushes u (BitVec.ofNat 64 n))).oq = markLast _ :=
    congrArg (· ++ markLast (numeralPushes u (BitVec.ofNat 64 n))) hoq
  have hclear := runProc_failIfFaulted_of_not_faulted (s := complete u (numeralPushes u (BitVec.ofNat 64 n))) hf
  have hpop := runProc_popCmd (numeralPushes_ne_nil hbase _) hitems
  refine ⟨(complete u (numeralPushes u (BitVec.ofNat 64 n))).setQueue [], ?_, hf, hnact, rfl⟩
  rw [fromBase10, if_neg (Nat.not_le.2 hn), runProc_bind hload, runProc_bind hngen,
    runProc_bind hclear, runProc_bind hpop, map_char_markLast_numeralPushes, hvalue,
    hloaded.map_readEntry_digits hb hn]
  rfl

/-! ### TOBASE10 -/

/-- The NSYMs of TOBASE10, none of which faults when the whole sum fits (R182). -/
theorem runProc_takeSymbols {s : State} {cs : List CharCode} {ds : List Nat} (h : List.Forall₂ (LeastIndex s) cs ds)
    (ds₀ : List Nat) (hsum : digitSum s.base.toNat (ds₀ ++ ds) < 2 ^ 64) :
    runProc (takeSymbols cs) (converting s ds₀) = (.ok (), converting s (ds₀ ++ ds)) := by
  induction h generalizing ds₀ with
  | nil => rw [List.append_nil]; rfl
  | @cons ch i cs ds hleast _ ih =>
    rw [List.append_cons] at hsum ⊢
    have hfirst := (digitSum_le_append s.base.toNat (ds₀ ++ [i]) ds).trans_lt hsum
    have hnsym := runProc_issue (Proofs.decodeInvertsEncode (.nsym ch)) (exec_nsym_converting hleast hfirst)
    rw [takeSymbols, runProc_bind hnsym, runProc_bind (runProc_failIfFaulted_of_not_faulted rfl), ih _ hsum]

/-- TOBASE10 of symbols whose sum fits gives the sum and leaves the engine ready (R182). -/
theorem exists_runProc_toBase10 {numeral charset : List CharCode} {ds : List Nat} {s u : State}
    (hload : runProc (loadCharset charset) s = (.ok (), u)) (hu : Ready u) (hb : 2 ≤ u.base.toNat)
    (h : List.Forall₂ (LeastIndex u) numeral.reverse ds) (hsum : digitSum u.base.toNat ds < 2 ^ 64) :
    ∃ t, runProc (toBase10 numeral charset) s = (.ok (BitVec.ofNat 64 (digitSum u.base.toNat ds)), t) ∧ Ready t := by
  obtain ⟨hf, -, hoq⟩ := hu
  have hnbegin := runProc_issue (Proofs.decodeInvertsEncode .nbegin) (exec_nbegin_converting hf hb)
  have hnend := runProc_issue (Proofs.decodeInvertsEncode .nend) (exec_nend_converting u ds)
  have hitem : (converted u ds).oq = markLast [(Tag.num, BitVec.ofNat 64 (digitSum u.base.toNat ds))] := by
    rw [oq_converted, hoq]
    rfl
  refine ⟨(converted u ds).setQueue [], ?_, rfl, rfl, rfl⟩
  rw [toBase10, runProc_bind hload, runProc_bind hnbegin, runProc_bind (runProc_failIfFaulted_of_not_faulted rfl),
    runProc_bind (runProc_takeSymbols h [] hsum), List.nil_append, runProc_bind hnend,
    runProc_bind (runProc_popSingle hitem)]
  rfl

end Sys2Proof.Safety

namespace Sys2Proof.Proofs

open Sys2Proof.Machine Sys2Proof.Safety

/-- Settles O46: with the charset loaded again, the numeral's characters from last to first are the symbols of the
digits of `n`. -/
theorem hostNumeralRoundTrip : Obligations.HostNumeralRoundTrip := by
  intro n charset s hs hn hb hlen hnodup
  obtain ⟨t, hfrom, ht⟩ := exists_runProc_fromBase10 hb hlen hn hs
  obtain ⟨v, hload, hloaded, hv⟩ := exists_runProc_loadCharset_loaded hlen ht
  have hbase : 2 ≤ v.base.toNat := hb.trans_eq hloaded.base.symm
  have hsum : digitSum v.base.toNat (digits v.base.toNat n).reverse = n := digitSum_reverse_digits hbase hn
  have hsymbols := leastIndex_reverse_digits hbase (hloaded.distinctSymbols hnodup) hn
  rw [hloaded.map_readEntry_digits hb hn] at hsymbols
  obtain ⟨u, hto, hu⟩ := exists_runProc_toBase10 hload hv hbase hsymbols (hsum.trans_lt hn)
  rw [hsum] at hto
  exact ⟨numeralOf charset n, t, u, hfrom, numeralOf_ne_nil hb hn, hto, hu⟩

/-- Settles O47. -/
theorem zeroIsFirstSymbol : Obligations.ZeroIsFirstSymbol := by
  intro charset first s hs hb hlen hfirst
  obtain ⟨t, hrun, ht⟩ := exists_runProc_fromBase10 hb hlen (n := 0) (by decide) hs
  rw [numeralOf_zero hb hfirst] at hrun
  exact ⟨t, hrun, ht⟩

end Sys2Proof.Proofs
end

