-- ==== Sys2Proof/Proofs/BitPacker.lean ====
section
/-! PROOF. The Bit Packer commands BINIT, BPUT, BFLUSH outside fault state (42_bitpacker.md R150 to R152), and their
independence of the Numeral Converter (R157, 70_reset_and_hazards.md R259): a command commutes with overwriting the
registers it does not use, so it neither reads nor writes them. -/

namespace Sys2Proof.Machine

/-! ### The commands outside fault state -/

section
variable {s : State} (hf : s.status.f = false)
include hf

theorem exec_binit_completes {w : BitVec 6} (hw : legalOutputWidth w = true) :
    exec (.binit w) s = finish (s.setPacker w 0 0 0) [] :=
  (unlessFaulted_run hf _).trans (if_pos hw)

theorem exec_binit_of_illegal {w : BitVec 6} (hw : ¬ legalOutputWidth w = true) :
    exec (.binit w) s = raise (.binit w) (.illegalOperand (zext64 w)) s :=
  (unlessFaulted_run hf _).trans (if_neg hw)

theorem exec_bput_of_unconstructed (v : BitVec 32) (iw : BitVec 6) (hw : s.w = 0) :
    exec (.bput v iw) s = raise (.bput v iw) .sequenceError s :=
  (unlessFaulted_run hf _).trans (if_pos hw)

theorem exec_bput_of_illegal (v : BitVec 32) {iw : BitVec 6} (hw : s.w ≠ 0) (hi : ¬ legalInputWidth iw = true) :
    exec (.bput v iw) s = raise (.bput v iw) (.illegalOperand (zext64 iw)) s :=
  (unlessFaulted_run hf _).trans ((if_neg hw).trans (if_neg hi))

theorem exec_bput_completes (v : BitVec 32) {iw : BitVec 6} (hw : s.w ≠ 0) (hi : legalInputWidth iw = true) :
    exec (.bput v iw) s =
      finish (s.setPacker s.w iw (BitVec.ofNat 31 (packed s v iw).buf) (BitVec.ofNat 5 (packed s v iw).n))
        ((packed s v iw).vals.map fun x => (Tag.val, BitVec.ofNat 64 x)) :=
  (unlessFaulted_run hf _).trans ((if_neg hw).trans (if_pos hi))

theorem exec_bflush_of_unconstructed (hw : s.w = 0) : exec .bflush s = raise .bflush .sequenceError s :=
  (unlessFaulted_run hf _).trans (if_pos hw)

theorem exec_bflush_empty (hw : s.w ≠ 0) (hc : s.cnt = 0) : exec .bflush s = finish s [(Tag.none, 0)] :=
  (unlessFaulted_run hf _).trans ((if_neg hw).trans (if_pos hc))

theorem exec_bflush_pending (hw : s.w ≠ 0) (hc : s.cnt ≠ 0) :
    exec .bflush s = finish (s.setPacker s.w s.iw 0 0) [(Tag.val, BitVec.ofNat 64 (flushValue s))] :=
  (unlessFaulted_run hf _).trans ((if_neg hw).trans (if_neg hc))

/-- A flush of a constructed packer leaves nothing pending, so a flush after it gives NONE (R152, corner case (b)). -/
theorem exec_bflush_bflush (hw : s.w ≠ 0) {t : State} (h : exec .bflush s = .next t) :
    t.w = s.w ∧ exec .bflush t = finish t [(Tag.none, 0)] := by
  by_cases hc : s.cnt = 0
  · obtain rfl := (finish_next ..).1 ((exec_bflush_empty hf hw hc).symm.trans h)
    exact ⟨rfl, exec_bflush_empty hf hw hc⟩
  · obtain rfl := (finish_next ..).1 ((exec_bflush_pending hf hw hc).symm.trans h)
    exact ⟨rfl, exec_bflush_empty hf hw rfl⟩

end

/-- The widths R86 calls illegal, as R150 and R151 list them. -/
theorem not_legal_width {w : BitVec 6} (h : w = 0 ∨ 32 < w.toNat) : ¬ (1 ≤ w.toNat ∧ w.toNat ≤ 32) := by
  rintro ⟨hlo, hhi⟩
  obtain rfl | h := h
  · exact absurd hlo (by decide)
  · omega

/-- The pending bits at the top of W bits (R152): none of them is cut off when CNT is at most W. -/
theorem flushValue_eq {s : State} (ha : s.acc.toNat < 2 ^ s.cnt.toNat) (hc : s.cnt.toNat ≤ s.w.toNat) :
    flushValue s = s.acc.toNat * 2 ^ (s.w.toNat - s.cnt.toNat) := by
  have hlt : s.acc.toNat * 2 ^ (s.w.toNat - s.cnt.toNat) < 2 ^ s.w.toNat :=
    calc s.acc.toNat * 2 ^ (s.w.toNat - s.cnt.toNat)
      _ < 2 ^ s.cnt.toNat * 2 ^ (s.w.toNat - s.cnt.toNat) := Nat.mul_lt_mul_of_pos_right ha (Nat.two_pow_pos _)
      _ = 2 ^ s.w.toNat := by rw [← Nat.pow_add, Nat.add_sub_cancel' hc]
  rw [flushValue, and_mask, Nat.shiftLeft_eq, Nat.mod_eq_of_lt hlt]

/-! ### Commands that neither read nor write some registers -/

/-- An outcome with its next state changed by `g`. -/
def onNext (g : State → State) : Result → Result
  | .next s => .next (g s)
  | .fault r => .fault r
  | .refused r => .refused r

/-- `g` overwrites registers that command `i` does not read and that it does not write: the command on the overwritten
state is the overwritten outcome. -/
def Ignores (i : Instr) (g : State → State) : Prop := ∀ s, exec i (g s) = onNext g (exec i s)

theorem Ignores.exec_eq {i : Instr} {g : State → State} (h : Ignores i g) {s t : State} (hexec : exec i s = .next t) :
    exec i (g s) = .next (g t) := (h s).trans (congrArg (onNext g) hexec)

/-- Overwriting with the values already there shows the frame: the command has left these values. -/
theorem Ignores.eq_of_eq {i : Instr} {g : State → State} (h : Ignores i g) {s t : State} (hexec : exec i s = .next t)
    (hs : g s = s) : t = g t := by
  have hg := h.exec_eq hexec
  rw [hs, hexec] at hg
  exact Host.Outcome.next.inj hg

theorem unlessFaulted_onNext {g : State → State} {s : State} {run run' : Result} (hg : (g s).status = s.status)
    (h : run' = onNext g run) : unlessFaulted (g s) run' = onNext g (unlessFaulted s run) := by
  unfold unlessFaulted
  rw [hg, h]
  split <;> rfl

theorem ite_onNext {p : Prop} [Decidable p] {g : State → State} {a b a' b' : Result} (ha : a' = onNext g a)
    (hb : b' = onNext g b) : (if p then a' else b') = onNext g (if p then a else b) := by
  split
  exacts [ha, hb]

/-- Overwrite what R157 keeps from the Bit Packer: BASE, BPS, the charset table, NACC and NPOW. -/
def setConverter (base : BitVec 9) (bps : BitVec 4) (ct : Memory) (nacc npow : Data) (s : State) : State :=
  ((s.setCharset base bps).setTable ct).setNumeral nacc npow

/-- Overwrite the Bit Packer's registers. -/
abbrev overwritePacker (w iw : BitVec 6) (acc : BitVec 31) (cnt : BitVec 5) (s : State) : State :=
  s.setPacker w iw acc cnt

/-- The Bit Packer commands ignore the Numeral Converter and the charset. -/
theorem ignores_setConverter {i : Instr} (hi : (∃ w, i = .binit w) ∨ (∃ v iw, i = .bput v iw) ∨ i = .bflush)
    (base : BitVec 9) (bps : BitVec 4) (ct : Memory) (nacc npow : Data) :
    Ignores i (setConverter base bps ct nacc npow) := by
  intro s
  obtain ⟨w, rfl⟩ | ⟨v, iw, rfl⟩ | rfl := hi
  · exact unlessFaulted_onNext rfl (ite_onNext rfl rfl)
  · exact unlessFaulted_onNext rfl (ite_onNext rfl (ite_onNext rfl rfl))
  · exact unlessFaulted_onNext rfl (ite_onNext rfl (ite_onNext rfl rfl))

/-- The Numeral Converter's commands ignore the Bit Packer. -/
theorem ignores_overwritePacker {i : Instr} (hi : (∃ v, i = .ngen v) ∨ i = .nbegin ∨ (∃ ch, i = .nsym ch) ∨ i = .nend)
    (w iw : BitVec 6) (acc : BitVec 31) (cnt : BitVec 5) : Ignores i (overwritePacker w iw acc cnt) := by
  intro s
  obtain ⟨v, rfl⟩ | rfl | ⟨ch, rfl⟩ | rfl := hi
  · exact unlessFaulted_onNext rfl (ite_onNext rfl rfl)
  · exact unlessFaulted_onNext rfl (ite_onNext rfl rfl)
  · refine unlessFaulted_onNext rfl (ite_onNext ?_ rfl)
    have hadd (i : Nat) : addDigit (s.setPacker w iw acc cnt) i = addDigit s i := rfl
    cases hl : lookup s.ct s.base.toNat ch with
    | none =>
      simp only [setPacker_ct, setPacker_base, hl]
      rfl
    | some i =>
      simp only [setPacker_ct, setPacker_base, hl, hadd]
      cases addDigit s i <;> rfl
  · exact unlessFaulted_onNext rfl (ite_onNext rfl rfl)

end Sys2Proof.Machine

namespace Sys2Proof.Proofs

open Sys2Proof.Machine Sys2Proof.Safety

/-- Settles O13: the two branches of BINIT, `legalOutputWidth` being 1 ≤ w ≤ 32. -/
theorem binitRule : Obligations.BinitRule := by
  refine ⟨fun w => decodeInvertsEncode (.binit w), fun w s hf => ⟨fun hlo hhi => ?_, fun hw => ?_⟩⟩
  · rw [exec_binit_completes hf ((legalOutputWidth_iff w).2 ⟨hlo, hhi⟩), finish, complete_nil]
    rfl
  · rw [exec_binit_of_illegal hf (mt (legalOutputWidth_iff w).1 (not_legal_width hw)), raise_eq_afterFault]
    rfl

/-- Settles O14: the completing case is the closed form of the loop, `packed_eq`, whose premises the invariant gives. -/
theorem bputRule : Obligations.BputRule := by
  refine ⟨fun v iw => decodeInvertsEncode (.bput v iw), fun v iw s hf =>
    ⟨fun hw => ?_, fun hw hi => ?_, fun hsound hw hlo hhi => ?_⟩⟩
  · rw [exec_bput_of_unconstructed hf v iw hw, raise_eq_afterFault]
    rfl
  · rw [exec_bput_of_illegal hf v hw (mt (legalInputWidth_iff iw).1 (not_legal_width hi)), raise_eq_afterFault]
    rfl
  · rw [exec_bput_completes hf v hw ((legalInputWidth_iff iw).2 ⟨hlo, hhi⟩), finish, complete,
      packed_eq v iw (hsound.constructed hw).1 hhi hsound.pending, List.map_map, markLast_map_range, appendBits_eq]
    rfl

/-- Settles O15. -/
theorem bflushRule : Obligations.BflushRule := by
  refine ⟨decodeInvertsEncode .bflush, fun s hf =>
    ⟨fun hw => ?_, fun hw hc => ?_, fun hsound hw hc => ?_, fun hw t u ht hu => ?_⟩⟩
  · rw [exec_bflush_of_unconstructed hf hw, raise_eq_afterFault]
    rfl
  · rw [exec_bflush_empty hf hw hc, finish, complete_singleton]
  · obtain ⟨-, -, hcnt, -⟩ := hsound.constructed hw
    rw [exec_bflush_pending hf hw hc, finish, complete_singleton, flushValue_eq hsound.pending hcnt.le]
    rfl
  · obtain ⟨hkeep, hsecond⟩ := exec_bflush_bflush hf hw ht
    obtain rfl := (finish_next ..).1 (hsecond.symm.trans hu)
    exact ⟨rfl, hkeep⟩

/-- Settles O41: each command commutes with overwriting the other unit's registers, and overwriting them with their own
values shows that it keeps them. -/
theorem packerAndConverterIndependent : Obligations.PackerAndConverterIndependent := by
  refine ⟨fun i s t base bps ct nacc npow hi hexec => ?_, fun i s t w iw acc cnt hi hexec => ?_⟩
  · have hframe := (ignores_setConverter hi s.base s.bps s.ct s.nacc s.npow).eq_of_eq hexec rfl
    have hother := (ignores_setConverter hi base bps ct nacc npow).exec_eq hexec
    rw [hframe]
    exact ⟨rfl, rfl, rfl, rfl, rfl, hother⟩
  · have hframe := (ignores_overwritePacker hi s.w s.iw s.acc s.cnt).eq_of_eq hexec rfl
    have hother := (ignores_overwritePacker hi w iw acc cnt).exec_eq hexec
    rw [hframe]
    exact ⟨rfl, rfl, rfl, rfl, hother⟩

end Sys2Proof.Proofs
end

