-- ==== Sys2Proof/Proofs/BitStream.lean ====
section
/-! PROOF. The stream law of the Bit Packer (42_bitpacker.md R153) and that regrouping loses nothing (R155). A register
that holds `n` pending bits is the value of a bit string of length `n`; a bit string splits in one way into `w`-bit
symbols and a rest of fewer than `w` bits (`Sliced`), and every BPUT takes the split one step further. -/

namespace Sys2Proof.Safety

open Sys2Proof.Machine

/-! ### Bit strings and their values -/

theorem length_bitsOf (n v : Nat) : (bitsOf n v).length = n := by
  rw [bitsOf, List.length_map, List.length_range]

theorem valueOf_append_singleton (bs : List Bool) (b : Bool) : valueOf (bs ++ [b]) = 2 * valueOf bs + b.toNat := by
  rw [valueOf, List.foldl_append]
  rfl

theorem bitsOf_succ (n v : Nat) : bitsOf (n + 1) v = bitsOf n (v / 2) ++ [v.testBit 0] := by
  rw [bitsOf, List.range_succ, List.map_append, List.map_singleton, Nat.add_sub_cancel, Nat.sub_self]
  refine congrArg (· ++ [v.testBit 0]) (List.map_congr_left fun j hj => ?_)
  have hj := List.mem_range.1 hj
  rw [← Nat.testBit_succ]
  congr 1
  omega

/-- Joining two strings shifts the first one up by the length of the second. -/
theorem valueOf_append (xs ys : List Bool) : valueOf (xs ++ ys) = valueOf xs * 2 ^ ys.length + valueOf ys := by
  induction ys using List.reverseRecOn with
  | nil => simp [valueOf]
  | append_singleton ys b ih =>
    rw [← List.append_assoc, valueOf_append_singleton, ih, valueOf_append_singleton, List.length_append,
      List.length_singleton, Nat.pow_succ]
    ring

theorem valueOf_lt (bs : List Bool) : valueOf bs < 2 ^ bs.length := by
  induction bs using List.reverseRecOn with
  | nil => decide
  | append_singleton bs b ih =>
    have hb := Bool.toNat_lt b
    rw [valueOf_append_singleton, List.length_append, List.length_singleton, Nat.pow_succ]
    omega

theorem valueOf_replicate_false (n : Nat) : valueOf (List.replicate n false) = 0 := by
  induction n with
  | zero => rfl
  | succ n ih => rw [List.replicate_succ', valueOf_append_singleton, ih]; rfl

theorem valueOf_bitsOf (n v : Nat) : valueOf (bitsOf n v) = v % 2 ^ n := by
  induction n generalizing v with
  | zero => exact (Nat.mod_one v).symm
  | succ n ih =>
    rw [bitsOf_succ, valueOf_append_singleton, ih, Nat.toNat_testBit, Nat.pow_succ', Nat.mod_mul, Nat.pow_zero,
      Nat.div_one, Nat.add_comm]

/-- A bit string comes back from its value and its length. -/
theorem bitsOf_valueOf (bs : List Bool) : bitsOf bs.length (valueOf bs) = bs := by
  induction bs using List.reverseRecOn with
  | nil => rfl
  | append_singleton bs b ih =>
    have hb := Bool.toNat_lt b
    have hhigh : (2 * valueOf bs + b.toNat) / 2 = valueOf bs := by omega
    have hlow : (2 * valueOf bs + b.toNat).testBit 0 = b := by cases b <;> simp
    rw [List.length_append, List.length_singleton, valueOf_append_singleton, bitsOf_succ, hhigh, hlow, ih]

/-! ### Splitting a bit string into symbols -/

/-- The bit string `bs` is the `w`-bit symbols `vals`, each most significant bit first, followed by `rest`, which is
shorter than a symbol (R153 (a), (b)). -/
structure Sliced (w : Nat) (bs : List Bool) (vals : List Nat) (rest : List Bool) : Prop where
  short : rest.length < w
  bound : ∀ x ∈ vals, x < 2 ^ w
  split : bs = vals.flatMap (bitsOf w) ++ rest

section
variable {w : Nat} {bs cs : List Bool} {vals vals' : List Nat} {rest rest' : List Bool}

theorem sliced_of_short (h : bs.length < w) : Sliced w bs [] bs := ⟨h, by simp, rfl⟩

/-- One more symbol in front. -/
theorem Sliced.cons (h : Sliced w bs vals rest) (hc : cs.length = w) :
    Sliced w (cs ++ bs) (valueOf cs :: vals) rest where
  short := h.short
  bound := by
    rw [List.forall_mem_cons]
    exact ⟨hc ▸ valueOf_lt cs, h.bound⟩
  split := by rw [List.flatMap_cons, List.append_assoc, ← h.split, ← hc, bitsOf_valueOf]

/-- More bits after the rest continue the split. -/
theorem Sliced.append (h : Sliced w bs vals rest) (h' : Sliced w (rest ++ cs) vals' rest') :
    Sliced w (bs ++ cs) (vals ++ vals') rest' where
  short := h'.short
  bound := List.forall_mem_append.2 ⟨h.bound, h'.bound⟩
  split := by rw [h.split, List.append_assoc, h'.split, List.flatMap_append, List.append_assoc]

theorem length_flatMap_bitsOf (w : Nat) (vals : List Nat) : (vals.flatMap (bitsOf w)).length = vals.length * w := by
  simp [List.length_flatMap, length_bitsOf]

theorem Sliced.length_eq (h : Sliced w bs vals rest) : bs.length = rest.length + vals.length * w := by
  rw [h.split, List.length_append, length_flatMap_bitsOf, Nat.add_comm]

theorem Sliced.length_div (h : Sliced w bs vals rest) : bs.length / w = vals.length := by
  rw [h.length_eq, Nat.add_mul_div_right _ _ (Nat.zero_lt_of_lt h.short), Nat.div_eq_of_lt h.short, Nat.zero_add]

theorem Sliced.length_mod (h : Sliced w bs vals rest) : bs.length % w = rest.length := by
  rw [h.length_eq, Nat.add_mul_mod_self_right, Nat.mod_eq_of_lt h.short]

theorem Sliced.drop_eq (h : Sliced w bs vals rest) : bs.drop (bs.length / w * w) = rest := by
  rw [h.length_div, h.split, ← length_flatMap_bitsOf, List.drop_left]

/-- A first part of one slice's length is the first slice. -/
theorem sliceValues_cons (hc : cs.length = w) (hw : 0 < w) :
    sliceValues w (cs ++ bs) = valueOf cs :: sliceValues w bs := by
  have hcount : (cs ++ bs).length / w = bs.length / w + 1 := by
    rw [List.length_append, hc, Nat.add_div_left _ hw]
  rw [sliceValues, hcount, List.range_succ_eq_map, List.map_cons, List.map_map, Nat.zero_mul, List.drop_zero,
    List.take_left' hc]
  refine congrArg (valueOf cs :: ·) (List.map_congr_left fun j _ => ?_)
  have hdrop : (cs ++ bs).drop ((j + 1) * w) = bs.drop (j * w) := by
    rw [Nat.succ_mul, Nat.add_comm, ← List.drop_drop, List.drop_left' hc]
  exact congrArg (fun l => valueOf (l.take w)) hdrop

theorem Sliced.sliceValues_eq (h : Sliced w bs vals rest) : sliceValues w bs = vals := by
  obtain ⟨hshort, hbound, rfl⟩ := h
  induction vals with
  | nil => simp [sliceValues, Nat.div_eq_of_lt hshort]
  | cons x vals ih =>
    rw [List.forall_mem_cons] at hbound
    rw [List.flatMap_cons, List.append_assoc, sliceValues_cons (length_bitsOf w x) (Nat.zero_lt_of_lt hshort),
      valueOf_bitsOf, Nat.mod_eq_of_lt hbound.1, ih hbound.2]

/-- There is one way to split a bit string. -/
theorem Sliced.unique (h : Sliced w bs vals rest) (h' : Sliced w bs vals' rest') : vals = vals' ∧ rest = rest' :=
  ⟨h.sliceValues_eq.symm.trans h'.sliceValues_eq, h.drop_eq.symm.trans h'.drop_eq⟩

/-- The loop of BPUT splits the bits it is given (R151). -/
theorem exists_packLoop_sliced {w k : Nat} {bs : List Bool} (hw : 0 < w) (hk : bs.length ≤ k) :
    ∃ vals rest, packLoop k w (valueOf bs) bs.length = { vals, buf := valueOf rest, n := rest.length } ∧
      Sliced w bs vals rest := by
  induction k generalizing bs with
  | zero =>
    have hlen : bs.length < w := by omega
    exact ⟨[], bs, rfl, sliced_of_short hlen⟩
  | succ k ih =>
    by_cases hlen : bs.length < w
    · exact ⟨[], bs, by simp [packLoop, hlen], sliced_of_short hlen⟩
    · have htake : (bs.take w).length = w := List.length_take_of_le (Nat.le_of_not_lt hlen)
      have hdrop : (bs.drop w).length = bs.length - w := List.length_drop
      have hvalue : valueOf bs = valueOf (bs.take w) * 2 ^ (bs.length - w) + valueOf (bs.drop w) := by
        rw [← hdrop, ← valueOf_append, List.take_append_drop]
      have hlow : valueOf (bs.drop w) < 2 ^ (bs.length - w) := hdrop ▸ valueOf_lt _
      have hhigh : valueOf (bs.take w) < 2 ^ w := (valueOf_lt _).trans_eq (by rw [htake])
      have hbuf : valueOf bs &&& mask (bs.length - w) = valueOf (bs.drop w) := by
        rw [and_mask, hvalue, Nat.mul_add_mod', Nat.mod_eq_of_lt hlow]
      have hsymbol : valueOf bs >>> (bs.length - w) &&& mask w = valueOf (bs.take w) := by
        rw [and_mask, Nat.shiftRight_eq_div_pow, hvalue, Nat.mul_comm, Nat.mul_add_div (Nat.two_pow_pos _),
          Nat.div_eq_of_lt hlow, Nat.add_zero, Nat.mod_eq_of_lt hhigh]
      obtain ⟨vals, rest, hloop, hsliced⟩ := ih (bs := bs.drop w) (by omega)
      refine ⟨valueOf (bs.take w) :: vals, rest, ?_, ?_⟩
      · rw [packLoop, if_neg hlen, hbuf, hsymbol, ← hdrop, hloop]
      · have hcons := hsliced.cons htake
        rwa [List.take_append_drop] at hcons

end

/-! ### The packer's pending bits -/

/-- A packer of output width `w` has been constructed and holds the bits `rest`, fewer than `w` (10_state.md R26). -/
structure Pending (w : BitVec 6) (rest : List Bool) (s : State) : Prop where
  width : s.w = w
  legal : 1 ≤ w.toNat ∧ w.toNat ≤ 32
  short : rest.length < w.toNat
  cnt : s.cnt.toNat = rest.length
  acc : s.acc.toNat = valueOf rest

/-- `s` with the bits `rest` pending after an input of width `iw` (`Pending.next`). -/
def pendingState (s : State) (iw : BitVec 6) (rest : List Bool) : State :=
  s.setPacker s.w iw (BitVec.ofNat 31 (valueOf rest)) (BitVec.ofNat 5 rest.length)

/-- The pushes of a BPUT that completes these symbols. -/
def valPushes (vals : List Nat) : List Push := vals.map fun x => (Tag.val, BitVec.ofNat 64 x)

section
variable {w iw : BitVec 6} {rest : List Bool} {s : State}

theorem Pending.w_ne_zero (h : Pending w rest s) : s.w ≠ 0 := by
  intro hz
  have hlo := h.legal.1
  rw [← h.width, hz] at hlo
  exact absurd hlo (by decide)

/-- The rest of a split fits ACC and CNT (R26 (a), (b)). -/
theorem Pending.next (h : Pending w rest s) {rest' : List Bool} (hshort : rest'.length < w.toNat) :
    Pending w rest' (pendingState s iw rest') where
  width := h.width
  legal := h.legal
  short := hshort
  cnt := toNat_ofNat_of_lt (k := 5) (by have := h.legal; omega) le_rfl
  acc := toNat_ofNat_of_lt (valueOf_lt rest') (by have := h.legal; omega)

/-- After BINIT nothing is pending (R150). -/
theorem pending_binit (s : State) (hw : 1 ≤ w.toNat ∧ w.toNat ≤ 32) :
    Pending w [] (complete (s.setPacker w 0 0 0) []) := ⟨rfl, hw, hw.1, rfl, rfl⟩

/-- The buffer of BPUT holds the pending bits followed by the input's (R151). -/
theorem Pending.appendBits_eq (h : Pending w rest s) (v : BitVec 32) (iw : BitVec 6) :
    appendBits s v iw = valueOf (rest ++ bitsOf iw.toNat v.toNat) := by
  rw [Machine.appendBits_eq, h.acc, valueOf_append, length_bitsOf, valueOf_bitsOf]

/-- A BPUT of legal width pushes the symbols that its input completes and keeps the rest pending. -/
theorem Pending.exists_exec_bput (h : Pending w rest s) (hf : s.status.f = false) (v : BitVec 32)
    (hi : legalInputWidth iw = true) :
    ∃ vals rest', Sliced w.toNat (rest ++ bitsOf iw.toNat v.toNat) vals rest' ∧
      exec (.bput v iw) s = finish (pendingState s iw rest') (valPushes vals) := by
  have hlen : s.cnt.toNat + iw.toNat = (rest ++ bitsOf iw.toNat v.toNat).length := by
    rw [List.length_append, length_bitsOf, h.cnt]
  have hturns : (rest ++ bitsOf iw.toNat v.toNat).length ≤ packTurns := by
    have hcnt := s.cnt.isLt
    have hiw := ((legalInputWidth_iff iw).1 hi).2
    rw [← hlen, packTurns]
    omega
  obtain ⟨vals, rest', hloop, hsliced⟩ := exists_packLoop_sliced h.legal.1 hturns
  have hpacked : packed s v iw = { vals, buf := valueOf rest', n := rest'.length } := by
    rw [packed, h.width, h.appendBits_eq, hlen, hloop]
  refine ⟨vals, rest', hsliced, ?_⟩
  rw [exec_bput_completes hf v h.w_ne_zero hi, hpacked]
  rfl

/-! ### The flush -/

/-- The symbols that a flush adds to the stream: none, or the pending bits with zeros below (R152). -/
def flushedVals (w : Nat) (rest : List Bool) : List Nat :=
  if rest = [] then [] else [valueOf (rest ++ List.replicate (w - rest.length) false)]

/-- What a flush pushes: NONE, or its one symbol. -/
def flushPush (w : Nat) (rest : List Bool) : Push :=
  if rest = [] then (Tag.none, 0)
  else (Tag.val, BitVec.ofNat 64 (valueOf (rest ++ List.replicate (w - rest.length) false)))

/-- A flush adds no symbol and pushes NONE, or it pushes the symbol that it adds. -/
theorem flush_cases (w : Nat) (rest : List Bool) :
    (flushPush w rest = (Tag.none, 0) ∧ flushedVals w rest = []) ∨
    ∃ x, flushPush w rest = (Tag.val, BitVec.ofNat 64 x) ∧ flushedVals w rest = [x] := by
  unfold flushPush flushedVals
  split
  exacts [.inl ⟨rfl, rfl⟩, .inr ⟨_, rfl, rfl⟩]

theorem length_append_replicate_of_short {w : Nat} (hshort : rest.length < w) :
    (rest ++ List.replicate (w - rest.length) false).length = w := by
  rw [List.length_append, List.length_replicate, Nat.add_sub_cancel' hshort.le]

theorem flushedVals_lt {w : Nat} (hshort : rest.length < w) : ∀ x ∈ flushedVals w rest, x < 2 ^ w := by
  unfold flushedVals
  split
  · simp
  · rw [List.forall_mem_singleton]
    exact (valueOf_lt _).trans_eq (by rw [length_append_replicate_of_short hshort])

theorem Pending.flushValue_eq (h : Pending w rest s) :
    flushValue s = valueOf (rest ++ List.replicate (w.toNat - rest.length) false) := by
  have hacc : s.acc.toNat < 2 ^ s.cnt.toNat := by
    rw [h.acc, h.cnt]
    exact valueOf_lt rest
  have hcnt : s.cnt.toNat ≤ s.w.toNat := by
    rw [h.cnt, h.width]
    exact h.short.le
  rw [Machine.flushValue_eq hacc hcnt, h.acc, h.cnt, h.width, valueOf_append, valueOf_replicate_false,
    List.length_replicate, Nat.add_zero]

/-- A flush pushes one item and leaves nothing pending; with nothing pending before, that changes no register. -/
theorem Pending.exec_bflush (h : Pending w rest s) (hf : s.status.f = false) :
    exec .bflush s = finish (s.setPacker s.w s.iw 0 0) [flushPush w.toNat rest] := by
  by_cases hrest : rest = []
  · subst hrest
    have hcnt : s.cnt = 0 := BitVec.eq_of_toNat_eq h.cnt
    have hacc : s.acc = 0 := BitVec.eq_of_toNat_eq h.acc
    have hsame : s.setPacker s.w s.iw 0 0 = s :=
      calc s.setPacker s.w s.iw 0 0
        _ = s.setPacker s.w s.iw s.acc s.cnt := by rw [hacc, hcnt]
        _ = s := rfl
    rw [exec_bflush_empty hf h.w_ne_zero hcnt, hsame, flushPush, if_pos rfl]
  · have hcnt : s.cnt ≠ 0 := by
      intro hz
      have hlen := h.cnt
      rw [hz] at hlen
      exact hrest (List.length_eq_zero_iff.1 hlen.symm)
    rw [exec_bflush_pending hf h.w_ne_zero hcnt, h.flushValue_eq, flushPush, if_neg hrest]

/-- After BFLUSH nothing is pending (R152). -/
theorem Pending.flushed (h : Pending w rest s) : Pending w [] (s.setPacker s.w s.iw 0 0) :=
  ⟨h.width, h.legal, h.legal.1, rfl, rfl⟩

end

/-! ### The VAL items of a command -/

theorem valData_append (xs ys : List Item) : valData (xs ++ ys) = valData xs ++ valData ys := by
  rw [valData, List.filter_append, List.map_append]
  rfl

theorem valData_markLast_of_forall_ne_val {ps : List Push} (h : ∀ p ∈ ps, p.1 ≠ Tag.val) :
    valData (markLast ps) = [] := by
  refine List.map_eq_nil_iff.2 (List.filter_eq_nil_iff.2 fun it hit => ?_)
  obtain ⟨p, hp, htag, -⟩ := mem_markLast hit
  rw [htag, decide_eq_true_iff]
  exact h p hp

theorem valData_markLast_valPushes {n : Nat} (hn : n ≤ 64) {vals : List Nat} (h : ∀ x ∈ vals, x < 2 ^ n) :
    valData (markLast (valPushes vals)) = vals := by
  have htags : (markLast (valPushes vals)).filter (fun it => it.tag = Tag.val) = markLast (valPushes vals) :=
    List.filter_eq_self.2 fun it hit => decide_eq_true (mem_markLast_map hit).1
  calc valData (markLast (valPushes vals))
    _ = ((markLast (valPushes vals)).map Item.data).map BitVec.toNat := by rw [valData, htags, List.map_map]; rfl
    _ = vals.map fun x => (BitVec.ofNat 64 x).toNat := by
      rw [map_data_markLast, valPushes, List.map_map, List.map_map]
      rfl
    _ = vals := (List.map_congr_left fun x hx => toNat_ofNat_of_lt (h x hx) hn).trans (List.map_id' vals)

theorem valData_markLast_flushPush {w : Nat} (hw : w ≤ 64) {rest : List Bool} (hshort : rest.length < w) :
    valData (markLast [flushPush w rest]) = flushedVals w rest := by
  obtain ⟨hpush, hvals⟩ | ⟨x, hpush, hvals⟩ := flush_cases w rest
  · rw [hpush, hvals]
    rfl
  · have hlt := flushedVals_lt hshort
    rw [hvals] at hlt
    rw [hpush, hvals]
    exact valData_markLast_valPushes (vals := [x]) hw hlt

/-! ### The stream law -/

/-- A command other than those of the Bit Packer feeds it no bits, pushes no VAL item and keeps what it holds. -/
theorem passes_packer_of_completes {i : Instr} {s s₁ : State} {ps : List Push} (h : Completes s i s₁ ps)
    (hi : leavesPackerStream i = true) (hput : ∀ v iw, i ≠ .bput v iw) :
    inputBits i = [] ∧ (∀ p ∈ ps, p.1 ≠ Tag.val) ∧ s₁.w = s.w ∧ s₁.cnt = s.cnt ∧ s₁.acc = s.acc := by
  cases h with
  | bput => exact absurd rfl (hput _ _)
  | binit | bflushEmpty | bflushPending => exact absurd hi Bool.false_ne_true
  | _ => simp [inputBits]

/-- From state `s`, with `rest` pending, the bits `bits` have been fed to reach `t`: the VAL items pushed on the way are
the whole symbols of all these bits, and `t` holds what is left (R153). -/
def Streams (w : BitVec 6) (rest : List Bool) (s : State) (bits : List Bool) (t : State) : Prop :=
  ∃ items rest', t.oq = s.oq ++ items ∧ Sliced w.toNat (rest ++ bits) (valData items) rest' ∧ Pending w rest' t

section
variable {w : BitVec 6} {rest : List Bool} {s t u : State}

theorem Pending.streams_nil (h : Pending w rest s) : Streams w rest s [] s :=
  ⟨[], rest, (List.append_nil _).symm, by rw [List.append_nil]; exact sliced_of_short h.short, h⟩

theorem Streams.trans {bits bits' : List Bool} (h : Streams w rest s bits t)
    (h' : ∀ rest', Pending w rest' t → Streams w rest' t bits' u) : Streams w rest s (bits ++ bits') u := by
  obtain ⟨items, rest', hoq, hsliced, hpending⟩ := h
  obtain ⟨items', rest'', hoq', hsliced', hpending'⟩ := h' rest' hpending
  refine ⟨items ++ items', rest'', ?_, ?_, hpending'⟩
  · rw [hoq', hoq, List.append_assoc]
  · rw [valData_append, ← List.append_assoc]
    exact hsliced.append hsliced'

/-- A BPUT streams the bits of its input. -/
theorem Pending.streams_bput (h : Pending w rest s) {v : BitVec 32} {iw : BitVec 6} {vals : List Nat}
    {rest' : List Bool} (hsliced : Sliced w.toNat (rest ++ bitsOf iw.toNat v.toNat) vals rest') :
    Streams w rest s (inputBits (.bput v iw)) (complete (pendingState s iw rest') (valPushes vals)) := by
  have hlegal := h.legal
  refine ⟨markLast (valPushes vals), rest', rfl, ?_, { h.next (iw := iw) hsliced.short with }⟩
  rwa [valData_markLast_valPushes (by omega) hsliced.bound]

/-- Every command of R153's sequence streams its input bits. -/
theorem Pending.streams_exec (h : Pending w rest s) (hf : s.status.f = false) {i : Instr}
    (hi : leavesPackerStream i = true) (hexec : exec i s = .next t) (ht : t.status.f = false) :
    Streams w rest s (inputBits i) t := by
  cases runs_of_exec hexec with
  | discarded hf' => exact absurd (hf.symm.trans hf') Bool.false_ne_true
  | faulted => exact absurd ht.symm Bool.false_ne_true
  | @completed s₁ ps hc =>
    by_cases hput : ∃ v iw, i = .bput v iw
    · obtain ⟨v, iw, rfl⟩ := hput
      have hlegal : legalInputWidth iw = true := by cases hc; assumption
      obtain ⟨vals, rest', hsliced, hfinish⟩ := h.exists_exec_bput hf v hlegal
      rw [← (finish_next ..).1 (hfinish.symm.trans hexec)]
      exact h.streams_bput hsliced
    · obtain ⟨hbits, htags, hw, hcnt, hacc⟩ :=
        passes_packer_of_completes hc hi fun v iw hvi => hput ⟨v, iw, hvi⟩
      refine ⟨markLast ps, rest, by rw [complete_oq, hc.oq_eq], ?_,
        hw.trans h.width, h.legal, h.short, (congrArg _ hcnt).trans h.cnt, (congrArg _ hacc).trans h.acc⟩
      rw [hbits, List.append_nil, valData_markLast_of_forall_ne_val htags]
      exact sliced_of_short h.short

/-- A clean run begins with a command that completes. -/
theorem exists_exec_of_runClean_cons {i : Instr} {is : List Instr} (h : runClean (i :: is) s = some t) :
    ∃ u, exec i s = .next u ∧ u.status.f = false ∧ runClean is u = some t := by
  obtain ⟨u, hu⟩ := exec_answers i s
  cases hf : u.status.f with
  | true => simp [runClean, hu, hf] at h
  | false => exact ⟨u, hu, hf, (runClean_cons hu hf).symm.trans h⟩

theorem not_faulted_of_runClean {is : List Instr} (hf : s.status.f = false) (hrun : runClean is s = some t) :
    t.status.f = false := by
  induction is generalizing s with
  | nil =>
    obtain rfl : s = t := Option.some.inj hrun
    exact hf
  | cons i is ih =>
    obtain ⟨u, -, hfu, hrest⟩ := exists_exec_of_runClean_cons hrun
    exact ih hfu hrest

theorem Pending.streams_runClean (h : Pending w rest s) (hf : s.status.f = false) {is : List Instr}
    (his : ∀ i ∈ is, leavesPackerStream i = true) (hrun : runClean is s = some t) :
    Streams w rest s (streamBits is) t := by
  induction is generalizing rest s with
  | nil =>
    obtain rfl : s = t := Option.some.inj hrun
    exact h.streams_nil
  | cons i is ih =>
    rw [List.forall_mem_cons] at his
    obtain ⟨u, hu, hfu, hrest⟩ := exists_exec_of_runClean_cons hrun
    exact (h.streams_exec hf his.1 hu hfu).trans fun _ h' => ih h' hfu his.2 hrest

/-- The stream law from BINIT on (R153). -/
theorem streams_of_runClean_binit (hf : s.status.f = false) {is : List Instr}
    (his : ∀ i ∈ is, leavesPackerStream i = true) (hrun : runClean (.binit w :: is) s = some t) :
    Streams w [] s (streamBits is) t := by
  obtain ⟨u, hu, hfu, hrest⟩ := exists_exec_of_runClean_cons hrun
  obtain ⟨hf', -⟩ | ⟨-, hw, rfl⟩ | ⟨-, -, rfl⟩ := execBinit_cases hu
  · exact absurd (hf.symm.trans hf') Bool.false_ne_true
  · obtain ⟨items, rest', hoq, hstream⟩ :=
      (pending_binit s ((legalOutputWidth_iff w).1 hw)).streams_runClean hfu his hrest
    rw [complete_nil] at hoq
    exact ⟨items, rest', hoq, hstream⟩
  · exact absurd hfu.symm Bool.false_ne_true

/-! ### Regrouping bytes (R155) -/

/-- BPUTs of legal width never fault on a constructed packer. -/
theorem Pending.exists_runClean_bputs (h : Pending w rest s) (hf : s.status.f = false) {α : Type} (v : α → BitVec 32)
    {iw : BitVec 6} (hi : legalInputWidth iw = true) (xs : List α) :
    ∃ t, runClean (xs.map fun x => .bput (v x) iw) s = some t := by
  induction xs generalizing rest s with
  | nil => exact ⟨s, rfl⟩
  | cons x xs ih =>
    obtain ⟨vals, rest', hsliced, hexec⟩ := h.exists_exec_bput hf (v x) hi
    have h' : Pending w rest' (complete (pendingState s iw rest') (valPushes vals)) :=
      { h.next (iw := iw) hsliced.short with }
    obtain ⟨t, ht⟩ := ih h' hf
    exact ⟨t, (runClean_cons hexec hf).trans ht⟩

/-- A constructed packer fed with BPUTs of one legal width, from BINIT on. -/
theorem exists_runClean_binit_bputs {α : Type} (hf : s.status.f = false) (hw : 1 ≤ w.toNat ∧ w.toNat ≤ 32)
    (v : α → BitVec 32) {iw : BitVec 6} (hi : legalInputWidth iw = true) (xs : List α) :
    ∃ t, runClean (.binit w :: xs.map fun x => .bput (v x) iw) s = some t ∧
      Streams w [] s (xs.flatMap fun x => bitsOf iw.toNat (v x).toNat) t := by
  have hbinit := exec_binit_completes hf ((legalOutputWidth_iff w).2 hw)
  obtain ⟨t, ht⟩ := (pending_binit s hw).exists_runClean_bputs hf v hi xs
  have hrun := (runClean_cons hbinit hf).trans ht
  have hbits : streamBits (xs.map fun x => .bput (v x) iw) = xs.flatMap fun x => bitsOf iw.toNat (v x).toNat :=
    List.flatMap_map ..
  have hkeeps : ∀ i ∈ xs.map fun x => Instr.bput (v x) iw, leavesPackerStream i = true :=
    List.forall_mem_map.2 fun _ _ => rfl
  exact ⟨t, hrun, hbits ▸ streams_of_runClean_binit hf hkeeps hrun⟩

theorem runClean_append {is js : List Instr} (h : runClean is s = some t) : runClean (is ++ js) s = runClean js t := by
  induction is generalizing s with
  | nil =>
    obtain rfl : s = t := Option.some.inj h
    rfl
  | cons i is ih =>
    obtain ⟨u, hu, hfu, hrest⟩ := exists_exec_of_runClean_cons h
    exact (runClean_cons hu hfu).trans (ih hrest)

end

section
variable {w : Nat} {rest : List Bool}

/-- The bits of the flushed symbol are the pending ones and fewer than `w` zeros. -/
theorem exists_flatMap_flushedVals (hshort : rest.length < w) :
    ∃ z < w, (flushedVals w rest).flatMap (bitsOf w) = rest ++ List.replicate z false := by
  unfold flushedVals
  split
  · next hrest => exact ⟨0, Nat.zero_lt_of_lt hshort, by rw [hrest]; rfl⟩
  · next hrest =>
    have hlen := length_append_replicate_of_short hshort
    have hpos := List.length_pos_iff.2 hrest
    refine ⟨w - rest.length, by omega, ?_⟩
    rw [List.flatMap_singleton]
    calc bitsOf w (valueOf (rest ++ List.replicate (w - rest.length) false))
      _ = bitsOf (rest ++ List.replicate (w - rest.length) false).length
          (valueOf (rest ++ List.replicate (w - rest.length) false)) := by rw [hlen]
      _ = rest ++ List.replicate (w - rest.length) false := bitsOf_valueOf _

/-- The symbols of a byte string, flushed, are again the bytes, followed by fewer than 8 zero bits: a flush of `w`-bit
symbols appends fewer than `w` zeros (R155). -/
theorem Sliced.regroup {bytes vals : List Nat} (h : Sliced w (bytes.flatMap (bitsOf 8)) vals rest) (hw : w ≤ 8)
    (hbytes : ∀ x ∈ bytes, x < 2 ^ 8) :
    ∃ z, Sliced 8 ((vals ++ flushedVals w rest).flatMap (bitsOf w)) bytes (List.replicate z false) := by
  obtain ⟨z, hz, hflush⟩ := exists_flatMap_flushedVals h.short
  refine ⟨z, ?_, hbytes, ?_⟩
  · rw [List.length_replicate]
    omega
  · rw [List.flatMap_append, hflush, ← List.append_assoc, ← h.split]

/-- The symbols of a flushed stream are `w`-bit values. -/
theorem Sliced.flushed_lt {bs : List Bool} {vals : List Nat} (h : Sliced w bs vals rest) :
    ∀ x ∈ vals ++ flushedVals w rest, x < 2 ^ w := List.forall_mem_append.2 ⟨h.bound, flushedVals_lt h.short⟩

/-- The bits of a byte string, as BPUTs of width 8 feed them. -/
theorem flatMap_bits_bytes (data : List (BitVec 8)) :
    (data.flatMap fun b => bitsOf (8 : BitVec 6).toNat (b.setWidth 32).toNat) =
      (data.map BitVec.toNat).flatMap (bitsOf 8) := by
  rw [List.flatMap_map]
  refine List.flatMap_congr fun b _ => ?_
  rw [BitVec.toNat_setWidth_of_le (by decide)]
  rfl

/-- The bits of symbols, as BPUTs of their own width feed them. -/
theorem flatMap_bits_symbols {n : Nat} (hw : w ≤ n) {vals : List Nat} (h : ∀ x ∈ vals, x < 2 ^ w) :
    (vals.flatMap fun x => bitsOf w (BitVec.ofNat n x).toNat) = vals.flatMap (bitsOf w) :=
  List.flatMap_congr fun x hx => by rw [toNat_ofNat_of_lt (h x hx) hw]

theorem forall_mem_map_toNat_lt (data : List (BitVec 8)) : ∀ x ∈ data.map BitVec.toNat, x < 2 ^ 8 :=
  List.forall_mem_map.2 fun b _ => b.isLt

end

end Sys2Proof.Safety

namespace Sys2Proof.Proofs

open Sys2Proof.Machine Sys2Proof.Safety

/-- Settles O16: the split of the stream that `Streams` carries along is the one into `w`-bit slices, and the flush
pushes what is pending. -/
theorem bitStreamLaw : Obligations.BitStreamLaw := by
  intro w is s t hf his hrun bs pending
  obtain ⟨items, rest, hoq, hsliced, hpending⟩ := streams_of_runClean_binit hf his hrun
  have hft := not_faulted_of_runClean hf hrun
  have hrest : pending = rest := hsliced.drop_eq
  have hmod : bs.length % w.toNat = rest.length := hsliced.length_mod
  refine ⟨⟨items, hoq.symm⟩, ?_, hpending.cnt.trans hmod.symm, ?_, _, hpending.exec_bflush hft, ?_⟩
  · rw [hoq, List.drop_left]
    exact hsliced.sliceValues_eq.symm
  · rw [hpending.cnt, hpending.acc, bitsOf_valueOf, hrest]
  · rw [hrest, hmod, complete_oq, flushPush]
    refine congrArg (t.oq ++ ·) ?_
    by_cases hnil : rest = []
    · rw [if_pos hnil, if_pos (List.length_eq_zero_iff.2 hnil)]
      rfl
    · rw [if_neg hnil, if_neg (mt List.length_eq_zero_iff.1 hnil)]
      rfl

/-- Settles O17: the symbols' bits are the bytes' bits and fewer than 8 zeros, and that splits into bytes in one way. -/
theorem packerIsLossless : Obligations.PackerIsLossless := by
  intro w data s s' hf hf' hlo hhi
  have hlegal : 1 ≤ w.toNat ∧ w.toNat ≤ 32 := ⟨hlo, by omega⟩
  obtain ⟨t, hrun, items, rest, hoq, hsliced, hpending⟩ :=
    exists_runClean_binit_bputs (iw := 8) hf hlegal (fun b : BitVec 8 => b.setWidth 32) (by decide) data
  have hft := not_faulted_of_runClean hf hrun
  rw [List.nil_append, flatMap_bits_bytes] at hsliced
  have hflush := runClean_cons (is := []) (hpending.exec_bflush hft) hft
  have hsymbols : valData ((complete (t.setPacker t.w t.iw 0 0) [flushPush w.toNat rest]).oq.drop s.oq.length) =
      valData items ++ flushedVals w.toNat rest := by
    rw [complete_oq, setPacker_oq, hoq, List.append_assoc, List.drop_left, valData_append,
      valData_markLast_flushPush (by omega) hsliced.short]
  obtain ⟨u, hrun', items', rest', hoq', hsliced', hpending'⟩ :=
    exists_runClean_binit_bputs (w := 8) (iw := w) hf' (by decide) (BitVec.ofNat 32)
      ((legalInputWidth_iff w).2 hlegal) (valData items ++ flushedVals w.toNat rest)
  rw [List.nil_append, flatMap_bits_symbols hlegal.2 hsliced.flushed_lt] at hsliced'
  obtain ⟨z, hbytes⟩ := hsliced.regroup hhi (forall_mem_map_toNat_lt data)
  obtain ⟨hvals, hrest⟩ := hsliced'.unique hbytes
  refine ⟨_, u, (runClean_append hrun).trans hflush, ?_, ?_, ?_, ?_⟩
  · rw [hsymbols]
    exact hrun'
  · rw [hoq', List.drop_left]
    exact hvals
  · rw [hpending'.cnt]
    exact hpending'.short
  · refine BitVec.eq_of_toNat_eq ?_
    rw [hpending'.acc, hrest, valueOf_replicate_false]
    rfl

end Sys2Proof.Proofs
end

