-- ==== Sys2Proof/Proofs/Codec.lean ====
section
/-! PROOF. ENCODE and DECODE run on the model (43_codec_procedures.md R184 to R188, R191): the character procedures in
closed form, the two loops as one walk along the Bit Packer's stream, and the round trip. -/

namespace Sys2Proof.Machine

/-- A value below the base is its own single digit. -/
theorem digits_of_lt {base value : Nat} (hb : 2 ≤ base) (hv : value < 2 ^ 64) (h : value < base) :
    digits base value = [value] := by
  rw [digits_eq base value hb hv]
  split
  · next h0 => rw [h0]
  · next h0 => rw [Nat.digits_of_lt _ _ h0 h, List.reverse_singleton]

end Sys2Proof.Machine

namespace Sys2Proof.Safety

open Sys2Proof.Machine

/-! ### Commands and their items -/

theorem oq_complete_of_nil {s : State} (hoq : s.oq = []) (ps : List Push) : (complete s ps).oq = markLast ps :=
  congrArg (· ++ markLast ps) hoq

/-- The whole queue popped, as many pops as items. -/
theorem runProc_popTimes {q : List Item} {s : State} (hoq : s.oq = q) :
    runProc (popTimes q.length) s = (.ok q, s.setQueue []) := by
  induction q generalizing s with
  | nil =>
    have hs : s.setQueue [] = s := by rw [← hoq]; rfl
    rw [hs]
    rfl
  | cons item q ih =>
    rw [List.length_cons, popTimes, runProc_bind (runProc_pop hoq), runProc_bind (ih (s := s.setQueue q) rfl)]
    rfl

/-- A command that completes and pushes nothing else than one item, and the pop of that item. -/
theorem runProc_issue_popSingle {α : Type} {i : Instr} {s s₁ : State} {p : Push} (f : Item → HostProc α)
    (hexec : exec i s = finish s₁ [p]) (hoq : s₁.oq = []) :
    runProc (do issue i; f (← popSingle)) s =
      runProc (f { last := true, tag := p.1, data := p.2 }) ((complete s₁ [p]).setQueue []) := by
  rw [runProc_bind (runProc_issue (Proofs.decodeInvertsEncode i) hexec),
    runProc_bind (runProc_popSingle (oq_complete_of_nil hoq [p]))]

/-! ### The state between two symbols -/

/-- The engine inside ENCODE or DECODE between two symbols: no fault, no open conversion, nothing to pop; the charset
loaded; the packer of width `w` holding the bits `rest`. -/
structure Coding (charset : List CharCode) (w : BitVec 6) (rest : List Bool) (s : State) : Prop where
  ready : Ready s
  loaded : Loaded charset s
  pending : Pending w rest s

/-- The character of a symbol value (R184). -/
def symbolOf (charset : List CharCode) (x : Nat) : CharCode := charset.getD x 0

section
variable {charset : List CharCode} {w : BitVec 6} {rest : List Bool} {s : State}

/-- Counting a command and popping its items. -/
theorem Coding.answered (h : Coding charset w rest s) (ps : List Push) :
    Coding charset w rest ((complete s ps).setQueue []) :=
  ⟨⟨h.ready.1, h.ready.2.1, rfl⟩, { h.loaded with }, { h.pending with }⟩

/-- A BPUT inside ENCODE or DECODE, and the pops of all the symbols it completes: as many as the host's copy of the
pending count predicts (R186, R187). -/
theorem Coding.exists_runProc_bput (h : Coding charset w rest s) (v : BitVec 32) {iw : BitVec 6}
    (hi : legalInputWidth iw = true) :
    ∃ vals rest' t u, runProc (issue (.bput v iw)) s = (.ok (), t) ∧
      runProc (popTimes ((rest.length + iw.toNat) / w.toNat)) t = (.ok (markLast (valPushes vals)), u) ∧
      Sliced w.toNat (rest ++ bitsOf iw.toNat v.toNat) vals rest' ∧
      (rest.length + iw.toNat) % w.toNat = rest'.length ∧ Coding charset w rest' u := by
  obtain ⟨hf, -, hoq⟩ := h.ready
  obtain ⟨vals, rest', hsliced, hexec⟩ := h.pending.exists_exec_bput hf v hi
  have hlen : rest.length + iw.toNat = (rest ++ bitsOf iw.toNat v.toNat).length := by
    rw [List.length_append, length_bitsOf]
  have hcount : (markLast (valPushes vals)).length = (rest.length + iw.toNat) / w.toNat := by
    rw [hlen, hsliced.length_div, markLast_length, valPushes, List.length_map]
  have hpop := runProc_popTimes (oq_complete_of_nil (s := pendingState s iw rest') hoq (valPushes vals))
  rw [hcount] at hpop
  have hcoding : Coding charset w rest' (pendingState s iw rest') :=
    ⟨h.ready, { h.loaded with }, h.pending.next hsliced.short⟩
  exact ⟨vals, rest', _, _, runProc_issue (Proofs.decodeInvertsEncode _) hexec, hpop, hsliced,
    hlen ▸ hsliced.length_mod, hcoding.answered _⟩

/-! ### Symbol values and characters -/

/-- `char_of` gives the symbol's character and only counts its command (R184). -/
theorem Coding.exists_runProc_charOf (h : Coding charset w rest s) (hb : 2 ≤ charset.length) {x : Nat}
    (hv : x < 2 ^ 64) (hx : x < charset.length) :
    ∃ t, runProc (charOf (BitVec.ofNat 64 x)) s = (.ok (symbolOf charset x), t) ∧ Coding charset w rest t := by
  obtain ⟨hf, -, hoq⟩ := h.ready
  have hpushes : numeralPushes s (BitVec.ofNat 64 x) = [(Tag.chr, zext64 (symbolOf charset x))] := by
    rw [numeralPushes, toNat_ofNat_of_lt hv le_rfl, h.loaded.base, digits_of_lt hb hv hx, List.map_singleton,
      h.loaded.entry x hx]
    rfl
  have hngen := exec_ngen_completes hf (BitVec.ofNat 64 x) (hb.trans_eq h.loaded.base.symm)
  rw [hpushes] at hngen
  have hrun := runProc_issue_popSingle (fun c => pure (c.data.setWidth 21)) hngen hoq
  rw [setWidth_zext64] at hrun
  exact ⟨_, hrun, h.answered _⟩

/-- The characters of a BPUT's symbols, in order. -/
theorem Coding.exists_runProc_charsOf (h : Coding charset w rest s) (hb : 2 ≤ charset.length)
    {vals : List Nat} (hvals : ∀ x ∈ vals, x < 2 ^ 64 ∧ x < charset.length) {items : List Item}
    (hitems : items.map Item.data = vals.map (BitVec.ofNat 64)) :
    ∃ t, runProc (charsOf items) s = (.ok (vals.map (symbolOf charset)), t) ∧ Coding charset w rest t := by
  induction vals generalizing items s with
  | nil =>
    obtain rfl := List.map_eq_nil_iff.1 hitems
    exact ⟨s, rfl, h⟩
  | cons x vals ih =>
    obtain ⟨item, items, rfl, hdata, hitems⟩ := List.map_eq_cons_iff.1 hitems
    rw [List.forall_mem_cons] at hvals
    obtain ⟨t, hchar, ht⟩ := h.exists_runProc_charOf hb hvals.1.1 hvals.1.2
    obtain ⟨u, hchars, hu⟩ := ih ht hvals.2 hitems
    refine ⟨u, ?_, hu⟩
    rw [charsOf, hdata, runProc_bind hchar, runProc_bind hchars]
    rfl

/-- `index_of` finds the symbol value of a character again, the characters being different (R185). -/
theorem Coding.exists_runProc_indexOf (h : Coding charset w rest s) (hb : 2 ≤ charset.length) (hnodup : charset.Nodup)
    {x : Nat} (hv : x < 2 ^ 64) (hx : x < charset.length) :
    ∃ t, runProc (indexOf (symbolOf charset x)) s = (.ok (BitVec.ofNat 64 x), t) ∧ Coding charset w rest t := by
  obtain ⟨hf, -, hoq⟩ := h.ready
  have hleast : LeastIndex s (symbolOf charset x) x := by
    have hread := leastIndex_readEntry (h.loaded.distinctSymbols hnodup) (hx.trans_eq h.loaded.base.symm)
    rwa [h.loaded.entry x hx] at hread
  have hsum : digitSum s.base.toNat [x] = x := by rw [digitSum, digitSum, Nat.mul_zero, Nat.add_zero]
  have hnbegin := runProc_issue (Proofs.decodeInvertsEncode .nbegin)
    (exec_nbegin_converting hf (hb.trans_eq h.loaded.base.symm))
  have hnsym := runProc_issue (Proofs.decodeInvertsEncode _)
    (exec_nsym_converting (ds := []) hleast (hsum.trans_lt hv))
  have hnend := runProc_issue (Proofs.decodeInvertsEncode .nend) (exec_nend_converting s [x])
  have hitem : (converted s [x]).oq = markLast [(Tag.num, BitVec.ofNat 64 x)] := by
    rw [oq_converted, hoq, hsum]
    rfl
  refine ⟨(converted s [x]).setQueue [], ?_, ⟨rfl, rfl, rfl⟩, { h.loaded with }, { h.pending with }⟩
  rw [indexOf, runProc_bind hnbegin, runProc_bind hnsym, List.nil_append, runProc_bind hnend,
    runProc_bind (runProc_failIfFaulted_of_not_faulted rfl), runProc_bind (runProc_popSingle hitem)]
  rfl

/-! ### The loops of ENCODE and DECODE -/

theorem map_data_markLast_valPushes (vals : List Nat) :
    (markLast (valPushes vals)).map Item.data = vals.map (BitVec.ofNat 64) := by
  rw [map_data_markLast, valPushes, List.map_map]
  rfl

theorem map_byte_markLast_valPushes (vals : List Nat) :
    (markLast (valPushes vals)).map (fun it => it.data.setWidth 8) = vals.map (BitVec.ofNat 8) := by
  have hdata := congrArg (List.map (BitVec.setWidth 8)) (map_data_markLast_valPushes vals)
  rw [List.map_map, List.map_map] at hdata
  exact hdata.trans (List.map_congr_left fun x _ => BitVec.setWidth_ofNat_of_le (by decide) x)

theorem toNat_eight : (8 : BitVec 6).toNat = 8 := rfl

/-- Symbol values of a power-of-two charset index its characters. -/
theorem forall_symbol_lt (hlen : charset.length = 2 ^ w.toNat) {vals : List Nat} (h : ∀ x ∈ vals, x < 2 ^ w.toNat) :
    ∀ x ∈ vals, x < 2 ^ 64 ∧ x < charset.length :=
  fun x hx => ⟨(h x hx).trans_le (Nat.pow_le_pow_right (by decide) w.isLt.le), hlen ▸ h x hx⟩

theorem two_le_length (hlen : charset.length = 2 ^ w.toNat) (hw : 1 ≤ w.toNat) : 2 ≤ charset.length :=
  hlen ▸ Nat.le_pow hw

/-- Step 3 of ENCODE gives the characters of the whole symbols of the stream; the rest stays in the packer (R186). -/
theorem Coding.exists_runProc_encodeLoop (h : Coding charset w rest s) (hlen : charset.length = 2 ^ w.toNat)
    (data : List (BitVec 8)) :
    ∃ vals rest' t, runProc (encodeLoop w.toNat data rest.length) s = (.ok (vals.map (symbolOf charset)), t) ∧
      Sliced w.toNat (rest ++ (data.map BitVec.toNat).flatMap (bitsOf 8)) vals rest' ∧ Coding charset w rest' t := by
  induction data generalizing rest s with
  | nil =>
    refine ⟨[], rest, s, rfl, ?_, h⟩
    rw [List.map_nil, List.flatMap_nil, List.append_nil]
    exact sliced_of_short h.pending.short
  | cons b data ih =>
    obtain ⟨vals, rest', t, u, hissue, hpop, hsliced, hcount, hu⟩ := h.exists_runProc_bput (b.setWidth 32) (iw := 8) rfl
    rw [toNat_eight] at hpop hcount hsliced
    rw [BitVec.toNat_setWidth_of_le (by decide)] at hsliced
    obtain ⟨v, hchars, hv⟩ := hu.exists_runProc_charsOf (two_le_length hlen h.pending.legal.1)
      (forall_symbol_lt hlen hsliced.bound) (map_data_markLast_valPushes vals)
    obtain ⟨vals', rest'', t', hloop, hsliced', ht'⟩ := ih hv
    refine ⟨vals ++ vals', rest'', t', ?_, ?_, ht'⟩
    · rw [← hcount] at hloop
      rw [encodeLoop, runProc_bind hissue, runProc_bind hpop, runProc_bind hchars, runProc_bind hloop, List.map_append]
      rfl
    · rw [List.map_cons, List.flatMap_cons, ← List.append_assoc]
      exact hsliced.append hsliced'

/-- Steps 3 and 4 of DECODE on the characters of symbol values, up to a tail at which it stops: the bytes are the whole
ones of the stream (R187). -/
theorem Coding.exists_runProc_decodeLoop {pad : Option CharCode} {iw : BitVec 6} {tail : List CharCode}
    (hi : 1 ≤ iw.toNat ∧ iw.toNat ≤ 8) (hlen : charset.length = 2 ^ iw.toNat) (hnodup : charset.Nodup)
    (hpad : ∀ p, pad = some p → p ∉ charset)
    (htail : ∀ c s, runProc (decodeLoop pad iw.toNat tail c) s = (.ok [], s))
    (h : Coding charset 8 rest s) {vals : List Nat} (hvals : ∀ x ∈ vals, x < 2 ^ iw.toNat) :
    ∃ bytes rest' t, runProc (decodeLoop pad iw.toNat (vals.map (symbolOf charset) ++ tail) rest.length) s =
        (.ok (bytes.map (BitVec.ofNat 8)), t) ∧
      Sliced 8 (rest ++ vals.flatMap (bitsOf iw.toNat)) bytes rest' ∧ Coding charset 8 rest' t := by
  induction vals generalizing rest s with
  | nil =>
    refine ⟨[], rest, s, htail _ s, ?_, h⟩
    rw [List.flatMap_nil, List.append_nil]
    exact sliced_of_short h.pending.short
  | cons x vals ih =>
    rw [List.forall_mem_cons] at hvals
    obtain ⟨hx, hvals⟩ := hvals
    have hwide : 2 ^ iw.toNat ≤ 2 ^ 32 := Nat.pow_le_pow_right (by decide) (by omega)
    have hindex : x < 2 ^ 64 ∧ x < charset.length := ⟨by omega, hlen ▸ hx⟩
    have hnopad : pad ≠ some (symbolOf charset x) := by
      intro hp
      refine hpad _ hp ?_
      rw [symbolOf, List.getD_eq_getElem _ _ hindex.2]
      exact List.getElem_mem _
    obtain ⟨t, hindexOf, ht⟩ := h.exists_runProc_indexOf (two_le_length hlen hi.1) hnodup hindex.1 hindex.2
    obtain ⟨bytes, rest', u, v, hissue, hpop, hsliced, hcount, hv⟩ :=
      ht.exists_runProc_bput ((BitVec.ofNat 64 x).setWidth 32) ((legalInputWidth_iff iw).2 ⟨hi.1, by omega⟩)
    have hvalue : ((BitVec.ofNat 64 x).setWidth 32).toNat = x := by
      rw [BitVec.setWidth_ofNat_of_le (by decide), toNat_ofNat_of_lt (hx.trans_le hwide) le_rfl]
    rw [toNat_eight] at hpop hcount
    rw [hvalue] at hsliced
    obtain ⟨bytes', rest'', t', hloop, hsliced', ht'⟩ := ih hv hvals
    refine ⟨bytes ++ bytes', rest'', t', ?_, ?_, ht'⟩
    · rw [← hcount] at hloop
      rw [List.map_cons, List.cons_append, decodeLoop, if_neg hnopad, runProc_bind hindexOf, BitVec.ofNat_toNat,
        BitVec.setWidth_eq, runProc_bind hissue, runProc_bind hpop, runProc_bind hloop, List.map_append,
        map_byte_markLast_valPushes]
      rfl
    · rw [List.flatMap_cons, ← List.append_assoc]
      exact hsliced.append hsliced'

/-! ### ENCODE and DECODE -/

/-- The state after CBITS has found BASE to be `2 ^ k` (40_charset.md R113, `exec_cbits_of_eq_two_pow`). -/
def bitsChecked (s : State) (k : Nat) : State :=
  complete (s.setCharset s.base (BitVec.ofNat 4 k)) [(Tag.num, BitVec.ofNat 64 k)]

/-- Step 1 of ENCODE and of DECODE succeeds for a charset of 2, 4, .. 256 characters and gives the bits per symbol
(R186). -/
theorem exists_runProc_checkedBits (hw : 1 ≤ w.toNat ∧ w.toNat ≤ 8) (hlen : charset.length = 2 ^ w.toNat)
    (hs : Ready s) :
    ∃ t, runProc (checkedBits charset) s = (.ok w.toNat, t) ∧ Loaded charset t ∧ Ready t := by
  have hmax : charset.length ≤ 256 := hlen ▸ Nat.pow_le_pow_right (by decide) hw.2
  have hbits : (BitVec.ofNat 64 w.toNat).toNat = w.toNat := toNat_ofNat_of_lt w.isLt (by decide)
  obtain ⟨u, hload, hloaded, hf, hn, hoq⟩ := exists_runProc_loadCharset_loaded hmax hs
  have hcbits : exec .cbits u = .next (bitsChecked u w.toNat) :=
    exec_cbits_of_eq_two_pow hf hw.1 (hloaded.base.trans hlen)
  have hclear := runProc_failIfFaulted_of_not_faulted (s := bitsChecked u w.toNat) hf
  have hpop := runProc_popSingle (s := bitsChecked u w.toNat) (oq_complete_of_nil hoq _)
  refine ⟨(bitsChecked u w.toNat).setQueue [], ?_, { hloaded with }, hf, hn, rfl⟩
  rw [checkedBits, runProc_bind hload, runProc_bind (runProc_issue (Proofs.decodeInvertsEncode .cbits) hcbits),
    runProc_bind hclear, runProc_bind hpop, hbits]
  rfl

/-- Steps 1 and 2 of ENCODE and of DECODE: the charset checked, a packer of width `iw` constructed. -/
theorem exists_runProc_checkedBits_binit (hw : 1 ≤ w.toNat ∧ w.toNat ≤ 8) (hlen : charset.length = 2 ^ w.toNat)
    (hs : Ready s) {iw : BitVec 6} (hi : 1 ≤ iw.toNat ∧ iw.toNat ≤ 32) :
    ∃ t u, runProc (checkedBits charset) s = (.ok w.toNat, t) ∧ runProc (issue (.binit iw)) t = (.ok (), u) ∧
      Coding charset iw [] u := by
  obtain ⟨t, hchecked, hloaded, hf, hn, hoq⟩ := exists_runProc_checkedBits hw hlen hs
  have hbinit := runProc_issue (Proofs.decodeInvertsEncode _)
    (exec_binit_completes hf ((legalOutputWidth_iff iw).2 hi))
  exact ⟨t, _, hchecked, hbinit, ⟨hf, hn, (oq_complete_of_nil hoq []).trans rfl⟩, { hloaded with }, pending_binit t hi⟩

/-- Steps 4 to 6 of ENCODE: the flushed symbol, if any, is the last character before the padding (R186). -/
theorem Coding.exists_runProc_flush (h : Coding charset w rest s) (hlen : charset.length = 2 ^ w.toNat)
    (f : List CharCode → List CharCode) (out : List CharCode) :
    ∃ t, runProc (do
        issue .bflush
        let x ← popSingle
        if x.tag = Tag.val then
          let c ← charOf x.data
          return f (out ++ [c])
        else
          return f out) s = (.ok (f (out ++ (flushedVals w.toNat rest).map (symbolOf charset))), t) ∧ Ready t := by
  obtain ⟨hf, -, hoq⟩ := h.ready
  have hflushed : Coding charset w [] (s.setPacker s.w s.iw 0 0) := ⟨h.ready, { h.loaded with }, h.pending.flushed⟩
  have hcoding := hflushed.answered [flushPush w.toNat rest]
  rw [runProc_issue_popSingle _ (h.pending.exec_bflush hf) hoq]
  obtain ⟨hpush, hvals⟩ | ⟨x, hpush, hvals⟩ := flush_cases w.toNat rest
  · refine ⟨_, ?_, hcoding.ready⟩
    rw [hpush, hvals, List.map_nil, List.append_nil]
    rfl
  · have hlt := forall_symbol_lt hlen (flushedVals_lt h.pending.short)
    rw [hvals, List.forall_mem_singleton] at hlt
    obtain ⟨t, hchar, ht⟩ := hcoding.exists_runProc_charOf (two_le_length hlen h.pending.legal.1) hlt.1 hlt.2
    refine ⟨t, ?_, ht.ready⟩
    rw [hpush] at hchar
    rw [hpush, hvals]
    exact runProc_bind hchar

/-- ENCODE gives the characters of the symbols of the bytes' bit stream, the flushed one included, then the padding
(R186). -/
theorem exists_runProc_encodeBaseX (hw : 1 ≤ w.toNat ∧ w.toNat ≤ 8) (hlen : charset.length = 2 ^ w.toNat)
    (hs : Ready s) (data : List (BitVec 8)) (pad : Option CharCode) {group : Option Nat} (hgroup : group ≠ some 0) :
    ∃ vals rest t, runProc (encodeBaseX data charset pad group) s =
        (.ok (padded pad group ((vals ++ flushedVals w.toNat rest).map (symbolOf charset))), t) ∧
      Sliced w.toNat ((data.map BitVec.toNat).flatMap (bitsOf 8)) vals rest ∧ Ready t := by
  obtain ⟨t, u, hchecked, hbinit, hu⟩ := exists_runProc_checkedBits_binit hw hlen hs (iw := w) ⟨hw.1, by omega⟩
  obtain ⟨vals, rest, v, hloop, hsliced, hv⟩ := hu.exists_runProc_encodeLoop hlen data
  obtain ⟨t', hflush, ht'⟩ := hv.exists_runProc_flush hlen (padded pad group) (vals.map (symbolOf charset))
  refine ⟨vals, rest, t', ?_, hsliced, ht'⟩
  rw [encodeBaseX, if_neg hgroup, runProc_bind hchecked, BitVec.ofNat_toNat, BitVec.setWidth_eq, runProc_bind hbinit]
  rw [List.map_append]
  exact (runProc_bind hloop).trans hflush

/-- DECODE of the characters of symbol values, up to a tail at which its loop stops, gives the whole bytes of the
symbols' bit stream (R187). -/
theorem exists_runProc_decodeBaseX (hw : 1 ≤ w.toNat ∧ w.toNat ≤ 8) (hlen : charset.length = 2 ^ w.toNat)
    (hnodup : charset.Nodup) (hs : Ready s) {pad : Option CharCode} (hpad : ∀ p, pad = some p → p ∉ charset)
    {tail : List CharCode} (htail : ∀ c s, runProc (decodeLoop pad w.toNat tail c) s = (.ok [], s))
    {vals : List Nat} (hvals : ∀ x ∈ vals, x < 2 ^ w.toNat) :
    ∃ bytes rest t, runProc (decodeBaseX (vals.map (symbolOf charset) ++ tail) charset pad) s =
        (.ok (bytes.map (BitVec.ofNat 8)), t) ∧ Sliced 8 (vals.flatMap (bitsOf w.toNat)) bytes rest := by
  obtain ⟨t, u, hchecked, hbinit, hu⟩ := exists_runProc_checkedBits_binit hw hlen hs (iw := 8) (by decide)
  obtain ⟨bytes, rest, v, hloop, hsliced, -⟩ := hu.exists_runProc_decodeLoop hw hlen hnodup hpad htail hvals
  refine ⟨bytes, rest, v, ?_, hsliced⟩
  rw [decodeBaseX, runProc_bind hchecked, runProc_bind hbinit]
  exact hloop

end

/-- The padding appended is nothing, or padding characters, at the first of which DECODE stops (R187, R188). -/
theorem exists_padded_eq_append (pad : Option CharCode) (group : Option Nat) (w : Nat) (out : List CharCode) :
    ∃ tail, padded pad group out = out ++ tail ∧
      ∀ c s, runProc (decodeLoop pad w tail c) s = (.ok [], s) := by
  match pad, group with
  | none, _ => exact ⟨[], (List.append_nil out).symm, fun _ _ => rfl⟩
  | some p, none => exact ⟨[], (List.append_nil out).symm, fun _ _ => rfl⟩
  | some p, some g =>
    refine ⟨_, rfl, fun c s => ?_⟩
    cases padCount g out.length with
    | zero => rfl
    | succ n =>
      rw [List.replicate_succ, decodeLoop, if_pos rfl]
      rfl

end Sys2Proof.Safety

namespace Sys2Proof.Proofs

open Sys2Proof.Machine Sys2Proof.Safety

/-- Settles O48: the text is the characters of the symbols of the data, and these symbols regroup into the data. -/
theorem codecRoundTrip : Obligations.CodecRoundTrip := by
  intro data charset pad group k s hs hlo hhi hlen hnodup hpad hgroup
  obtain ⟨w, rfl⟩ : ∃ w : BitVec 6, w.toNat = k := ⟨BitVec.ofNat 6 k, toNat_ofNat_of_lt (k := 6) (by omega) le_rfl⟩
  obtain ⟨vals, rest, t, hencode, hsliced, ht⟩ := exists_runProc_encodeBaseX ⟨hlo, hhi⟩ hlen hs data pad hgroup
  obtain ⟨tail, hpadded, htail⟩ :=
    exists_padded_eq_append pad group w.toNat ((vals ++ flushedVals w.toNat rest).map (symbolOf charset))
  obtain ⟨bytes, rest', u, hdecode, hsliced'⟩ :=
    exists_runProc_decodeBaseX ⟨hlo, hhi⟩ hlen hnodup ht hpad htail hsliced.flushed_lt
  obtain ⟨z, hbytes⟩ := hsliced.regroup hhi (forall_mem_map_toNat_lt data)
  have hdata : bytes.map (BitVec.ofNat 8) = data := by
    have hbyte (b : BitVec 8) : BitVec.ofNat 8 b.toNat = b := (BitVec.ofNat_toNat 8 b).trans (BitVec.setWidth_eq b)
    rw [(hsliced'.unique hbytes).1, List.map_map]
    exact (List.map_congr_left fun b _ => hbyte b).trans (List.map_id' data)
  rw [hdata] at hdecode
  rw [hpadded] at hencode
  exact ⟨_, t, u, hencode, hdecode⟩

end Sys2Proof.Proofs
end

