-- ==== Sys2Proof/Proofs/CodecCases.lean ====
section
/-! PROOF. The character procedures on their own (43_codec_procedures.md R184, R185), ENCODE and DECODE of nothing
(R186, R187), and the padding that fills up a group (R188). -/

namespace Sys2Proof.Machine

/-! ### The number of padding characters (R188) -/

theorem padCount_lt {g : Nat} (hg : 1 ≤ g) (len : Nat) : padCount g len < g := Nat.mod_lt _ hg

/-- The padding brings any length to a multiple of the group. -/
theorem dvd_add_padCount {g : Nat} (hg : 1 ≤ g) (len : Nat) : g ∣ len + padCount g len := by
  have hfill : len + (g - len % g) = g * (len / g + 1) :=
    calc len + (g - len % g)
      _ = g * (len / g) + len % g + (g - len % g) := by rw [Nat.div_add_mod]
      _ = g * (len / g + 1) := by
        rw [Nat.add_assoc, Nat.add_sub_cancel' (Nat.mod_lt len hg).le, Nat.mul_succ]
  rw [Nat.dvd_iff_mod_eq_zero, padCount, Nat.add_mod_mod, hfill, Nat.mul_mod_right]

/-- An empty text is a multiple of every group already. -/
theorem padCount_zero (g : Nat) : padCount g 0 = 0 := by rw [padCount, Nat.zero_mod, Nat.sub_zero, Nat.mod_self]

theorem padded_some_some (p : CharCode) (g : Nat) (out : List CharCode) :
    padded (some p) (some g) out = out ++ List.replicate (padCount g out.length) p := rfl

/-- Nothing is appended to the empty text, whatever padding is asked for. -/
theorem padded_nil (pad : Option CharCode) (group : Option Nat) : padded pad group [] = [] := by
  match pad, group with
  | none, _ | some _, none => rfl
  | some p, some g => rw [padded_some_some, List.length_nil, padCount_zero]; rfl

end Sys2Proof.Machine

namespace Sys2Proof.Safety

open Sys2Proof.Machine

/-! ### The character procedures -/

/-- `char_of` of a symbol value gives its entry and only counts its command (R184). -/
theorem runProc_charOf {s : State} (hs : Ready s) (hb : 2 ≤ s.base.toNat) {d : Data} (hd : d.toNat < s.base.toNat) :
    runProc (charOf d) s = (.ok (readEntry s.ct d.toNat), { s with cmdcnt := s.cmdcnt + 1 }) := by
  obtain ⟨hf, -, hoq⟩ := hs
  have hpushes : numeralPushes s d = [(Tag.chr, zext64 (readEntry s.ct d.toNat))] := by
    rw [numeralPushes, digits_of_lt hb d.isLt hd, List.map_singleton]
  have hngen := exec_ngen_completes hf d hb
  rw [hpushes] at hngen
  have hrun := runProc_issue_popSingle (fun c => pure (c.data.setWidth 21)) hngen hoq
  have hstate : (complete s [(Tag.chr, zext64 (readEntry s.ct d.toNat))]).setQueue [] =
      { s with cmdcnt := s.cmdcnt + 1 } := by
    rw [← hoq]
    rfl
  rw [setWidth_zext64, hstate] at hrun
  exact hrun

/-- `index_of` of a symbol's code gives the symbol value, by a conversion of this one digit (R185). -/
theorem runProc_indexOf {s : State} (hs : Ready s) (hb : 2 ≤ s.base.toNat) {ch : CharCode} {d : Data}
    (hleast : LeastIndex s ch d.toNat) :
    runProc (indexOf ch) s = (.ok d, (converted s [d.toNat]).setQueue []) := by
  obtain ⟨hf, -, hoq⟩ := hs
  have hsum : digitSum s.base.toNat [d.toNat] = d.toNat := by rw [digitSum, digitSum, Nat.mul_zero, Nat.add_zero]
  have hnbegin := runProc_issue (Proofs.decodeInvertsEncode .nbegin) (exec_nbegin_converting hf hb)
  have hnsym := runProc_issue (Proofs.decodeInvertsEncode _)
    (exec_nsym_converting (ds := []) hleast (hsum.trans_lt d.isLt))
  have hnend := runProc_issue (Proofs.decodeInvertsEncode .nend) (exec_nend_converting s [d.toNat])
  have hitem : (converted s [d.toNat]).oq = markLast [(Tag.num, d)] := by
    rw [oq_converted, hoq, hsum, BitVec.ofNat_toNat, BitVec.setWidth_eq]
    rfl
  rw [indexOf, runProc_bind hnbegin, runProc_bind hnsym, List.nil_append, runProc_bind hnend,
    runProc_bind (runProc_failIfFaulted_of_not_faulted rfl), runProc_bind (runProc_popSingle hitem)]
  rfl

/-! ### ENCODE and DECODE of nothing -/

/-- No data has no symbols, and there is nothing to flush (R186). -/
theorem exists_runProc_encodeBaseX_nil {charset : List CharCode} {w : BitVec 6} (hw : 1 ≤ w.toNat ∧ w.toNat ≤ 8)
    (hlen : charset.length = 2 ^ w.toNat) {s : State} (hs : Ready s) (pad : Option CharCode) {group : Option Nat}
    (hgroup : group ≠ some 0) : ∃ t, runProc (encodeBaseX [] charset pad group) s = (.ok [], t) := by
  obtain ⟨vals, rest, t, hencode, hsliced, -⟩ := exists_runProc_encodeBaseX hw hlen hs [] pad hgroup
  obtain ⟨rfl, rfl⟩ := hsliced.unique (sliced_of_short hw.1)
  exact ⟨t, hencode.trans (congrArg (fun text => (Except.ok text, t)) (padded_nil pad group))⟩

/-- Without text DECODE ends where its loop begins, so the characters need not be different (R187). -/
theorem exists_runProc_decodeBaseX_nil {charset : List CharCode} {w : BitVec 6} (hw : 1 ≤ w.toNat ∧ w.toNat ≤ 8)
    (hlen : charset.length = 2 ^ w.toNat) {s : State} (hs : Ready s) (pad : Option CharCode) :
    ∃ t, runProc (decodeBaseX [] charset pad) s = (.ok [], t) := by
  obtain ⟨t, u, hchecked, hbinit, -⟩ := exists_runProc_checkedBits_binit hw hlen hs (iw := 8) (by decide)
  refine ⟨u, ?_⟩
  rw [decodeBaseX, runProc_bind hchecked, runProc_bind hbinit]
  rfl

end Sys2Proof.Safety

namespace Sys2Proof.Proofs

open Sys2Proof.Machine Sys2Proof.Safety

/-- Settles O45: `char_of` changes nothing but the command counter, so the entry of `d` is still found at `d`, and
`index_of` writes the numeral registers and STATUS only. -/
theorem characterAndIndexInverse : Obligations.CharacterAndIndexInverse := by
  intro s d hs hb _ hdistinct hd
  have hchar := runProc_charOf hs hb hd
  have hindex := runProc_indexOf (s := { s with cmdcnt := s.cmdcnt + 1 }) hs hb (leastIndex_readEntry hdistinct hd)
  exact ⟨_, _, hchar, hindex, ⟨rfl, rfl, rfl⟩, rfl, rfl, rfl, rfl, rfl, rfl⟩

/-- Settles O49: the charset passes step 1 of both procedures, and neither loop has anything to do. -/
theorem emptyInputEmptyOutput : Obligations.EmptyInputEmptyOutput := by
  intro charset pad group k s hs hlo hhi hlen hgroup
  obtain ⟨w, rfl⟩ : ∃ w : BitVec 6, w.toNat = k := ⟨BitVec.ofNat 6 k, toNat_ofNat_of_lt (k := 6) (by omega) le_rfl⟩
  exact ⟨exists_runProc_encodeBaseX_nil ⟨hlo, hhi⟩ hlen hs pad hgroup,
    exists_runProc_decodeBaseX_nil ⟨hlo, hhi⟩ hlen hs pad⟩

/-- Settles O51: the number of padding characters is `padCount` of the text's length. -/
theorem paddingFillsGroup : Obligations.PaddingFillsGroup := by
  intro p g out hg
  refine ⟨padCount g out.length, padCount_lt hg _, padded_some_some p g out, ?_, ?_, rfl, rfl, rfl⟩
  · rw [padded_some_some, List.length_append, List.length_replicate]
    exact dvd_add_padCount hg out.length
  · rintro rfl
    exact padCount_zero g

end Sys2Proof.Proofs
end

