-- ==== Sys2Proof/Proofs/System.lean ====
section
/-! PROOF. The system commands RDREG and CLRF in every state, fault state too (44_system.md R170, R171). The register
file that the statements write out from 10_state.md R37 is what `readReg` reads. -/

namespace Sys2Proof.Machine

/-! ### The two registers laid out in fields -/

/-- STATUS as a number: F in bit 0, NACT in bit 1, POVF in bit 2 (10_state.md R31). -/
theorem statusWord_eq_ofNat (st : Status) :
    statusWord st = BitVec.ofNat 64 (st.f.toNat + 2 * st.nact.toNat + 4 * st.povf.toNat) := by
  obtain ⟨f, nact, povf⟩ := st
  revert f nact povf
  decide

/-- The packer's widths as a number: IW one byte above W (10_state.md R37). -/
theorem zext64_widths_eq_ofNat (iw w : BitVec 6) :
    zext64 (iw ++ 0#2 ++ w) = BitVec.ofNat 64 (w.toNat + 256 * iw.toNat) := by
  have hw : w.toNat < 2 ^ 6 := w.isLt
  have happend : (iw ++ 0#2 ++ w).toNat = w.toNat + 256 * iw.toNat := by
    rw [BitVec.toNat_append, BitVec.toNat_append, BitVec.toNat_ofNat, Nat.zero_mod, Nat.or_zero,
      ← Nat.shiftLeft_add_eq_or_of_lt hw, Nat.shiftLeft_eq, Nat.shiftLeft_eq]
    omega
  rw [zext64, ← BitVec.ofNat_toNat, happend]

/-! ### The register file (10_state.md R37) -/

theorem readReg_eq_none_of_lt (s : State) {n : Nat} (hn : 13 < n) : readReg s n = none :=
  Option.not_isSome_iff_eq_none.1 (mt (readReg_isSome_iff s n).1 (Nat.not_le.2 hn))

/-- `readReg` reads the register file, number by number. STATUS and the packer's widths are the two whose fields it
puts together; no number above 13 has a register. -/
theorem registerFile_getElem? (s : State) : ∀ n : Nat, (Safety.registerFile s)[n]? = readReg s n
  | 2 => congrArg some (statusWord_eq_ofNat s.status).symm
  | 7 => congrArg some (zext64_widths_eq_ofNat s.iw s.w).symm
  | 0 | 1 | 3 | 4 | 5 | 6 | 8 | 9 | 10 | 11 | 12 | 13 => rfl
  | _ + 14 => rfl

/-! ### RDREG -/

/-- RDREG of a number without a register is a command like any other: discarded in fault state, else illegal. -/
theorem exec_rdreg_of_readReg_none {r : BitVec 8} {s : State} (hr : readReg s r.toNat = none) :
    exec (.rdreg r) s = unlessFaulted s (raise (.rdreg r) (.illegalOperand (zext64 r)) s) := by
  simp only [exec, execRdreg, hr]

end Sys2Proof.Machine

namespace Sys2Proof.Proofs

open Sys2Proof.Machine Sys2Proof.Safety

/-- Settles O33: RDREG does not check the fault state when the number has a register, and the register file holds what
`readReg` reads. -/
theorem rdregRule : Obligations.RdregRule := by
  refine ⟨fun r => decodeInvertsEncode (.rdreg r), fun r s => ⟨fun d hd => ?_, fun hr hf => ?_, rfl⟩⟩
  · rw [registerFile_getElem?] at hd
    rw [exec_rdreg_of_readReg hd, finish, complete_singleton]
  · rw [exec_rdreg_of_readReg_none (readReg_eq_none_of_lt s hr), unlessFaulted_run hf, raise_eq_afterFault]
    rfl

/-- Settles O34: CLRF is the return from fault state, pushing nothing, whether or not F is set. -/
theorem clrfRule : Obligations.ClrfRule := by
  refine ⟨decodeInvertsEncode .clrf, fun s => ?_⟩
  rw [exec_clrf, finish, complete_nil]
  rfl

end Sys2Proof.Proofs
end

