-- ==== Sys2Proof/Proofs/Exceptions.lean ====
section
/-! PROOF. Exceptions (60_exceptions.md): the discarding of words in fault state (R222), the words that select no
command (R215), the two checks on a command itself (R216, R217), and `FaultCause`, the table of R210 with the condition
of each row, which every exception meets. -/

namespace Sys2Proof.Machine

/-! ### Discarding in fault state (R222) -/

/-- In fault state a command that does not run there changes nothing. -/
theorem exec_discards {i : Instr} {s : State} (hf : s.status.f = true) (hi : Safety.runsInFaultState i = false) :
    exec i s = .next s := by
  cases i with
  | rdreg r =>
    have hr : 13 < r.toNat := Nat.not_le.1 (of_decide_eq_false hi)
    rw [exec_rdreg_of_readReg_none (readReg_eq_none_of_lt s hr), unlessFaulted_discard hf]
  | clrf => cases hi
  | _ => exact unlessFaulted_discard hf _

/-- In fault state a word that selects no command changes nothing either. -/
theorem execIllegal_discards {s : State} (hf : s.status.f = true) (c : CmdWord) : execIllegal c s = .next s :=
  unlessFaulted_discard hf _

/-! ### IllegalCommand (R215) -/

theorem execIllegal_raises {s : State} (hf : s.status.f = false) (c : CmdWord) :
    execIllegal c s = .next (Safety.afterFault s (opField c) 5 (argField c)) := unlessFaulted_run hf _

/-- A word that decodes is selected by a row of R89. -/
theorem exists_row_of_decode_eq_ok {c : CmdWord} {i : Instr} (h : decode c = .ok i) :
    ∃ row ∈ Safety.opcodeRows, c &&& row.maskBits = row.matchBits := by
  have hmem := List.mem_of_find?_eq_some (Laws.SelectedByMask.find?_opcodeRows i)
  have hmask := Laws.SelectedByMask.encode_and_mask i
  rw [Proofs.encodeInvertsDecode c i h] at hmask
  exact ⟨Laws.SelectedByMask.rowOf i, hmem, hmask⟩

theorem exists_decode_eq_error {c : CmdWord} (h : ∀ row ∈ Safety.opcodeRows, c &&& row.maskBits ≠ row.matchBits) :
    ∃ e, decode c = .error e := by
  cases hdec : decode c with
  | error e => exact ⟨e, rfl⟩
  | ok i =>
    obtain ⟨row, hrow, hmask⟩ := exists_row_of_decode_eq_ok hdec
    exact absurd hmask (h row hrow)

/-! ### SequenceError (R217) -/

/-- The state does not admit the command (R217): no packer is constructed, no conversion is open, or one is. -/
def OutOfSequence (s : State) (i : Instr) : Prop :=
  (s.w = 0 ∧ (i = .bflush ∨ ∃ v iw, i = .bput v iw)) ∨
  (s.status.nact = false ∧ (i = .nend ∨ ∃ ch, i = .nsym ch)) ∨
  (s.status.nact = true ∧ ((∃ n, i = .clen n) ∨ ∃ idx ch, i = .cset idx ch))

theorem exec_of_outOfSequence {i : Instr} {s : State} (hf : s.status.f = false) (h : OutOfSequence s i) :
    exec i s = raise i .sequenceError s := by
  obtain ⟨hw, rfl | ⟨v, iw, rfl⟩⟩ | ⟨hn, rfl | ⟨ch, rfl⟩⟩ | ⟨hn, ⟨n, rfl⟩ | ⟨idx, ch, rfl⟩⟩ := h
  · exact exec_bflush_of_unconstructed hf hw
  · exact exec_bput_of_unconstructed hf v iw hw
  · exact exec_nend_of_closed hf hn
  · exact exec_nsym_of_closed hf ch hn
  · rw [exec_clen_of_not_faulted hf, if_pos hn]
  · rw [exec_cset_of_not_faulted hf, if_pos hn]

/-! ### IllegalOperand (R216) -/

/-- CLEN checks the length after the open conversion (R218). -/
theorem exec_clen_of_illegal {n : BitVec 9} {s : State} (hf : s.status.f = false) (hn : s.status.nact = false)
    (hl : ¬ legalLength n = true) : exec (.clen n) s = raise (.clen n) (.illegalOperand (zext64 n)) s := by
  rw [exec_clen_of_not_faulted hf, if_neg (Bool.eq_false_iff.1 hn), if_neg hl]

theorem exec_rdreg_of_illegal {r : BitVec 8} {s : State} (hf : s.status.f = false) (hr : 13 < r.toNat) :
    exec (.rdreg r) s = raise (.rdreg r) (.illegalOperand (zext64 r)) s := by
  rw [exec_rdreg_of_readReg_none (readReg_eq_none_of_lt s hr), unlessFaulted_run hf]

theorem wellFormed_rdreg_of_readReg_none {r : BitVec 8} {s : State} (hr : readReg s r.toNat = none) :
    (Instr.rdreg r).wellFormed = false :=
  decide_eq_false (mt (readReg_isSome_iff s r.toNat).2 (by simp [hr]))

/-! ### The causes of exceptions (R210) -/

theorem ne_two_pow_of_ne_floorPower {base : Nat} (h : base ≠ floorPower base) (k : Nat) : base ≠ 2 ^ k := by
  rintro rfl
  rw [floorPower, Nat.log2_two_pow] at h
  exact h rfl

/-- The two ways a digit is out of range (R133). -/
theorem overflow_of_addDigit_eq_none {s : State} {d : Nat} (h : addDigit s d = none) :
    d ≠ 0 ∧ (s.status.povf = true ∨ 2 ^ 64 ≤ s.nacc.toNat + d * s.npow.toNat) := by
  by_contra hfits
  have : d = 0 ∨ s.status.povf = false ∧ s.nacc.toNat + d * s.npow.toNat < 2 ^ 64 := by
    simpa [imp_iff_not_or] using hfits
  simp [addDigit_eq_some this] at h

/-- The table of R210, without the row of the words that select no command: which command raises which exception, and
the condition under which it does (R211, R213, R214, R216, R217). -/
inductive FaultCause (s : State) : Instr → Exc → Prop
  | invalidCharset {i : Instr} (hb : s.base.toNat < 2) (hi : i = .nbegin ∨ i = .cbits ∨ ∃ v, i = .ngen v) :
      FaultCause s i (.invalidCharset s.base)
  | nonPowerOfTwoCharset {floor ceiling : BitVec 32} (hb : 2 ≤ s.base.toNat) (hp : ∀ k, s.base.toNat ≠ 2 ^ k) :
      FaultCause s .cbits (.nonPowerOfTwoCharset floor ceiling)
  | invalidSymbol {ch : CharCode} (hl : ∀ j < s.base.toNat, readEntry s.ct j ≠ ch) :
      FaultCause s (.nsym ch) (.invalidSymbol ch)
  | numeralRange {ch : CharCode} {d : Nat} (hl : Safety.LeastIndex s ch d) (hd : d ≠ 0)
      (hover : s.status.povf = true ∨ 2 ^ 64 ≤ s.nacc.toNat + d * s.npow.toNat) :
      FaultCause s (.nsym ch) (.numeralRange ch)
  | illegalOperand {i : Instr} {field : Data} (hi : i.wellFormed = false) : FaultCause s i (.illegalOperand field)
  | sequenceError {i : Instr} (hi : OutOfSequence s i) : FaultCause s i .sequenceError

/-- Outside fault state a command raises an exception for a cause of R210's table, or leaves F clear. -/
theorem faultCause_of_exec {i : Instr} {s t : State} (hf : s.status.f = false) (h : exec i s = .next t) :
    t.status.f = false ∨ ∃ e, FaultCause s i e ∧ t = enterFault (opcodeOf i) e s := by
  cases i with
  | binit w =>
    obtain ⟨-, rfl⟩ | ⟨-, -, rfl⟩ | ⟨-, hw, rfl⟩ := execBinit_cases h
    exacts [.inl hf, .inl hf, .inr ⟨_, .illegalOperand hw, rfl⟩]
  | bput v iw =>
    obtain ⟨-, rfl⟩ | ⟨-, hw, rfl⟩ | ⟨-, -, -, rfl⟩ | ⟨-, -, hi, rfl⟩ := execBput_cases h
    exacts [.inl hf, .inr ⟨_, .sequenceError (.inl ⟨hw, .inr ⟨v, iw, rfl⟩⟩), rfl⟩, .inl hf,
      .inr ⟨_, .illegalOperand hi, rfl⟩]
  | bflush =>
    obtain ⟨-, rfl⟩ | ⟨-, hw, rfl⟩ | ⟨-, -, -, rfl⟩ | ⟨-, -, -, rfl⟩ := execBflush_cases h
    exacts [.inl hf, .inr ⟨_, .sequenceError (.inl ⟨hw, .inl rfl⟩), rfl⟩, .inl hf, .inl hf]
  | clen n =>
    obtain ⟨-, rfl⟩ | ⟨-, hn, rfl⟩ | ⟨-, -, -, rfl⟩ | ⟨-, -, hl, rfl⟩ := execClen_cases h
    exacts [.inl hf, .inr ⟨_, .sequenceError (.inr (.inr ⟨hn, .inl ⟨n, rfl⟩⟩)), rfl⟩, .inl hf,
      .inr ⟨_, .illegalOperand hl, rfl⟩]
  | cset idx ch =>
    obtain ⟨-, rfl⟩ | ⟨-, hn, rfl⟩ | ⟨-, -, rfl⟩ := execCset_cases h
    exacts [.inl hf, .inr ⟨_, .sequenceError (.inr (.inr ⟨hn, .inr ⟨idx, ch, rfl⟩⟩)), rfl⟩, .inl hf]
  | cget idx =>
    obtain ⟨-, rfl⟩ | ⟨-, rfl⟩ := execCget_cases h
    exacts [.inl hf, .inl hf]
  | cbits =>
    obtain ⟨-, rfl⟩ | ⟨-, hb, rfl⟩ | ⟨-, -, -, rfl⟩ | ⟨-, hb, hp, rfl⟩ := execCbits_cases h
    exacts [.inl hf, .inr ⟨_, .invalidCharset hb (.inr (.inl rfl)), rfl⟩, .inl hf,
      .inr ⟨_, .nonPowerOfTwoCharset hb (ne_two_pow_of_ne_floorPower hp), rfl⟩]
  | ngen value =>
    obtain ⟨-, rfl⟩ | ⟨-, hb, rfl⟩ | ⟨-, -, rfl⟩ := execNgen_cases h
    exacts [.inl hf, .inr ⟨_, .invalidCharset hb (.inr (.inr ⟨value, rfl⟩)), rfl⟩, .inl hf]
  | nbegin =>
    obtain ⟨-, rfl⟩ | ⟨-, hb, rfl⟩ | ⟨-, -, rfl⟩ := execNbegin_cases h
    exacts [.inl hf, .inr ⟨_, .invalidCharset hb (.inl rfl), rfl⟩, .inl hf]
  | nsym ch =>
    obtain ⟨-, rfl⟩ | ⟨-, hn, rfl⟩ | ⟨-, -, hl, rfl⟩ | ⟨d, -, -, hl, ha, rfl⟩ | ⟨-, -, -, -, -, -, rfl⟩ :=
      execNsym_cases h
    · exact .inl hf
    · exact .inr ⟨_, .sequenceError (.inr (.inl ⟨hn, .inr ⟨ch, rfl⟩⟩)), rfl⟩
    · exact .inr ⟨_, .invalidSymbol (lookup_eq_none.1 hl), rfl⟩
    · obtain ⟨hd, hover⟩ := overflow_of_addDigit_eq_none ha
      exact .inr ⟨_, .numeralRange (lookup_eq_some.1 hl) hd hover, rfl⟩
    · exact .inl hf
  | nend =>
    obtain ⟨-, rfl⟩ | ⟨-, hn, rfl⟩ | ⟨-, -, rfl⟩ := execNend_cases h
    exacts [.inl hf, .inr ⟨_, .sequenceError (.inr (.inl ⟨hn, .inl rfl⟩)), rfl⟩, .inl hf]
  | rdreg r =>
    obtain ⟨d, -, rfl⟩ | ⟨-, -, rfl⟩ | ⟨hr, -, rfl⟩ := execRdreg_cases h
    exacts [.inl hf, .inl hf, .inr ⟨_, .illegalOperand (wellFormed_rdreg_of_readReg_none hr), rfl⟩]
  | clrf =>
    obtain rfl := execClrf_cases h
    exact .inl rfl

/-- The low byte of CAUSE after fault entry is the exception's code (R220). -/
theorem code_enterFault (op : BitVec 8) (e : Exc) (s : State) :
    (enterFault op e s).cause.extractLsb' 0 8 = e.code := BitVec.extractLsb'_append_eq_right

end Sys2Proof.Machine

namespace Sys2Proof.Proofs

open Sys2Proof.Machine Sys2Proof.Safety

/-- Settles O6: every word that decodes is selected by a row, so this one does not decode. -/
theorem illegalWordRaises : Obligations.IllegalWordRaises := by
  intro s c rest hhost hf hrows
  obtain ⟨e, hdec⟩ := exists_decode_eq_error hrows
  calc step s = accept c (s.setHost rest) := step_of_host_cons hhost
    _ = execIllegal c (s.setHost rest) := accept_of_decode_error hdec _
    _ = .next (afterFault (s.setHost rest) (opField c) 5 (argField c)) :=
      execIllegal_raises (s := s.setHost rest) hf c

/-- Settles O35: RDREG of a register and CLRF do in fault state what they do outside it (O33, O34); every other word is
discarded. -/
theorem faultStateDiscards : Obligations.FaultStateDiscards := by
  intro c s hf
  refine ⟨fun r d hdec hd => ?_, fun hdec => ?_, fun hother => ?_⟩
  · rw [accept_of_decode_ok hdec]
    exact (rdregRule.2 r s).1 d hd
  · rw [accept_of_decode_ok hdec]
    exact clrfRule.2 s
  · cases hdec : decode c with
    | ok i => rw [accept_of_decode_ok hdec, exec_discards hf (hother i hdec)]
    | error e => rw [accept_of_decode_error hdec, execIllegal_discards hf]

/-- Settles O37: a word that selects no command raises code 5, and a command for a cause of the table, whose rows are
the clauses of the statement. -/
theorem faultCauses : Obligations.FaultCauses := by
  intro c s t hf haccept ht
  obtain ⟨i, hdec, hexec⟩ | ⟨e, hdec, hill⟩ := accept_cases haccept
  · obtain hclear | ⟨e, hcause, rfl⟩ := faultCause_of_exec hf hexec
    · simp [hclear] at ht
    · refine .inr ⟨i, hdec, ?_⟩
      rw [code_enterFault]
      cases hcause with
      | invalidCharset hb hi => exact .inl ⟨rfl, hb, hi⟩
      | nonPowerOfTwoCharset hb hp => exact .inr (.inl ⟨rfl, rfl, hb, hp⟩)
      | @invalidSymbol ch hl => exact .inr (.inr (.inl ⟨rfl, ch, rfl, hl⟩))
      | @numeralRange ch d hl hd hover => exact .inr (.inr (.inr (.inl ⟨rfl, ch, d, rfl, hl, hd, hover⟩)))
      | illegalOperand hi => exact .inr (.inr (.inr (.inr (.inl ⟨rfl, hi⟩))))
      | sequenceError hi => exact .inr (.inr (.inr (.inr (.inr ⟨rfl, hi⟩))))
  · obtain ⟨hf', -⟩ | ⟨-, rfl⟩ := execIllegal_cases hill
    · simp [hf] at hf'
    · exact .inl ⟨code_enterFault .., e, hdec⟩

/-- Settles O38: only four commands have illegal operands, and each records its own field. -/
theorem illegalOperandRaises : Obligations.IllegalOperandRaises := by
  intro i s hf hi hbput hclen
  cases i with
  | binit w =>
    exact ⟨zext64 w, exec_binit_of_illegal hf (Bool.eq_false_iff.1 hi), .inl ⟨w, rfl, zext64_toNat w (by decide)⟩⟩
  | bput v iw =>
    exact ⟨zext64 iw, exec_bput_of_illegal hf v (hbput v iw rfl) (Bool.eq_false_iff.1 hi),
      .inr (.inl ⟨v, iw, rfl, zext64_toNat iw (by decide)⟩)⟩
  | clen n =>
    exact ⟨zext64 n, exec_clen_of_illegal hf (hclen n rfl) (Bool.eq_false_iff.1 hi),
      .inr (.inr (.inl ⟨n, rfl, zext64_toNat n (by decide)⟩))⟩
  | rdreg r =>
    exact ⟨zext64 r, exec_rdreg_of_illegal hf (Nat.not_le.1 (of_decide_eq_false hi)),
      .inr (.inr (.inr ⟨r, rfl, zext64_toNat r (by decide)⟩))⟩
  | _ => cases hi

/-- Settles O39. -/
theorem sequenceErrorRaises : Obligations.SequenceErrorRaises := by
  intro i s hf h
  rw [exec_of_outOfSequence hf h, raise_eq_afterFault]
  rfl

end Sys2Proof.Proofs
end
-- ==== Sys2Proof/Proofs/Reset.lean ====
section
/-! PROOF. The reset move (70_reset_and_hazards.md R250, R251). -/

namespace Sys2Proof.Machine

/-- No register depends on the charset table or on the host's pending moves, all that `assertReset` keeps. -/
theorem registerFile_assertReset (s : State) :
    Safety.registerFile (assertReset s) = Safety.registerFile State.reset := rfl

/-- The reset move is possible in every state, with no check of fault state or of an open conversion. -/
theorem step_of_host_reset {s : State} {rest : List HostMove} (h : s.host = .reset :: rest) :
    step s = .next (assertReset (s.setHost rest)) := step_of_host_cons h

end Sys2Proof.Machine

namespace Sys2Proof.Proofs

open Sys2Proof.Machine Sys2Proof.Safety

/-- Settles O10: the registers by the register file of `assertReset`, the rest by its lemmas field by field. -/
theorem resetMoveKeepsOnlyTable : Obligations.ResetMoveKeepsOnlyTable := by
  intro s rest hhost
  have hct : (assertReset (s.setHost rest)).ct = s.ct := by simp
  have hfault : faultOut (assertReset (s.setHost rest)) = false := by simp [faultOut]
  have hvalid : outValid (assertReset (s.setHost rest)) = false := by simp [outValid]
  exact ⟨assertReset (s.setHost rest), step_of_host_reset hhost, registerFile_assertReset _, assertReset_oq _,
    assertReset_host _, fun i => ⟨by rw [hct], by rw [hct]⟩, hfault, rfl, hvalid⟩

end Sys2Proof.Proofs
end
